-- ==== Sys2Proof/Word.lean ====
section
/-! DEFINITION. The word of GF2CORE: XLEN = 32 bits (spec/00_scope.md R6, R10). -/

namespace Sys2Proof

/-- A 32-bit word: a command word, DIN, DOUT, a matrix row, the bits of a vector register (R6). -/
abbrev Word := BitVec 32

end Sys2Proof
end

