-- ==== Sys2Proof/Syntax.lean ====
section
/-! DEFINITION. The 22 commands of GF2CORE as syntax (spec/30_encoding.md R85, R92; spec/opcode_table.json), one
constructor per row of the table, operands in the assembler order of R92. -/

namespace Sys2Proof

/-- A vector register number, 0..7; all eight are legal (R21, R84). -/
abbrev VIdx := Fin 8

/-- A command. An immediate is a natural number: imm8 and immhi are "the field's bits read as an unsigned integer" (R84);
that it fits its eight bits is checked in `WellFormed`. -/
inductive Instr where
  /-- R101: set the code dimensions n (immhi) and k (imm8). -/
  | setdim (n k : Nat)
  /-- R102: read a control or status register. -/
  | csrr (csr : Nat)
  /-- R103: load a vector register from DIN, with length `len`. -/
  | vld (vd : VIdx) (len : Nat)
  /-- R104: return the bits of a vector register. -/
  | vst (vs : VIdx)
  /-- R105: return the length tag of a vector register. -/
  | vlen (vs : VIdx)
  /-- R126: add two vectors. -/
  | vxor (vd vs1 vs2 : VIdx)
  /-- R127: flip one position of a vector. -/
  | vflip (vd vs : VIdx) (pos : Nat)
  /-- R128: Hamming weight of a vector. -/
  | vwt (vs : VIdx)
  /-- R129: XOR-reduce of the AND of two vectors. -/
  | vdot (vs1 vs2 : VIdx)
  /-- R106: write one row of the generator matrix. -/
  | gwr (row : Nat) (vs : VIdx)
  /-- R107: read one row of the generator matrix. -/
  | grd (vd : VIdx) (row : Nat)
  /-- R108: write one row of the parity-check matrix. -/
  | hwr (row : Nat) (vs : VIdx)
  /-- R109: read one row of the parity-check matrix. -/
  | hrd (vd : VIdx) (row : Nat)
  /-- R130: encode a message with the generator matrix. -/
  | enc (vd vs : VIdx)
  /-- R131: compute the syndrome of a word. -/
  | synd (vd vs : VIdx)
  /-- R151: derive H from G. -/
  | buildh
  /-- R132: test whether G·Hᵗ is zero. -/
  | mchk
  /-- R164: build the coset-leader table from H. -/
  | tbuild
  /-- R165: look up the leader of a syndrome. -/
  | tlk (vd vs : VIdx)
  /-- R181: syndrome-table decode. -/
  | dec (vd vs : VIdx)
  /-- R182: greedy bit-flip decode, one pass. -/
  | deci (vd vs : VIdx)
  /-- R183: extract the message from a word. -/
  | msg (vd vs : VIdx)
deriving DecidableEq, Repr

/-- The mnemonic of a command as R85 and spec/opcode_table.json spell it. -/
def Instr.mnemonic : Instr → String
  | .setdim _ _ => "SETDIM"
  | .csrr _ => "CSRR"
  | .vld _ _ => "VLD"
  | .vst _ => "VST"
  | .vlen _ => "VLEN"
  | .vxor _ _ _ => "VXOR"
  | .vflip _ _ _ => "VFLIP"
  | .vwt _ => "VWT"
  | .vdot _ _ => "VDOT"
  | .gwr _ _ => "GWR"
  | .grd _ _ => "GRD"
  | .hwr _ _ => "HWR"
  | .hrd _ _ => "HRD"
  | .enc _ _ => "ENC"
  | .synd _ _ => "SYND"
  | .buildh => "BUILDH"
  | .mchk => "MCHK"
  | .tbuild => "TBUILD"
  | .tlk _ _ => "TLK"
  | .dec _ _ => "DEC"
  | .deci _ _ => "DECI"
  | .msg _ _ => "MSG"

end Sys2Proof
end

