-- ==== Sys2Proof/WellFormed.lean ====
section
/-! DEFINITION. Which terms of `Instr` are commands that a 32-bit word can carry: every immediate fits its 8-bit field
(spec/30_encoding.md R81, R84). Register numbers are 0..7 by their type. Nothing else is checked here: "An immediate that
is out of range for its use is not an encoding error: the command decodes, and its rule raises the failure" (R84). -/

namespace Sys2Proof

/-- An immediate of 8 bits, 0..255 (R81). -/
abbrev fitsImm8 (x : Nat) : Bool := decide (x < 256)

/-- The immediates of a command fit their fields (R81, R84). -/
def Instr.wellFormed : Instr → Bool
  | .setdim n k => fitsImm8 n && fitsImm8 k
  | .csrr csr => fitsImm8 csr
  | .vld _ len => fitsImm8 len
  | .vst _ => true
  | .vlen _ => true
  | .vxor _ _ _ => true
  | .vflip _ _ pos => fitsImm8 pos
  | .vwt _ => true
  | .vdot _ _ => true
  | .gwr row _ => fitsImm8 row
  | .grd _ row => fitsImm8 row
  | .hwr row _ => fitsImm8 row
  | .hrd _ row => fitsImm8 row
  | .enc _ _ => true
  | .synd _ _ => true
  | .buildh => true
  | .mchk => true
  | .tbuild => true
  | .tlk _ _ => true
  | .dec _ _ => true
  | .deci _ _ => true
  | .msg _ _ => true

/-- `wellFormed` as a proposition. -/
abbrev Instr.WellFormed (i : Instr) : Prop := i.wellFormed = true

end Sys2Proof
end

