-- ==== Sys2Proof/Decode.lean ====
section
/-! DEFINITION. Decoding and encoding of command words (spec/30_encoding.md R80 to R88; spec/opcode_table.json).

`decode` is the procedure of R86: select by opcode, then test the word against the opcode's (match, mask) pair, then
extract the fields. It is total on 32-bit words and rejects by name. `encode` is written from the format diagrams of R82
and R83. -/

namespace Sys2Proof

/-- Why a word is not a command. Both lead to the failure IllegalCommand (R86, R208). -/
inductive Reject where
  /-- The opcode byte is not one of the 22 of R85 (R88). -/
  | unknownOpcode
  /-- The opcode is known and a reserved or unused field is nonzero (R87). -/
  | nonzeroReserved
deriving DecidableEq, Repr

/-- opcode = cmd[31:24] (R81). -/
def fieldOpcode (cmd : Word) : BitVec 8 := cmd.extractLsb' 24 8
/-- vd = cmd[23:21] (R81). -/
def fieldVd (cmd : Word) : VIdx := (cmd.extractLsb' 21 3).toFin
/-- vs1 = cmd[20:18] (R81). -/
def fieldVs1 (cmd : Word) : VIdx := (cmd.extractLsb' 18 3).toFin
/-- vs2 = cmd[17:15] (R81). -/
def fieldVs2 (cmd : Word) : VIdx := (cmd.extractLsb' 15 3).toFin
/-- imm8 = cmd[7:0] (R81), as an unsigned integer (R84). -/
def fieldImm8 (cmd : Word) : Nat := (cmd.extractLsb' 0 8).toNat
/-- immhi = cmd[15:8], format D only (R81), as an unsigned integer (R84). -/
def fieldImmhi (cmd : Word) : Nat := (cmd.extractLsb' 8 8).toNat

/-- The second test of R86: `(cmd & mask) != match` means that a reserved or unused field is nonzero. -/
def accepts (cmd mask mtch : Word) (i : Instr) : Except Reject Instr :=
  if cmd &&& mask = mtch then .ok i else .error .nonzeroReserved

/-- R86, with the (match, mask) pairs of R85. -/
def decode (cmd : Word) : Except Reject Instr :=
  match fieldOpcode cmd with
  | 0x01#8 => accepts cmd 0xFFFF0000#32 0x01000000#32 (.setdim (fieldImmhi cmd) (fieldImm8 cmd))
  | 0x02#8 => accepts cmd 0xFFFFFF00#32 0x02000000#32 (.csrr (fieldImm8 cmd))
  | 0x10#8 => accepts cmd 0xFF1FFF00#32 0x10000000#32 (.vld (fieldVd cmd) (fieldImm8 cmd))
  | 0x11#8 => accepts cmd 0xFFE3FFFF#32 0x11000000#32 (.vst (fieldVs1 cmd))
  | 0x12#8 => accepts cmd 0xFFE3FFFF#32 0x12000000#32 (.vlen (fieldVs1 cmd))
  | 0x13#8 => accepts cmd 0xFF007FFF#32 0x13000000#32 (.vxor (fieldVd cmd) (fieldVs1 cmd) (fieldVs2 cmd))
  | 0x14#8 => accepts cmd 0xFF03FF00#32 0x14000000#32 (.vflip (fieldVd cmd) (fieldVs1 cmd) (fieldImm8 cmd))
  | 0x15#8 => accepts cmd 0xFFE3FFFF#32 0x15000000#32 (.vwt (fieldVs1 cmd))
  | 0x16#8 => accepts cmd 0xFFE07FFF#32 0x16000000#32 (.vdot (fieldVs1 cmd) (fieldVs2 cmd))
  | 0x20#8 => accepts cmd 0xFFE3FF00#32 0x20000000#32 (.gwr (fieldImm8 cmd) (fieldVs1 cmd))
  | 0x21#8 => accepts cmd 0xFF1FFF00#32 0x21000000#32 (.grd (fieldVd cmd) (fieldImm8 cmd))
  | 0x22#8 => accepts cmd 0xFFE3FF00#32 0x22000000#32 (.hwr (fieldImm8 cmd) (fieldVs1 cmd))
  | 0x23#8 => accepts cmd 0xFF1FFF00#32 0x23000000#32 (.hrd (fieldVd cmd) (fieldImm8 cmd))
  | 0x30#8 => accepts cmd 0xFF03FFFF#32 0x30000000#32 (.enc (fieldVd cmd) (fieldVs1 cmd))
  | 0x31#8 => accepts cmd 0xFF03FFFF#32 0x31000000#32 (.synd (fieldVd cmd) (fieldVs1 cmd))
  | 0x32#8 => accepts cmd 0xFFFFFFFF#32 0x32000000#32 .buildh
  | 0x33#8 => accepts cmd 0xFFFFFFFF#32 0x33000000#32 .mchk
  | 0x40#8 => accepts cmd 0xFFFFFFFF#32 0x40000000#32 .tbuild
  | 0x41#8 => accepts cmd 0xFF03FFFF#32 0x41000000#32 (.tlk (fieldVd cmd) (fieldVs1 cmd))
  | 0x50#8 => accepts cmd 0xFF03FFFF#32 0x50000000#32 (.dec (fieldVd cmd) (fieldVs1 cmd))
  | 0x51#8 => accepts cmd 0xFF03FFFF#32 0x51000000#32 (.deci (fieldVd cmd) (fieldVs1 cmd))
  | 0x52#8 => accepts cmd 0xFF03FFFF#32 0x52000000#32 (.msg (fieldVd cmd) (fieldVs1 cmd))
  | _ => .error .unknownOpcode

/-- Format V (R82): opcode, vd, vs1, vs2, rsv = 0, imm8 from bit 31 down to bit 0. -/
def formatV (opcode : BitVec 8) (vd vs1 vs2 : VIdx) (imm8 : Nat) : Word :=
  (opcode ++ BitVec.ofFin (w := 3) vd ++ BitVec.ofFin (w := 3) vs1 ++ BitVec.ofFin (w := 3) vs2 ++ 0#7
    ++ BitVec.ofNat 8 imm8 : BitVec (8 + 3 + 3 + 3 + 7 + 8))

/-- Format D (R83): opcode, rsvd = 0, immhi, imm8 from bit 31 down to bit 0. -/
def formatD (opcode : BitVec 8) (immhi imm8 : Nat) : Word :=
  (opcode ++ 0#8 ++ BitVec.ofNat 8 immhi ++ BitVec.ofNat 8 imm8 : BitVec (8 + 8 + 8 + 8))

/-- The word of a command (R85 for the opcode and the fields used, R92 for the place of each operand). -/
def encode : Instr → Word
  | .setdim n k => formatD 0x01 n k
  | .csrr csr => formatV 0x02 0 0 0 csr
  | .vld vd len => formatV 0x10 vd 0 0 len
  | .vst vs => formatV 0x11 0 vs 0 0
  | .vlen vs => formatV 0x12 0 vs 0 0
  | .vxor vd vs1 vs2 => formatV 0x13 vd vs1 vs2 0
  | .vflip vd vs pos => formatV 0x14 vd vs 0 pos
  | .vwt vs => formatV 0x15 0 vs 0 0
  | .vdot vs1 vs2 => formatV 0x16 0 vs1 vs2 0
  | .gwr row vs => formatV 0x20 0 vs 0 row
  | .grd vd row => formatV 0x21 vd 0 0 row
  | .hwr row vs => formatV 0x22 0 vs 0 row
  | .hrd vd row => formatV 0x23 vd 0 0 row
  | .enc vd vs => formatV 0x30 vd vs 0 0
  | .synd vd vs => formatV 0x31 vd vs 0 0
  | .buildh => formatV 0x32 0 0 0 0
  | .mchk => formatV 0x33 0 0 0 0
  | .tbuild => formatV 0x40 0 0 0 0
  | .tlk vd vs => formatV 0x41 vd vs 0 0
  | .dec vd vs => formatV 0x50 vd vs 0 0
  | .deci vd vs => formatV 0x51 vd vs 0 0
  | .msg vd vs => formatV 0x52 vd vs 0 0

/-- The command word made of an instruction's bits as spec/opcode_table.json numbers them; every bit from `nbits` up is 0.
Every command is exactly one 32-bit word (R80). -/
def tableWord (nbits w : Nat) : Word := BitVec.ofNat 32 (w % 2 ^ nbits)

/-- What `decode` reads from those bits. -/
def decodeTableWord (nbits w : Nat) : Option Instr :=
  match decode (tableWord nbits w) with
  | .ok i => some i
  | .error _ => none

end Sys2Proof
end

