-- ==== Sys2Proof/Config.lean ====
section
/-! DEFINITION. The parameters of an instance of GF2CORE (spec/00_scope.md R6).

NMAX and RMAX are open in the spec ("arguments of the model", treatment `parameter` in 93_implementation_defined.md U13).
A state carries the `Config` of its instance in a field that nothing changes, so a claim about every state is a claim
about every instance (notes/assumptions/1.md, DESIGN CHOICE, safe). -/

namespace Sys2Proof

/-- The two open parameters: NMAX, the largest codeword length, and RMAX, the largest number of parity bits (R6). -/
structure Config where
  nmax : Nat
  rmax : Nat
deriving DecidableEq, Repr

/-- The constraints R6 puts on them. -/
abbrev Config.Valid (c : Config) : Prop :=
  2 ≤ c.nmax ∧ c.nmax ≤ 32 ∧ 1 ≤ c.rmax ∧ c.rmax ≤ min (c.nmax - 1) 24

/-- The reference values of R6, which the spec's test vectors use. -/
def Config.reference : Config := { nmax := 32, rmax := 16 }

end Sys2Proof
end

