-- ==== Sys2Proof/Machine/State.lean ====
section
/-! DEFINITION. The state of GF2CORE (spec/10_state.md R20) as plain data, what can end a step, and the reset state
(R45, spec/70_reset_and_hazards.md R231). -/

namespace Sys2Proof.Machine

/-- The nine typed failures of R201. A failure is an ordinary outcome of a command: it is reported in the response and in
ERR, and the machine goes on (R200, R210), so taking one is a next state. -/
inductive Failure where
  /-- code 1, R202 -/
  | invalidDimensions
  /-- code 2, R203: reserved for the host, never raised -/
  | invalidAlphabet
  /-- code 3, R203: reserved for the host, never raised -/
  | invalidProbability
  /-- code 4, R204 -/
  | inputLengthMismatch
  /-- code 5, R205 -/
  | invalidMatrix
  /-- code 6, R206 -/
  | decodeError
  /-- code 7, R207 -/
  | sizeLimit
  /-- code 8, R208 -/
  | illegalCommand
  /-- code 9, R209 -/
  | indexRange
deriving DecidableEq, Repr

/-- A vector register: a length tag and packed bits, bit i being position i (R9, R21). -/
structure VReg where
  len  : BitVec 6
  bits : Word
deriving DecidableEq, Repr

/-- What an assigned slot of TMEM holds: the leader's weight and its pattern, packed (R63). -/
structure Leader where
  wt  : BitVec 6
  pat : Word
deriving DecidableEq, Repr

/-- A sparse memory: (index, content) pairs. Canonical form: `Memory.wf` in Machine/Ops.lean. -/
abbrev Memory (α : Type) := List (Nat × α)

/-- A matrix memory, GMEM or HMEM: one packed row per index; an unlisted row is 0x00000000 (R61, R62; reset contents R231).
Log entry 7. -/
abbrev RowMem := Memory Word

/-- TMEM: one leader per assigned slot, the index being the packed syndrome; an unlisted slot is unassigned (R63, R161; reset
contents R231). Log entries 6 and 7. -/
abbrev SlotMem := Memory Leader

/-- The response that ends a command: ERRCODE and DOUT (R5, R238). -/
structure Response where
  errcode : BitVec 4
  dout    : Word
deriving DecidableEq, Repr

/-- The two events the core reacts to (R230, R238): a command, CMD with DIN, and a reset. -/
inductive HostEvent where
  | command (cmd din : Word)
  | reset
deriving DecidableEq, Repr

/-- The state. The first fourteen fields after `cfg` are the complete state of R20; `cmd`, `din`, `response` and `host` are
the host interface of R238 and R239 held as data (log entries 2, 4, 5); `cfg` is the instance's configuration (log entry 1). -/
structure State where
  /-- NMAX and RMAX of this instance (R6). Nothing changes it. -/
  cfg : Config
  /-- V0..V7 (R21). -/
  v : Vector VReg 8
  /-- N, the codeword length (R31). -/
  n : BitVec 6
  /-- K, the message length (R31). -/
  k : BitVec 6
  /-- W, the result register (R24). -/
  w : BitVec 6
  /-- Z: the last SYND syndrome was all-zero (R23). -/
  z : Bool
  /-- ORTH: the last MCHK found G·Hᵗ = 0 (R23). -/
  orth : Bool
  /-- HV: H is present (R23, R41). -/
  hv : Bool
  /-- TB: the table is built (R23, R41). -/
  tb : Bool
  /-- TCOUNT: the number of assigned slots (R36). -/
  tcount : BitVec 25
  /-- ERR: the outcome code of the last command (R34). -/
  err : BitVec 4
  /-- ERRCMD: the command word of the last failed command (R37). -/
  errcmd : Word
  /-- GMEM (R61). -/
  gmem : RowMem
  /-- HMEM (R62). -/
  hmem : RowMem
  /-- TMEM (R63). -/
  tmem : SlotMem
  /-- CMD: the command word of the current command (R13, R238). -/
  cmd : Word
  /-- DIN: the data word of the current command (R13, R238). -/
  din : Word
  /-- (ERRCODE, DOUT) of the last command answered; `none` while none has been answered since reset (R5, R238). -/
  response : Option Response
  /-- What the host has still to issue, oldest first (R239). -/
  host : List HostEvent
deriving DecidableEq, Repr

/-- What stops the machine: nothing. "every command on every state has one defined outcome" (R237), every command terminates
(R236), a failure of R201 is a next state (R210). So there is no constructor, and no step can fault. Log entry 11. -/
inductive Fault where
deriving DecidableEq, Repr

/-- Why an instruction has no meaning. -/
inductive Refusal where
  /-- The arm of an instruction this model has not reached, named by its mnemonic. Raised by no arm: all 22 commands have
  their meaning. It would be safe: no claim could be proved through it. -/
  | notModelled (mnemonic : String)
deriving DecidableEq, Repr

/-- The outcome of a command or of a step. -/
abbrev Result := Host.Outcome State Fault Refusal

/-- The reset state of an instance (R45, R231): "every piece of state has a defined value; nothing is unspecified". The
interface fields `cmd`, `din`, `response`, `host`, which those rules do not name, are 0, 0, none and empty (log entries 2, 4,
5, DESIGN CHOICE). -/
def State.resetOf (c : Config) : State where
  cfg := c
  v := Vector.replicate 8 { len := 0, bits := 0 }
  n := 0
  k := 0
  w := 0
  z := false
  orth := false
  hv := false
  tb := false
  tcount := 0
  err := 0
  errcmd := 0
  gmem := []
  hmem := []
  tmem := []
  cmd := 0
  din := 0
  response := none
  host := []

/-- The machine right after reset, for the reference configuration of R6. -/
def State.reset : State := State.resetOf Config.reference

end Sys2Proof.Machine
end

