-- ==== Sys2Proof/Machine/Ops.lean ====
section
/-! DEFINITION. The named operations every command is built from: bits of words, the three private memories, the
registers, the two invalidations, taking a failure, answering a command, the two host events. -/

namespace Sys2Proof.Machine

/-! ### Bits of words (spec/00_scope.md R10) -/

/-- mask(L) = 2^L − 1, 0 ≤ L ≤ 32 (R10). -/
def mask (L : Nat) : Word := BitVec.ofNat 32 (2 ^ L - 1)

/-- 1 << i, truncated to 32 bits (R10). -/
def oneAt (i : Nat) : Word := 1#32 <<< i

/-- The number of one bits among positions 0 .. L−1 of x. -/
def popcountBelow (x : Word) : Nat → Nat
  | 0 => 0
  | L + 1 => popcountBelow x L + (x.getLsbD L).toNat

/-- popcount(x), 0..32 (R10). -/
def popcount (x : Word) : Nat := popcountBelow x 32

/-- parity(x) = popcount(x) mod 2, as a bit (R10). -/
def parity (x : Word) : Bool := popcount x % 2 == 1

/-- A bit as a word, 0 or 1. -/
def bitWord (b : Bool) : Word := if b then 1#32 else 0#32

/-! ### Sparse memories -/

namespace Memory

/-- What the memory lists at an index. -/
def find {α : Type} : Memory α → Nat → Option α
  | [], _ => none
  | (a, x) :: m, i => if a = i then some x else find m i

/-- Take an index out of the list. -/
def erase {α : Type} : Memory α → Nat → Memory α
  | [], _ => []
  | (a, x) :: m, i => if a = i then erase m i else (a, x) :: erase m i

/-- Put a content at an index, keeping the indices in rising order. -/
def insert {α : Type} : Memory α → Nat → α → Memory α
  | [], i, y => [(i, y)]
  | (a, x) :: m, i, y =>
    if a < i then (a, x) :: insert m i y
    else if a = i then (i, y) :: m
    else (i, y) :: (a, x) :: m

/-- The canonical form: indices strictly rising, and no entry that equals what an unlisted index reads as (`blank`).
Equal memories are then equal lists. -/
abbrev wf {α : Type} (blank : α → Bool) (m : Memory α) : Prop :=
  m.Pairwise (fun e f => e.1 < f.1) ∧ ∀ e ∈ m, blank e.2 = false

end Memory

namespace RowMem

/-- Row i of a matrix memory; an unlisted row is 0 (R61, R62, R231). -/
def read (m : RowMem) (i : Nat) : Word := (Memory.find m i).getD 0

/-- Write row i; writing 0 takes the row out of the list. -/
def write (m : RowMem) (i : Nat) (x : Word) : RowMem :=
  if x = 0 then Memory.erase m i else Memory.insert m i x

/-- Every row 0 (R41, R101). -/
def zero : RowMem := []

/-- The canonical form of a matrix memory: rising row indices, no listed row 0. -/
abbrev wf (m : RowMem) : Prop := Memory.wf (fun x => x == 0) m

end RowMem

namespace SlotMem

/-- Slot s of TMEM: its leader, or `none` for an unassigned slot (R63). -/
def read (t : SlotMem) (s : Nat) : Option Leader := Memory.find t s

/-- Assign slot s. -/
def write (t : SlotMem) (s : Nat) (l : Leader) : SlotMem := Memory.insert t s l

/-- Every slot unassigned (R41). -/
def empty : SlotMem := []

/-- The canonical form of TMEM: rising slot indices. -/
abbrev wf (t : SlotMem) : Prop := Memory.wf (fun _ => false) t

end SlotMem

/-! ### Reading the state (spec/00_scope.md R13) -/

/-- N as a natural number (R31). -/
def State.N (s : State) : Nat := s.n.toNat

/-- K as a natural number (R31). -/
def State.K (s : State) : Nat := s.k.toNat

/-- R = N − K, computed, not stored (R13, R32). -/
def State.R (s : State) : Nat := s.N - s.K

/-- DIMV: the core is configured (R7, R33). -/
abbrev State.DIMV (s : State) : Prop := 0 < s.K ∧ s.K < s.N

/-- V[i] (R13). -/
def State.V (s : State) (i : VIdx) : VReg := s.v[i]

/-- G[j], row j of the generator memory (R13). -/
def State.G (s : State) (j : Nat) : Word := s.gmem.read j

/-- H[i], row i of the parity-check memory (R13). -/
def State.H (s : State) (i : Nat) : Word := s.hmem.read i

/-- T[x], slot x of the table (R13). -/
def State.T (s : State) (x : Nat) : Option Leader := s.tmem.read x

/-! ### Writing the state -/

/-- V[i] <- (L, x) (R13). The writer guarantees that x has no bit at or above L. -/
def State.setV (s : State) (i : VIdx) (L : BitVec 6) (x : Word) : State :=
  { s with v := s.v.set i { len := L, bits := x } }

/-- N <- n; K <- k (R101). -/
def State.setDims (s : State) (n k : Nat) : State :=
  { s with n := BitVec.ofNat 6 n, k := BitVec.ofNat 6 k }

/-- W <- x (R24). -/
def State.setW (s : State) (x : BitVec 6) : State := { s with w := x }

/-- Z <- b (R23). -/
def State.setZ (s : State) (b : Bool) : State := { s with z := b }

/-- ORTH <- b (R23). -/
def State.setOrth (s : State) (b : Bool) : State := { s with orth := b }

/-- G[j] <- x (R13). -/
def State.setG (s : State) (j : Nat) (x : Word) : State := { s with gmem := s.gmem.write j x }

/-- for j in 0 .. NMAX−2: G[j] <- 0 (R101). -/
def State.zeroG (s : State) : State := { s with gmem := RowMem.zero }

/-- H[i] <- x; HV <- 1 (R108). -/
def State.setH (s : State) (i : Nat) (x : Word) : State :=
  { s with hmem := s.hmem.write i x, hv := true }

/-- The rows of a whole matrix into H; HV <- 1 (R151). -/
def State.setHmem (s : State) (h : RowMem) : State := { s with hmem := h, hv := true }

/-- The built table; TCOUNT <- count; TB <- 1 (R164). -/
def State.setTable (s : State) (t : SlotMem) (count : Nat) : State :=
  { s with tmem := t, tcount := BitVec.ofNat 25 count, tb := true }

/-- invalidate_T(): every slot unassigned, TCOUNT <- 0, TB <- 0 (R41). -/
def State.invalidateT (s : State) : State :=
  { s with tmem := SlotMem.empty, tcount := 0, tb := false }

/-- invalidate_H(): every row of H <- 0, HV <- 0, invalidate_T() (R41). -/
def State.invalidateH (s : State) : State :=
  { s with hmem := RowMem.zero, hv := false }.invalidateT

/-! ### Taking a failure, and answering a command -/

/-- The numeric codes of R201. -/
def Failure.code : Failure → BitVec 4
  | .invalidDimensions => 1
  | .invalidAlphabet => 2
  | .invalidProbability => 3
  | .inputLengthMismatch => 4
  | .invalidMatrix => 5
  | .decodeError => 6
  | .sizeLimit => 7
  | .illegalCommand => 8
  | .indexRange => 9

/-- The state after failure f (R210): ERR <- code, ERRCMD <- cmd, response (code, 0), and nothing else changes. -/
def State.failed (s : State) (f : Failure) : State :=
  { s with err := f.code, errcmd := s.cmd, response := some { errcode := f.code, dout := 0 } }

/-- `raise f` (R13, R210): the one operation by which a failure (an exception of this machine, R17) is taken. It is given the
state the command started from, so nothing a command wrote before it takes effect. There is no handler, no saved program
counter, no mode, and so no return operation beside it (R200, R212). -/
def State.raise (s : State) (f : Failure) : Result := .next (s.failed f)

/-- The state after `respond(d)` (R13, R100): ERR <- 0, response (0, d). -/
def State.answered (s : State) (d : Word) : State :=
  { s with err := 0, response := some { errcode := 0, dout := d } }

/-- `respond(d)`: end the command with success and DOUT = d (R13). -/
def State.respond (s : State) (d : Word) : Result := .next (s.answered d)

/-- The state after a successful CSRR: response (0, d), ERR left as it was (R34, R100, R102). -/
def State.answeredKeepingErr (s : State) (d : Word) : State :=
  { s with response := some { errcode := 0, dout := d } }

/-- `respond(d)` of CSRR, "the only successful command that leaves ERR unchanged" (R102). -/
def State.respondKeepingErr (s : State) (d : Word) : Result := .next (s.answeredKeepingErr d)

/-! ### The two host events (spec/70_reset_and_hazards.md R230, R238) -/

/-- The host presents (CMD, DIN): the command leaves the host's list and becomes the current command. -/
def State.accept (s : State) (cmd din : Word) (rest : List HostEvent) : State :=
  { s with cmd := cmd, din := din, host := rest }

/-- The reset event: the reset state of R231 whatever the state was; what the host has still to issue is the host's own and
stays (log entry 13). -/
def State.resetEvent (s : State) (rest : List HostEvent) : State :=
  { State.resetOf s.cfg with host := rest }

end Sys2Proof.Machine
end

