-- ==== Sys2Proof/Machine/Gf2.lean ====
section
/-! DEFINITION. GF(2) vectors and matrices on packed rows (spec/41_matrix_algebra.md R120 to R125,
spec/42_parity_check.md R150): the pure functions that the commands apply to state. -/

namespace Sys2Proof.Machine

/-- weight(a) = popcount(a.bits) (R121). -/
def weight (x : Word) : Nat := popcount x

/-- dot(a, b) = parity(a.bits & b.bits) (R121). -/
def dot (a b : Word) : Bool := parity (a &&& b)

/-- The XOR of G[j] over all j < k with m[j] = 1 (R122, R130): the codeword of message m. It is additive in m (R133 item 3), and
for a standard-form G its first k positions are m (R133 item 4). -/
def encodeMessage (g : RowMem) (m : Word) : Nat → Word
  | 0 => 0
  | k + 1 => if m.getLsbD k then encodeMessage g m k ^^^ g.read k else encodeMessage g m k

/-- Σ s[i]·2^i with s[i] = parity(H[i] & v), over i < r (R123, R131): the packed syndrome of v. It is additive in v (R133 item 1);
the other items of R133 relate it to `column` and `encodeMessage`. -/
def syndrome (h : RowMem) (v : Word) : Nat → Word
  | 0 => 0
  | r + 1 => syndrome h v r ||| (bitWord (dot (h.read r) v) <<< r)

/-- Row c of the transpose of the k rows of g: bit j is g[j][c] (R124). -/
def transposeRow (g : RowMem) (c : Nat) : Nat → Word
  | 0 => 0
  | k + 1 => transposeRow g c k ||| (bitWord ((g.read k).getLsbD c) <<< k)

/-- col_i of R133 item 2: column i of the r rows of h, packed as an r-bit word, col_i[t] = h[t][i]. Flipping position i of a word
adds it to the word's syndrome. -/
def column (h : RowMem) (i r : Nat) : Word := transposeRow h i r

/-- Row i of H = [Pᵗ | I]: (Σ over j < k of G[j][k+i]·2^j) | (1 << (k+i)) (R150, R151). -/
def parityCheckRow (g : RowMem) (k i : Nat) : Word := transposeRow g (k + i) k ||| oneAt (k + i)

/-- for i in 0 .. r−1: H[i] <- row i of [Pᵗ | I] (R151). Rows at r and above are left as they are. -/
def buildParityCheck (g : RowMem) (k : Nat) (h : RowMem) : Nat → RowMem
  | 0 => h
  | r + 1 => (buildParityCheck g k h r).write r (parityCheckRow g k r)

/-- G·Hᵗ = 0: every entry (G·Hᵗ)[j][i] = dot(G[j], H[i]), j < k, i < r, is 0 (R125, R132). -/
def orthogonal (g h : RowMem) (k r : Nat) : Bool :=
  (List.range k).all fun j => (List.range r).all fun i => !dot (g.read j) (h.read i)

/-- Standard form: G[j] & mask(K) = 1 << j for every j < K (R17, R33, R151). -/
def standardForm (g : RowMem) (k : Nat) : Bool :=
  (List.range k).all fun j => g.read j &&& mask k == oneAt j

end Sys2Proof.Machine
end

