-- ==== Sys2Proof/Machine/Flags.lean ====
section
/-! DEFINITION. The flags of GF2CORE and the STATUS register (spec/10_state.md R23, R33). -/

namespace Sys2Proof.Machine

/-- Z as SYND writes it: 1 if the computed syndrome is all-zero, else 0 (R23, R131). -/
def zeroFlag (syn : Word) : Bool := syn == 0

/-- STATUS bit 0, DIMV: 1 iff 0 < K and K < N (R33). -/
def State.dimvBit (s : State) : Bool := decide s.DIMV

/-- STATUS bit 1, GSYS: 1 iff DIMV and G is in standard form; 0 when not configured (R33). -/
def State.gsysBit (s : State) : Bool := s.dimvBit && standardForm s.gmem s.K

/-- STATUS bit 4, TT: 1 iff TB = 1 and TCOUNT = 2^(N−K); 0 when TB = 0 (R33). -/
def State.ttBit (s : State) : Bool := s.tb && s.tcount.toNat == 2 ^ s.R

/-- STATUS (R33): DIMV, GSYS, HV, TB, TT, Z, ORTH in bits 0 to 6; bits 31 to 7 read zero. -/
def State.status (s : State) : Word :=
  bitWord s.dimvBit
    ||| (bitWord s.gsysBit <<< 1)
    ||| (bitWord s.hv <<< 2)
    ||| (bitWord s.tb <<< 3)
    ||| (bitWord s.ttBit <<< 4)
    ||| (bitWord s.z <<< 5)
    ||| (bitWord s.orth <<< 6)

end Sys2Proof.Machine
end

