-- ==== Sys2Proof/Machine/Operands.lean ====
section
/-! DEFINITION. The operand forms of the commands (spec/30_encoding.md R84, R92): a vector register of an expected length,
a row index of G or H, a position inside a vector, a CSR number. The immediates themselves are read in Decode.lean. -/

namespace Sys2Proof.Machine

/-- The length of a vector operand, as a natural number (R21, R204). -/
def State.lenOf (s : State) (i : VIdx) : Nat := (s.V i).len.toNat

/-- The packed bits of a vector operand (R9). -/
def State.bitsOf (s : State) (i : VIdx) : Word := (s.V i).bits

/-- The operand is a message: its length is K (R204). -/
abbrev State.isMessage (s : State) (i : VIdx) : Prop := s.lenOf i = s.K

/-- The operand is a word or a matrix row: its length is N (R204). -/
abbrev State.isWord (s : State) (i : VIdx) : Prop := s.lenOf i = s.N

/-- The operand is a syndrome: its length is N − K (R204). -/
abbrev State.isSyndrome (s : State) (i : VIdx) : Prop := s.lenOf i = s.R

/-- The index names a row of G: row < K (R65). -/
abbrev State.isGRow (s : State) (row : Nat) : Prop := row < s.K

/-- The index names a row of H: row < N − K (R65). -/
abbrev State.isHRow (s : State) (row : Nat) : Prop := row < s.R

/-- The position is inside the vector (R127, R209). -/
abbrev State.isPosition (s : State) (i : VIdx) (pos : Nat) : Prop := pos < s.lenOf i

/-- The value ID reads, always (R30). -/
def idValue : Word := 0x47463243#32

/-- The value CAP reads: NMAX | (RMAX << 8) | (NV << 16), NV = 8 (R38). -/
def capValue (c : Config) : Word :=
  BitVec.ofNat 32 c.nmax ||| (BitVec.ofNat 32 c.rmax <<< 8) ||| (8#32 <<< 16)

/-- The value of CSR number `csr`, zero-extended to 32 bits, or `none` for a reserved number 0x0A..0xFF (R25, R30 to R38,
R90). Reading has no side effect. -/
def State.csr (s : State) (csr : Nat) : Option Word :=
  match csr with
  | 0x00 => some idValue
  | 0x01 => some (capValue s.cfg)
  | 0x02 => some (s.n.setWidth 32)
  | 0x03 => some (s.k.setWidth 32)
  | 0x04 => some (BitVec.ofNat 32 s.R)
  | 0x05 => some s.status
  | 0x06 => some (s.err.setWidth 32)
  | 0x07 => some (s.w.setWidth 32)
  | 0x08 => some (s.tcount.setWidth 32)
  | 0x09 => some s.errcmd
  | _ => none

end Sys2Proof.Machine
end

