-- ==== Sys2Proof/Machine/Configuration.lean ====
section
/-! DEFINITION. The meanings of SETDIM and CSRR (spec/40_config_and_data_movement.md R101, R102). -/

namespace Sys2Proof.Machine

/-- SETDIM n, k (R101). -/
def execSetdim (n k : Nat) (s : State) : Result :=
  if ¬(0 < k ∧ k < n) then s.raise .invalidDimensions
  else if s.cfg.nmax < n ∨ s.cfg.rmax < n - k then s.raise .sizeLimit
  else (s.setDims n k).zeroG.invalidateH.respond 0

/-- CSRR csr (R102). -/
def execCsrr (csr : Nat) (s : State) : Result :=
  match s.csr csr with
  | none => s.raise .illegalCommand
  | some d => s.respondKeepingErr d

end Sys2Proof.Machine
end

