-- ==== Sys2Proof/Machine/CosetTable.lean ====
section
/-! DEFINITION. The coset-leader table: the enumeration order (spec/43_coset_leader_table.md R162), the builder (R163) and
the meanings of TBUILD and TLK (R164, R165). -/

namespace Sys2Proof.Machine

/-- The increasing lists of w positions among lo, lo+1, …, lo+m−1, in lexicographic order: first those that start with lo,
then those that do not contain it (R162). Log entry 8. -/
def combinationsFrom : (m lo w : Nat) → List (List Nat)
  | _, _, 0 => [[]]
  | 0, _, _ + 1 => []
  | m + 1, lo, w + 1 =>
    (combinationsFrom m (lo + 1) w).map (fun c => lo :: c) ++ combinationsFrom m (lo + 1) (w + 1)

/-- The position lists of weight w over positions 0..n−1, in the order of R162. -/
def combinations (n w : Nat) : List (List Nat) := combinationsFrom n 0 w

/-- pattern(c): bits = Σ over t of (1 << c[t]) (R162). -/
def patternBits : List Nat → Word
  | [] => 0
  | c :: cs => oneAt c ||| patternBits cs

/-- The patterns of weight w over n positions, in the order of R162. -/
def patterns (n w : Nat) : List Word := (combinations n w).map patternBits

/-- What the table builder carries (R163): the table and the running count of assigned slots. -/
structure Builder where
  table : SlotMem
  count : Nat
deriving DecidableEq, Repr

/-- The weight of a slot for comparisons; an unassigned slot counts as n + 1 (R63, R163). -/
def slotWeight (n : Nat) (e : Option Leader) : Nat :=
  match e with
  | none => n + 1
  | some l => l.wt.toNat

/-- One candidate pattern p of weight w (R163): if the target slot's weight is still greater than w, assign it, and count it
if it was unassigned. -/
def visit (n r : Nat) (h : RowMem) (w : Nat) (b : Builder) (p : Word) : Builder :=
  let x := (syndrome h p r).toNat
  let e := b.table.read x
  if w < slotWeight n e then
    { table := b.table.write x { wt := BitVec.ofNat 6 w, pat := p }
      count := if e = none then b.count + 1 else b.count }
  else b

/-- All patterns of weight w, in order (R163). -/
def visitClass (n r : Nat) (h : RowMem) (w : Nat) (b : Builder) : Builder :=
  (patterns n w).foldl (visit n r h w) b

/-- The loop `while w <= N and count < 2^(N−K)` of R163, with `left` = the number of weights w, w+1, …, N still to come. -/
def buildLoop (n r : Nat) (h : RowMem) : (left w : Nat) → Builder → Builder
  | 0, _, b => b
  | left + 1, w, b =>
    if b.count < 2 ^ r then buildLoop n r h left (w + 1) (visitClass n r h w b) else b

/-- build_table(N, K, H) with r = N − K (R163). -/
def buildTable (n r : Nat) (h : RowMem) : Builder :=
  buildLoop n r h (n + 1) 0 { table := SlotMem.empty, count := 0 }

/-- TBUILD (R164). Slots at 2^(N−K) and above are left unassigned: the builder starts from the empty table. -/
def execTbuild (s : State) : Result :=
  if ¬s.DIMV then s.raise .invalidDimensions
  else if s.hv = false then s.raise .invalidMatrix
  else
    let b := buildTable s.N s.R s.hmem
    (s.setTable b.table b.count).respond 0

/-- TLK vd, vs (R165). -/
def execTlk (vd vs : VIdx) (s : State) : Result :=
  if ¬s.DIMV then s.raise .invalidDimensions
  else if ¬s.isSyndrome vs then s.raise .inputLengthMismatch
  else
    match s.T (s.bitsOf vs).toNat with
    | none => s.raise .decodeError
    | some e => ((s.setV vd s.n e.pat).setW e.wt).respond 0

end Sys2Proof.Machine
end

