-- ==== Sys2Proof/Machine/DataMovement.lean ====
section
/-! DEFINITION. The meanings of VLD, VST, VLEN, GWR, GRD, HWR and HRD (spec/40_config_and_data_movement.md R103 to R109). -/

namespace Sys2Proof.Machine

/-- VLD vd, len <- DIN (R103): bits of DIN at positions len and above are discarded. -/
def execVld (vd : VIdx) (len : Nat) (s : State) : Result :=
  if s.cfg.nmax < len then s.raise .sizeLimit
  else (s.setV vd (BitVec.ofNat 6 len) (s.din &&& mask len)).respond 0

/-- VST vs (R104). -/
def execVst (vs : VIdx) (s : State) : Result := s.respond (s.bitsOf vs)

/-- VLEN vs (R105). -/
def execVlen (vs : VIdx) (s : State) : Result := s.respond ((s.V vs).len.setWidth 32)

/-- GWR row, vs (R106). -/
def execGwr (row : Nat) (vs : VIdx) (s : State) : Result :=
  if ¬s.DIMV then s.raise .invalidDimensions
  else if ¬s.isGRow row then s.raise .indexRange
  else if ¬s.isWord vs then s.raise .inputLengthMismatch
  else (s.setG row (s.bitsOf vs)).invalidateH.respond 0

/-- GRD vd, row (R107). -/
def execGrd (vd : VIdx) (row : Nat) (s : State) : Result :=
  if ¬s.DIMV then s.raise .invalidDimensions
  else if ¬s.isGRow row then s.raise .indexRange
  else (s.setV vd s.n (s.G row)).respond 0

/-- HWR row, vs (R108). -/
def execHwr (row : Nat) (vs : VIdx) (s : State) : Result :=
  if ¬s.DIMV then s.raise .invalidDimensions
  else if ¬s.isHRow row then s.raise .indexRange
  else if ¬s.isWord vs then s.raise .inputLengthMismatch
  else (s.setH row (s.bitsOf vs)).invalidateT.respond 0

/-- HRD vd, row (R109). -/
def execHrd (vd : VIdx) (row : Nat) (s : State) : Result :=
  if ¬s.DIMV then s.raise .invalidDimensions
  else if ¬s.isHRow row then s.raise .indexRange
  else if s.hv = false then s.raise .invalidMatrix
  else (s.setV vd s.n (s.H row)).respond 0

end Sys2Proof.Machine
end

