-- ==== Sys2Proof/Machine/Decoders.lean ====
section
/-! DEFINITION. The meanings of DEC, DECI and MSG (spec/44_decoders.md R180 to R183). -/

namespace Sys2Proof.Machine

/-- T[syndrome(H, x).bits]: the slot of a word's syndrome (R123, R161). -/
def State.slotOf (s : State) (x : Word) : Option Leader := s.T (syndrome s.hmem x s.R).toNat

/-- DEC vd, vs (R181): the zero-syndrome test comes before the lookup. -/
def execDec (vd vs : VIdx) (s : State) : Result :=
  if ¬s.DIMV then s.raise .invalidDimensions
  else if s.hv = false then s.raise .invalidMatrix
  else if ¬s.isWord vs then s.raise .inputLengthMismatch
  else if syndrome s.hmem (s.bitsOf vs) s.R = 0 then
    ((s.setV vd s.n (s.bitsOf vs)).setW 0).respond 0
  else
    match s.slotOf (s.bitsOf vs) with
    | none => s.raise .decodeError
    | some e => ((s.setV vd s.n (s.bitsOf vs ^^^ e.pat)).setW e.wt).respond 0

/-- The pass of R182 over `left` positions i, i+1, …: the word and the weight it ends with, or `none` when a slot it needs is
unassigned. The stop test w = 0 comes before each trial flip; the comparison is strict. -/
def greedyPass (s : State) : (left i : Nat) → (cur : Word) → (w : BitVec 6) → Option (Word × BitVec 6)
  | 0, _, cur, w => some (cur, w)
  | left + 1, i, cur, w =>
    if w = 0 then some (cur, w)
    else
      match s.slotOf (cur ^^^ oneAt i) with
      | none => none
      | some e =>
        if e.wt < w then greedyPass s left (i + 1) (cur ^^^ oneAt i) e.wt
        else greedyPass s left (i + 1) cur w

/-- The greedy decoder on a received word: the initial lookup, also for a zero syndrome, then the pass (R182). -/
def greedyDecode (s : State) (r : Word) : Option (Word × BitVec 6) :=
  match s.slotOf r with
  | none => none
  | some e => greedyPass s s.N 0 r e.wt

/-- DECI vd, vs (R182). -/
def execDeci (vd vs : VIdx) (s : State) : Result :=
  if ¬s.DIMV then s.raise .invalidDimensions
  else if s.hv = false then s.raise .invalidMatrix
  else if ¬s.isWord vs then s.raise .inputLengthMismatch
  else
    match greedyDecode s (s.bitsOf vs) with
    | none => s.raise .decodeError
    | some r => ((s.setV vd s.n r.1).setW r.2).respond 0

/-- MSG vd, vs (R183). -/
def execMsg (vd vs : VIdx) (s : State) : Result :=
  if ¬s.DIMV then s.raise .invalidDimensions
  else if ¬s.isWord vs then s.raise .inputLengthMismatch
  else (s.setV vd s.k (s.bitsOf vs &&& mask s.K)).respond 0

end Sys2Proof.Machine
end

