-- ==== Sys2Proof/Machine/MatrixAlgebra.lean ====
section
/-! DEFINITION. The meanings of VXOR, VFLIP, VWT, VDOT, ENC, SYND and MCHK (spec/41_matrix_algebra.md R126 to R132). -/

namespace Sys2Proof.Machine

/-- VXOR vd, vs1, vs2 (R126). -/
def execVxor (vd vs1 vs2 : VIdx) (s : State) : Result :=
  if s.lenOf vs1 ≠ s.lenOf vs2 then s.raise .inputLengthMismatch
  else (s.setV vd (s.V vs1).len (s.bitsOf vs1 ^^^ s.bitsOf vs2)).respond 0

/-- VFLIP vd, vs, pos (R127). -/
def execVflip (vd vs : VIdx) (pos : Nat) (s : State) : Result :=
  if ¬s.isPosition vs pos then s.raise .indexRange
  else (s.setV vd (s.V vs).len (s.bitsOf vs ^^^ oneAt pos)).respond 0

/-- VWT vs (R128). -/
def execVwt (vs : VIdx) (s : State) : Result :=
  (s.setW (BitVec.ofNat 6 (weight (s.bitsOf vs)))).respond 0

/-- VDOT vs1, vs2 (R129). -/
def execVdot (vs1 vs2 : VIdx) (s : State) : Result :=
  if s.lenOf vs1 ≠ s.lenOf vs2 then s.raise .inputLengthMismatch
  else (s.setW (BitVec.ofNat 6 (dot (s.bitsOf vs1) (s.bitsOf vs2)).toNat)).respond 0

/-- ENC vd, vs (R130). -/
def execEnc (vd vs : VIdx) (s : State) : Result :=
  if ¬s.DIMV then s.raise .invalidDimensions
  else if ¬s.isMessage vs then s.raise .inputLengthMismatch
  else (s.setV vd s.n (encodeMessage s.gmem (s.bitsOf vs) s.K)).respond 0

/-- SYND vd, vs (R131). -/
def execSynd (vd vs : VIdx) (s : State) : Result :=
  if ¬s.DIMV then s.raise .invalidDimensions
  else if s.hv = false then s.raise .invalidMatrix
  else if ¬s.isWord vs then s.raise .inputLengthMismatch
  else
    let syn := syndrome s.hmem (s.bitsOf vs) s.R
    ((s.setV vd (BitVec.ofNat 6 s.R) syn).setZ (zeroFlag syn)).respond 0

/-- MCHK (R132). -/
def execMchk (s : State) : Result :=
  if ¬s.DIMV then s.raise .invalidDimensions
  else if s.hv = false then s.raise .invalidMatrix
  else (s.setOrth (orthogonal s.gmem s.hmem s.K s.R)).respond 0

end Sys2Proof.Machine
end

