-- ==== Sys2Proof/Machine/ParityCheck.lean ====
section
/-! DEFINITION. The meaning of BUILDH (spec/42_parity_check.md R151). -/

namespace Sys2Proof.Machine

/-- BUILDH (R151). -/
def execBuildh (s : State) : Result :=
  if ¬s.DIMV then s.raise .invalidDimensions
  else if standardForm s.gmem s.K = false then s.raise .invalidMatrix
  else (s.invalidateT.setHmem (buildParityCheck s.gmem s.K s.hmem s.R)).respond 0

end Sys2Proof.Machine
end

