-- ==== Sys2Proof/Machine/Dispatch.lean ====
section
/-! DEFINITION. One arm per command: its meaning (spec/30_encoding.md R85, R86 "perform the command's rule"). -/

namespace Sys2Proof.Machine

def exec (i : Instr) (s : State) : Host.Outcome State Fault Refusal :=
  match i with
  | .setdim n k => Sys2Proof.Machine.execSetdim n k s
  | .csrr csr => Sys2Proof.Machine.execCsrr csr s
  | .vld vd len => Sys2Proof.Machine.execVld vd len s
  | .vst vs => Sys2Proof.Machine.execVst vs s
  | .vlen vs => Sys2Proof.Machine.execVlen vs s
  | .vxor vd vs1 vs2 => Sys2Proof.Machine.execVxor vd vs1 vs2 s
  | .vflip vd vs pos => Sys2Proof.Machine.execVflip vd vs pos s
  | .vwt vs => Sys2Proof.Machine.execVwt vs s
  | .vdot vs1 vs2 => Sys2Proof.Machine.execVdot vs1 vs2 s
  | .gwr row vs => Sys2Proof.Machine.execGwr row vs s
  | .grd vd row => Sys2Proof.Machine.execGrd vd row s
  | .hwr row vs => Sys2Proof.Machine.execHwr row vs s
  | .hrd vd row => Sys2Proof.Machine.execHrd vd row s
  | .enc vd vs => Sys2Proof.Machine.execEnc vd vs s
  | .synd vd vs => Sys2Proof.Machine.execSynd vd vs s
  | .buildh => Sys2Proof.Machine.execBuildh s
  | .mchk => Sys2Proof.Machine.execMchk s
  | .tbuild => Sys2Proof.Machine.execTbuild s
  | .tlk vd vs => Sys2Proof.Machine.execTlk vd vs s
  | .dec vd vs => Sys2Proof.Machine.execDec vd vs s
  | .deci vd vs => Sys2Proof.Machine.execDeci vd vs s
  | .msg vd vs => Sys2Proof.Machine.execMsg vd vs s

end Sys2Proof.Machine
end

