-- ==== Sys2Proof/Machine/Step.lean ====
section
/-! DEFINITION. One step: the core takes the host's oldest pending event (spec/00_scope.md R5; spec/70_reset_and_hazards.md
R230, R238, R239). -/

namespace Sys2Proof.Machine

/-- Perform the current command (R86): decode its word; a word that is no command raises IllegalCommand. -/
def perform (s : State) : Result :=
  match decode s.cmd with
  | .error _ => s.raise .illegalCommand
  | .ok i => exec i s

/-- One step. A pending command is accepted and performed completely; a pending reset takes place; with nothing pending the
core waits, which "has no architectural effect and all state is kept" (R225; log entry 3). -/
def step (s : State) : Host.Outcome State Fault Refusal :=
  match s.host with
  | [] => .next s
  | .command cmd din :: rest => perform (s.accept cmd din rest)
  | .reset :: rest => .next (s.resetEvent rest)

/-- `s` with the instruction of spec/opcode_table.json whose bits are `w` as the host's next event, with DIN = 0: the core has
no program counter and stores no program (R22), the host presents each command (log entries 12, 14). -/
def State.withFetchWord (s : State) (nbits w : Nat) : State :=
  { s with host := .command (tableWord nbits w) 0 :: s.host }

end Sys2Proof.Machine
end

