-- ==== Sys2Proof/Safety.lean ====
section
/-! DEFINITION. What claims about GF2CORE are stated in: the invariants the spec promises between commands
(spec/10_state.md R42), how a command ends (spec/60_exceptions.md R210), the spec's own tables, and plain arithmetic on bits that
does not mention the machine's functions. -/

namespace Sys2Proof.Machine

/-! ### The invariant between commands (R42) -/

/-- R42 item by item, with the constraints on the configuration (R6) and the canonical form of the memories. -/
structure State.Inv (s : State) : Prop where
  /-- R6. -/
  cfg_valid : s.cfg.Valid
  /-- Canonical form of the three memories. -/
  mem_wf : s.gmem.wf ∧ s.hmem.wf ∧ s.tmem.wf
  /-- R42 item 1 (R21). -/
  vectors : ∀ i : VIdx, (s.V i).len.toNat ≤ s.cfg.nmax ∧ (s.V i).bits &&& ~~~mask (s.V i).len.toNat = 0
  /-- R42 item 2 (R31). -/
  dims : (s.N = 0 ∧ s.K = 0) ∨ (0 < s.K ∧ s.K < s.N ∧ s.N ≤ s.cfg.nmax ∧ s.N - s.K ≤ s.cfg.rmax)
  /-- R42 item 3, rows of G. -/
  g_rows : ∀ j, s.G j &&& ~~~mask s.N = 0 ∧ (s.K ≤ j → s.G j = 0)
  /-- R42 item 3, rows of H. -/
  h_rows : ∀ i, s.H i &&& ~~~mask s.N = 0 ∧ (s.R ≤ i → s.H i = 0)
  /-- R42 item 4. -/
  h_absent : s.hv = false → (∀ i, s.H i = 0) ∧ s.tb = false
  /-- R42 item 5. -/
  t_absent : s.tb = false → (∀ x, s.T x = none) ∧ s.tcount = 0
  /-- R42 item 6: the table is exactly what R163 computes from the present N, K and H. -/
  t_built : s.tb = true → s.hv = true ∧ s.tmem = (buildTable s.N s.R s.hmem).table
  /-- R42 item 7: the assigned slots are the listed ones. -/
  t_count : s.tcount.toNat = s.tmem.length
  /-- R42 item 8. -/
  unconfigured : s.N = 0 → s.hv = false ∧ s.tb = false ∧ ∀ j, s.G j = 0
  /-- R42 item 9. -/
  err_le : s.err.toNat ≤ 9

/-! ### How a command ends (R100, R210) -/

/-- The command fails with this code: ERR and ERRCMD are written, the response is (code, 0), nothing else changes (R210). -/
def Fails (i : Instr) (s : State) (code : BitVec 4) : Prop :=
  exec i s = .next { s with err := code, errcmd := s.cmd, response := some { errcode := code, dout := 0 } }

/-- The command succeeds with this DOUT and leaves the state `t`, but for ERR, which is 0, and the response (R100). -/
def Succeeds (i : Instr) (s : State) (dout : Word) (t : State) : Prop :=
  exec i s = .next { t with err := 0, response := some { errcode := 0, dout := dout } }

/-- A state that answers a success. -/
def State.succeeded (t : State) : Prop := ∃ d, t.response = some { errcode := 0, dout := d }

/-! ### Bits, sums and weights, without the machine's own functions -/

/-- Bit i of a word, position i of a vector, column i of a matrix row (R9, R11). -/
abbrev bit (x : Word) (i : Nat) : Bool := x.getLsbD i

/-- A sum of the bits f 0, …, f (n−1) mod 2: "their XOR, which is 1 iff an odd number of them are 1" (R120). -/
def sumMod2 (n : Nat) (f : Nat → Bool) : Bool :=
  decide (((Finset.range n).filter (fun j => f j = true)).card % 2 = 1)

/-- The number of one positions of a word (R15 "count of non-zero symbols in a vector"). -/
def ones (x : Word) : Nat := ((Finset.range 32).filter (fun i => bit x i = true)).card

/-- x is a vector of length n: no bit at or above n (R9). -/
def IsVector (n : Nat) (x : Word) : Prop := ∀ i, n ≤ i → bit x i = false

/-- c is m·G for the k rows of g: cᵢ = Σⱼ mⱼ·G[j][i] mod 2 (R122). -/
def IsProduct (k : Nat) (g : Nat → Word) (m c : Word) : Prop :=
  ∀ i, i < 32 → bit c i = sumMod2 k (fun j => bit m j && bit (g j) i)

/-- x is the syndrome of v: sᵢ = XORⱼ (H[i][j] AND v[j]), j over n positions, i over r rows, and no bit above (R123). -/
def IsSyndrome (n r : Nat) (h : Nat → Word) (v x : Word) : Prop :=
  ∀ i, i < 32 → bit x i = (decide (i < r) && sumMod2 n (fun j => bit (h i) j && bit v j))

/-- G·Hᵗ = 0 over k, r rows and n columns (R125). -/
def IsOrthogonal (n k r : Nat) (g h : Nat → Word) : Prop :=
  ∀ j i, j < k → i < r → sumMod2 n (fun c => bit (g j) c && bit (h i) c) = false

/-- G = [I_k | P] (R17): G[j][i] = 1 if i = j else 0, j < k, i < k. -/
def IsStandard (k : Nat) (g : Nat → Word) : Prop :=
  ∀ j i, j < k → i < k → bit (g j) i = decide (i = j)

/-- The k rows of g are independent (R133 item 5): no combination of them but the empty one is the zero row. -/
def IndependentRows (k : Nat) (g : Nat → Word) : Prop := ∀ m, IsVector k m → IsProduct k g m 0 → m = 0

/-- e is what the slot of the syndrome of v holds in state s (R123, R161, R163). -/
def SlotOf (s : State) (v : Word) (e : Option Leader) : Prop :=
  ∃ x, IsSyndrome s.N s.R s.H v x ∧ s.T x.toNat = e

/-- The run of the greedy decoder on r (R182): cur i and w i are the current word and weight when position i is reached. The
initial slot and every trial slot are assigned; once w = 0 nothing changes; a flip is kept iff it lowers the weight strictly. -/
def GreedyTrace (s : State) (r : Word) (cur : Nat → Word) (w : Nat → BitVec 6) : Prop :=
  cur 0 = r ∧ (∃ e, SlotOf s r (some e) ∧ w 0 = e.wt) ∧
    ∀ i, i < s.N →
      (w i = 0 → cur (i + 1) = cur i ∧ w (i + 1) = w i) ∧
      (w i ≠ 0 → ∃ e, SlotOf s (cur i ^^^ oneAt i) (some e) ∧
        (e.wt.toNat < (w i).toNat → cur (i + 1) = cur i ^^^ oneAt i ∧ w (i + 1) = e.wt) ∧
        ((w i).toNat ≤ e.wt.toNat → cur (i + 1) = cur i ∧ w (i + 1) = w i))

/-! ### The enumeration order as R162 writes it -/

/-- first(w): c[t] <- t for t in 0 .. w−1 (R162). -/
def firstCombination (w : Nat) : List Nat := List.range w

/-- The search of next(c, n, w): from index t−1 down, the largest index whose entry is not n − w + t (R162). -/
def lastMovable (c : List Nat) (n w : Nat) : Nat → Option Nat
  | 0 => none
  | t + 1 => if c.getD t 0 = n - w + t then lastMovable c n w t else some t

/-- next(c, n, w): c[t] <- c[t] + 1, then c[u] <- c[u−1] + 1 for u above t (R162). -/
def nextCombination (c : List Nat) (n w : Nat) : Option (List Nat) :=
  match lastMovable c n w w with
  | none => none
  | some t => some (c.take t ++ (List.range (w - t)).map (fun u => c.getD t 0 + 1 + u))

/-! ### The STATUS register (R33) -/

/-- d is what STATUS reads in state s, bit by bit (R33). -/
def IsStatus (s : State) (d : Word) : Prop :=
  (bit d 0 = true ↔ 0 < s.K ∧ s.K < s.N) ∧
  (bit d 1 = true ↔ (0 < s.K ∧ s.K < s.N) ∧ ∀ j, j < s.K → s.G j &&& mask s.K = 1#32 <<< j) ∧
  bit d 2 = s.hv ∧ bit d 3 = s.tb ∧
  (bit d 4 = true ↔ s.tb = true ∧ s.tcount.toNat = 2 ^ (s.N - s.K)) ∧
  bit d 5 = s.z ∧ bit d 6 = s.orth ∧ ∀ i, 7 ≤ i → bit d i = false

/-! ### The opcode map of R85 -/

/-- A row of R85: mnemonic, match, mask. -/
structure OpcodeRow where
  mnemonic : String
  mtch : Word
  mask : Word
deriving DecidableEq, Repr

/-- R85, row by row. -/
def opcodeMap : List OpcodeRow := [
  { mnemonic := "SETDIM", mtch := 0x01000000, mask := 0xFFFF0000 },
  { mnemonic := "CSRR",   mtch := 0x02000000, mask := 0xFFFFFF00 },
  { mnemonic := "VLD",    mtch := 0x10000000, mask := 0xFF1FFF00 },
  { mnemonic := "VST",    mtch := 0x11000000, mask := 0xFFE3FFFF },
  { mnemonic := "VLEN",   mtch := 0x12000000, mask := 0xFFE3FFFF },
  { mnemonic := "VXOR",   mtch := 0x13000000, mask := 0xFF007FFF },
  { mnemonic := "VFLIP",  mtch := 0x14000000, mask := 0xFF03FF00 },
  { mnemonic := "VWT",    mtch := 0x15000000, mask := 0xFFE3FFFF },
  { mnemonic := "VDOT",   mtch := 0x16000000, mask := 0xFFE07FFF },
  { mnemonic := "GWR",    mtch := 0x20000000, mask := 0xFFE3FF00 },
  { mnemonic := "GRD",    mtch := 0x21000000, mask := 0xFF1FFF00 },
  { mnemonic := "HWR",    mtch := 0x22000000, mask := 0xFFE3FF00 },
  { mnemonic := "HRD",    mtch := 0x23000000, mask := 0xFF1FFF00 },
  { mnemonic := "ENC",    mtch := 0x30000000, mask := 0xFF03FFFF },
  { mnemonic := "SYND",   mtch := 0x31000000, mask := 0xFF03FFFF },
  { mnemonic := "BUILDH", mtch := 0x32000000, mask := 0xFFFFFFFF },
  { mnemonic := "MCHK",   mtch := 0x33000000, mask := 0xFFFFFFFF },
  { mnemonic := "TBUILD", mtch := 0x40000000, mask := 0xFFFFFFFF },
  { mnemonic := "TLK",    mtch := 0x41000000, mask := 0xFF03FFFF },
  { mnemonic := "DEC",    mtch := 0x50000000, mask := 0xFF03FFFF },
  { mnemonic := "DECI",   mtch := 0x51000000, mask := 0xFF03FFFF },
  { mnemonic := "MSG",    mtch := 0x52000000, mask := 0xFF03FFFF }]

/-! ### The order of patterns and the leader of a syndrome (R160, R162) -/

/-- p comes before q among patterns of one weight: at the first position where they differ, p has the one. This is R162's
"equivalent description": strings of bits from position 0 on, in descending order as binary numerals. -/
def Before (p q : Word) : Prop :=
  ∃ i, bit p i = true ∧ bit q i = false ∧ ∀ j, j < i → bit p j = bit q j

/-- p is the leader of syndrome x (R160): a pattern of length n with that syndrome, of least weight, and among those of least
weight the first in the order of R162. -/
def IsLeader (n r : Nat) (h : Nat → Word) (x p : Word) : Prop :=
  IsVector n p ∧ IsSyndrome n r h p x ∧
    ∀ q, IsVector n q → IsSyndrome n r h q x → ones p < ones q ∨ (ones p = ones q ∧ (q = p ∨ Before p q))

end Sys2Proof.Machine

namespace Sys2Proof

open Sys2Proof.Machine

/-! ### The conditions of R211, in its order (R201, R202, R204 to R209) -/

/-- IllegalCommand: a reserved CSR number (R208, R90). -/
def Instr.reservedCsr : Instr → Prop
  | .csrr csr => 0x09 < csr
  | _ => False

/-- InvalidDimensions of SETDIM: not 0 < k < n (R202). -/
def Instr.badDims : Instr → Prop
  | .setdim n k => ¬(0 < k ∧ k < n)
  | _ => False

/-- SizeLimit: SETDIM beyond NMAX or RMAX, VLD length above NMAX (R207). -/
def Instr.tooLarge (i : Instr) (s : State) : Prop :=
  match i with
  | .setdim n k => s.cfg.nmax < n ∨ s.cfg.rmax < n - k
  | .vld _ len => s.cfg.nmax < len
  | _ => False

/-- The commands that need the dimensions (R201, R202). -/
def Instr.needsDims : Instr → Prop
  | .gwr _ _ | .grd _ _ | .hwr _ _ | .hrd _ _ | .enc _ _ | .synd _ _ | .buildh | .mchk | .tbuild | .tlk _ _
  | .dec _ _ | .deci _ _ | .msg _ _ => True
  | _ => False

/-- IndexRange: a position or a row index outside its range (R209). -/
def Instr.badIndex (i : Instr) (s : State) : Prop :=
  match i with
  | .vflip _ vs pos => (s.V vs).len.toNat ≤ pos
  | .gwr row _ => s.K ≤ row
  | .grd _ row => s.K ≤ row
  | .hwr row _ => s.N - s.K ≤ row
  | .hrd _ row => s.N - s.K ≤ row
  | _ => False

/-- InvalidMatrix: H is read and absent, or BUILDH finds G not in standard form (R205). -/
def Instr.noMatrix (i : Instr) (s : State) : Prop :=
  match i with
  | .hrd _ _ | .synd _ _ | .mchk | .tbuild | .dec _ _ | .deci _ _ => s.hv = false
  | .buildh => ¬IsStandard s.K s.G
  | _ => False

/-- InputLengthMismatch (R204). -/
def Instr.badLength (i : Instr) (s : State) : Prop :=
  match i with
  | .vxor _ vs1 vs2 => (s.V vs1).len ≠ (s.V vs2).len
  | .vdot vs1 vs2 => (s.V vs1).len ≠ (s.V vs2).len
  | .enc _ vs => (s.V vs).len.toNat ≠ s.K
  | .gwr _ vs | .hwr _ vs | .synd _ vs | .dec _ vs | .deci _ vs | .msg _ vs => (s.V vs).len.toNat ≠ s.N
  | .tlk _ vs => (s.V vs).len.toNat ≠ s.N - s.K
  | _ => False

/-- DecodeError: a slot the command reads is unassigned (R206): the addressed slot for TLK; the slot of a nonzero syndrome for
DEC; a slot of the initial lookup or of a trial of the pass of R182 for DECI. -/
def Instr.noSlot (i : Instr) (s : State) : Prop :=
  match i with
  | .tlk _ vs => s.T (s.V vs).bits.toNat = none
  | .dec _ vs => ∃ x, IsSyndrome s.N s.R s.H (s.V vs).bits x ∧ x ≠ 0 ∧ s.T x.toNat = none
  | .deci _ vs => ¬∃ cur w, GreedyTrace s (s.V vs).bits cur w
  | _ => False

end Sys2Proof
end

