-- ==== Sys2Proof/Certificates/Slice0/Obligations.lean ====
section
/-! DEFINITION. The statements for the provers. Each docstring names the rule of spec/ it formalises. The vocabulary (how a
command ends, bits and sums, the invariant) is in Safety.lean. Claims are about every instance: `cfg` is arbitrary unless a
premise says that it meets R6. -/

open Sys2Proof Sys2Proof.Machine

/-! ## Encoding -/

/-- R80 to R86, R92. Every well-formed command is what its own word decodes to: no bit of an operand is dropped. -/
def Obligations.DecodeInvertsEncode : Prop :=
  ∀ i : Instr, i.WellFormed → decode (encode i) = .ok i

/-- R86, R87. A word that decodes to a command is that command's word, every reserved and unused field being zero. -/
def Obligations.EncodeInvertsDecode : Prop :=
  ∀ (cmd : Word) (i : Instr), decode cmd = .ok i → i.WellFormed ∧ encode i = cmd

/-- R85. A word is a command iff its (match, mask) test holds; the 22 pairs exclude each other. -/
def Obligations.DecodeFollowsOpcodeMap : Prop :=
  (∀ (cmd : Word) (row : OpcodeRow), row ∈ opcodeMap →
    ((cmd &&& row.mask = row.mtch) ↔ ∃ i, decode cmd = .ok i ∧ i.mnemonic = row.mnemonic)) ∧
  (∀ (cmd : Word) (i : Instr), decode cmd = .ok i →
    ∃ row ∈ opcodeMap, i.mnemonic = row.mnemonic ∧ ∀ other ∈ opcodeMap, cmd &&& other.mask = other.mtch → other = row)

/-- R81, R82, R85, R92 on words written out in spec/95_test_vectors.md 2.1 and R92. -/
def Obligations.SpecWordsDecodeAsPrinted : Prop :=
  decode 0x01000502 = .ok (.setdim 5 2) ∧ decode 0x10000005 = .ok (.vld 0 5) ∧
  decode 0x20000001 = .ok (.gwr 1 0) ∧ decode 0x30680000 = .ok (.enc 3 2) ∧
  decode 0x13F58000 = .ok (.vxor 7 5 3) ∧ decode 0x148C0000 = .ok (.vflip 4 3 0) ∧
  decode 0x160E8000 = .ok (.vdot 3 5) ∧ decode 0x52F80000 = .ok (.msg 7 6) ∧
  decode 0x40000000 = .ok .tbuild ∧ decode 0x50D00000 = .ok (.dec 6 4) ∧
  decode 0x00000000 = .error .unknownOpcode ∧ decode 0x01010502 = .error .nonzeroReserved ∧
  decode 0x13654000 = .error .nonzeroReserved ∧ decode 0x16E40000 = .error .nonzeroReserved

/-! ## A step -/

/-- R5, R86, R225, R230, R239. A step takes the host's oldest event: a word that decodes to i runs i with that word as CMD and
the data word as DIN; a reset resets; with nothing pending nothing changes. The fields that hold the words, the events and the
response, and their values after a reset, are the model's own (log entries 2 to 5, 13). -/
def Obligations.StepTakesTheOldestEvent : Prop :=
  ∀ s : State,
    (∀ cmd din rest i, s.host = .command cmd din :: rest → decode cmd = .ok i →
      step s = exec i { s with cmd := cmd, din := din, host := rest }) ∧
    (∀ rest, s.host = .reset :: rest → step s = .next { State.resetOf s.cfg with host := rest }) ∧
    (s.host = [] → step s = .next s)

/-- R87, R88. A word with an unknown opcode, or a known opcode and a nonzero reserved or unused field, raises IllegalCommand:
ERR = 8, ERRCMD = the word, response (8, 0), and nothing else changes; the all-zero and the all-one word are such words. -/
def Obligations.IllegalWordsRaiseIllegalCommand : Prop :=
  (∀ (s : State) (cmd din : Word) (rest : List HostEvent), s.host = .command cmd din :: rest →
    (∀ row ∈ opcodeMap, cmd &&& row.mask ≠ row.mtch) →
    step s = .next { s with cmd := cmd, din := din, host := rest, err := 8, errcmd := cmd,
                            response := some { errcode := 8, dout := 0 } }) ∧
  (∀ cmd : Word, (∀ row ∈ opcodeMap, row.mtch.extractLsb' 24 8 ≠ cmd.extractLsb' 24 8) →
    ∀ row ∈ opcodeMap, cmd &&& row.mask ≠ row.mtch) ∧
  (∀ row ∈ opcodeMap, (0x00000000 : Word) &&& row.mask ≠ row.mtch ∧ (0xFFFFFFFF : Word) &&& row.mask ≠ row.mtch)

/-- R236, R237, R239. Every state, every word: a step always answers a next state, never a fault or a refusal. -/
def Obligations.EveryStepAnswersANextState : Prop :=
  (∀ s : State, ∃ t, step s = .next t) ∧ (∀ (i : Instr) (s : State), ∃ t, exec i s = .next t)

/-- R231. After the reset event, whatever the state was, and in the state the machine starts in: every piece of state R231 lists
has the value it lists, and CSRR reads the values it lists. -/
def Obligations.ResetEventGivesTheResetState : Prop :=
  ∀ (s : State) (rest : List HostEvent), s.host = .reset :: rest → s.cfg.Valid →
    ∃ t, step s = .next t ∧
      (∀ u, u = t ∨ u = State.reset →
        (∀ i, u.V i = { len := 0, bits := 0 }) ∧ u.n = 0 ∧ u.k = 0 ∧ u.w = 0 ∧
        u.z = false ∧ u.orth = false ∧ u.hv = false ∧ u.tb = false ∧ u.tcount = 0 ∧ u.err = 0 ∧ u.errcmd = 0 ∧
        (∀ j, u.G j = 0) ∧ (∀ i, u.H i = 0) ∧ (∀ x, u.T x = none) ∧
        u.csr 0x00 = some 0x47463243 ∧ (∀ c, 2 ≤ c → c ≤ 9 → u.csr c = some 0)) ∧
      (∃ d, t.csr 0x01 = some d ∧ d.toNat = s.cfg.nmax + 2 ^ 8 * s.cfg.rmax + 2 ^ 16 * 8) ∧
      State.reset.csr 0x01 = some 0x00081020

/-! ## Failures -/

/-- R210, R34, R37, R100. A command that fails with code c changes ERR, ERRCMD and the response and nothing else; one that
succeeds answers code 0, leaves ERRCMD, and writes ERR <- 0, except a CSRR, which leaves ERR. -/
def Obligations.FailureChangesOnlyErrAndErrcmd : Prop :=
  ∀ (i : Instr) (s t : State), exec i s = .next t →
    ∃ r, t.response = some r ∧
      (r.errcode ≠ 0 → r.dout = 0 ∧ r.errcode.toNat ≤ 9 ∧
        t = { s with err := r.errcode, errcmd := s.cmd, response := some r }) ∧
      (r.errcode = 0 → t.errcmd = s.errcmd ∧
        ((∀ c, i ≠ .csrr c) → t.err = 0) ∧ ((∃ c, i = .csrr c) → t = { s with response := some r }))

/-- R203 ("A model of GF2CORE can prove that ERR is never 2 or 3"), U3. -/
def Obligations.CodesTwoAndThreeNeverAppear : Prop :=
  ∀ s t : State, s.err ≠ 2 → s.err ≠ 3 → (∀ r, s.response = some r → r.errcode ≠ 2 ∧ r.errcode ≠ 3) →
    step s = .next t → t.err ≠ 2 ∧ t.err ≠ 3 ∧ ∀ r, t.response = some r → r.errcode ≠ 2 ∧ r.errcode ≠ 3

/-- R211 with R202 and R204 to R209. The failure reported is the first, in the order of R211, whose condition holds: a word that
is no command reports IllegalCommand before anything else; with no condition the command succeeds. -/
def Obligations.FirstFailureInOrderIsReported : Prop :=
  (∀ (s : State) (cmd din : Word) (rest : List HostEvent), s.host = .command cmd din :: rest → (∀ i, decode cmd ≠ .ok i) →
    ∃ t r, step s = .next t ∧ t.response = some r ∧ r.errcode = 8) ∧
  ∀ (i : Instr) (s : State), s.Inv →
    ∃ t r, exec i s = .next t ∧ t.response = some r ∧
      (i.reservedCsr → r.errcode = 8) ∧
      (¬i.reservedCsr → i.badDims → r.errcode = 1) ∧
      (¬i.reservedCsr → ¬i.badDims → i.tooLarge s → r.errcode = 7) ∧
      (¬i.reservedCsr → ¬i.badDims → ¬i.tooLarge s → i.needsDims → ¬s.DIMV → r.errcode = 1) ∧
      (¬i.reservedCsr → ¬i.badDims → ¬i.tooLarge s → (i.needsDims → s.DIMV) → i.badIndex s → r.errcode = 9) ∧
      (¬i.reservedCsr → ¬i.badDims → ¬i.tooLarge s → (i.needsDims → s.DIMV) → ¬i.badIndex s → i.noMatrix s →
        r.errcode = 5) ∧
      (¬i.reservedCsr → ¬i.badDims → ¬i.tooLarge s → (i.needsDims → s.DIMV) → ¬i.badIndex s → ¬i.noMatrix s →
        i.badLength s → r.errcode = 4) ∧
      (¬i.reservedCsr → ¬i.badDims → ¬i.tooLarge s → (i.needsDims → s.DIMV) → ¬i.badIndex s → ¬i.noMatrix s →
        ¬i.badLength s → i.noSlot s → r.errcode = 6) ∧
      (¬i.reservedCsr → ¬i.badDims → ¬i.tooLarge s → (i.needsDims → s.DIMV) → ¬i.badIndex s → ¬i.noMatrix s →
        ¬i.badLength s → ¬i.noSlot s → r.errcode = 0)

/-! ## What changes what (frames over all commands) -/

/-- R60, R40, R63. A row of G changes only by SETDIM or GWR; a row of H only by SETDIM, GWR, HWR or BUILDH; a slot of the table
only by SETDIM, GWR, HWR, BUILDH or TBUILD, and a slot becomes a leader only by TBUILD. -/
def Obligations.MatrixAndTableWriters : Prop :=
  ∀ (i : Instr) (s t : State), exec i s = .next t →
    ((∃ j, t.G j ≠ s.G j) → (∃ n k, i = .setdim n k) ∨ ∃ row vs, i = .gwr row vs) ∧
    ((∃ j, t.H j ≠ s.H j) →
      (∃ n k, i = .setdim n k) ∨ (∃ row vs, i = .gwr row vs) ∨ (∃ row vs, i = .hwr row vs) ∨ i = .buildh) ∧
    ((∃ x, t.T x ≠ s.T x) →
      (∃ n k, i = .setdim n k) ∨ (∃ row vs, i = .gwr row vs) ∨ (∃ row vs, i = .hwr row vs) ∨ i = .buildh ∨ i = .tbuild) ∧
    ((∃ x, t.T x ≠ s.T x ∧ t.T x ≠ none) → i = .tbuild)

/-- R23, R24, R31. W changes only by VWT, VDOT, TLK, DEC, DECI; Z only by SYND; ORTH only by MCHK; N and K only by SETDIM;
HV and TB only by the commands R23 lists. -/
def Obligations.RegisterAndFlagWriters : Prop :=
  ∀ (i : Instr) (s t : State), exec i s = .next t →
    (t.w ≠ s.w → (∃ vs, i = .vwt vs) ∨ (∃ a b, i = .vdot a b) ∨ (∃ vd vs, i = .tlk vd vs) ∨
      (∃ vd vs, i = .dec vd vs) ∨ ∃ vd vs, i = .deci vd vs) ∧
    (t.z ≠ s.z → ∃ vd vs, i = .synd vd vs) ∧
    (t.orth ≠ s.orth → i = .mchk) ∧
    (t.n ≠ s.n ∨ t.k ≠ s.k → ∃ n k, i = .setdim n k) ∧
    (t.hv = true → s.hv = false → i = .buildh ∨ ∃ row vs, i = .hwr row vs) ∧
    (t.hv = false → s.hv = true → (∃ n k, i = .setdim n k) ∨ ∃ row vs, i = .gwr row vs) ∧
    (t.tb = true → s.tb = false → i = .tbuild) ∧
    (t.tb = false → s.tb = true →
      (∃ n k, i = .setdim n k) ∨ (∃ row vs, i = .gwr row vs) ∨ (∃ row vs, i = .hwr row vs) ∨ i = .buildh)

/-- R21. A vector register changes only if it is the field vd of one of the eleven commands that write one. -/
def Obligations.VectorRegisterWriters : Prop :=
  ∀ (i : Instr) (s t : State) (q : VIdx), exec i s = .next t → t.V q ≠ s.V q →
    (∃ len, i = .vld q len) ∨ (∃ a b, i = .vxor q a b) ∨ (∃ a pos, i = .vflip q a pos) ∨ (∃ row, i = .grd q row) ∨
    (∃ row, i = .hrd q row) ∨ (∃ a, i = .enc q a) ∨ (∃ a, i = .synd q a) ∨ (∃ a, i = .tlk q a) ∨
    (∃ a, i = .dec q a) ∨ (∃ a, i = .deci q a) ∨ ∃ a, i = .msg q a

/-- R80, R238, U8. "every other command ignores DIN entirely": but for VLD, the outcome with another DIN is the same outcome
with that DIN. -/
def Obligations.OnlyVldReadsDin : Prop :=
  ∀ (i : Instr) (s t : State) (d : Word), (∀ vd len, i ≠ .vld vd len) → exec i s = .next t →
    exec i { s with din := d } = .next { t with din := d }

/-- R5, R20, R69, R239. A step leaves the configuration and takes exactly the oldest event; a command touches neither the host's
events nor the words presented. The fields `cfg`, `host`, `cmd`, `din` are the model's own (log entries 1, 2, 5). -/
def Obligations.ConfigurationAndPendingEventsKept : Prop :=
  (∀ s t : State, step s = .next t → t.cfg = s.cfg ∧ t.host = s.host.tail) ∧
  (∀ (i : Instr) (s t : State), exec i s = .next t →
    t.cfg = s.cfg ∧ t.host = s.host ∧ t.cmd = s.cmd ∧ t.din = s.din)

/-! ## The invariant -/

/-- R42 "After reset": the invariant holds in the reset state of every instance, the reference instance among them. -/
def Obligations.InvariantHoldsAfterReset : Prop :=
  (∀ c : Config, c.Valid → (State.resetOf c).Inv) ∧ State.reset.Inv

/-- R42 "after every command, successful or failed, all of the following hold": every step keeps the invariant, from every
state that has it. -/
def Obligations.EveryStepKeepsTheInvariant : Prop :=
  ∀ s t : State, s.Inv → step s = .next t → t.Inv

/-- R20, R60. Under the invariant no memory lists an index outside its physical range: GMEM has NMAX−1 rows, HMEM RMAX rows,
TMEM 2^RMAX slots, of which only the 2^(N−K) architectural ones are assigned. -/
def Obligations.MemoriesStayInsideTheirSize : Prop :=
  ∀ s : State, s.Inv →
    (∀ e ∈ s.gmem, e.1 < s.cfg.nmax - 1) ∧ (∀ e ∈ s.hmem, e.1 < s.cfg.rmax) ∧
    (∀ e ∈ s.tmem, e.1 < 2 ^ (s.N - s.K) ∧ e.1 < 2 ^ s.cfg.rmax)

/-! ## The 22 commands: encoding, failures, effect, frame -/

/-- R101. -/
def Obligations.SetdimSetsDimensionsAndClears : Prop :=
  (∀ n k, encode (.setdim n k) = formatD 0x01 n k) ∧ encode (.setdim 5 2) = 0x01000502 ∧
  ∀ (n k : Nat) (s : State),
    (¬(0 < k ∧ k < n) → Fails (.setdim n k) s 1) ∧
    (0 < k → k < n → s.cfg.nmax < n ∨ s.cfg.rmax < n - k → Fails (.setdim n k) s 7) ∧
    (s.cfg.Valid → 0 < k → k < n → n ≤ s.cfg.nmax → n - k ≤ s.cfg.rmax →
      ∃ t, Succeeds (.setdim n k) s 0 t ∧ t.N = n ∧ t.K = k ∧
        (∀ j, t.G j = 0) ∧ (∀ i, t.H i = 0) ∧ (∀ x, t.T x = none) ∧
        t = { s with n := t.n, k := t.k, gmem := t.gmem, hmem := t.hmem, tmem := t.tmem,
                     hv := false, tb := false, tcount := 0 } ∧
        (∀ i, i < 32 → bit t.status i =
          (decide (i = 0) || (decide (i = 5) && s.z) || (decide (i = 6) && s.orth))))

/-- R102, R90, with the values of R30 to R38. The last clause: CSRR is the only successful command that leaves ERR. -/
def Obligations.CsrrReturnsTheRegister : Prop :=
  (∀ c, encode (.csrr c) = formatV 0x02 0 0 0 c) ∧ encode (.csrr 0x05) = 0x02000005 ∧
  ∀ (c : Nat) (s : State),
    (0x09 < c → Fails (.csrr c) s 8) ∧
    (c ≤ 0x09 → s.cfg.Valid → ∃ d,
      exec (.csrr c) s = .next { s with response := some { errcode := 0, dout := d } } ∧
      (c = 0x00 → d = 0x47463243) ∧
      (c = 0x01 → d.toNat = s.cfg.nmax + 2 ^ 8 * s.cfg.rmax + 2 ^ 16 * 8) ∧
      (c = 0x02 → d.toNat = s.N) ∧ (c = 0x03 → d.toNat = s.K) ∧ (c = 0x04 → d.toNat = s.N - s.K) ∧
      (c = 0x05 → IsStatus s d) ∧
      (c = 0x06 → d.toNat = s.err.toNat) ∧ (c = 0x07 → d.toNat = s.w.toNat) ∧
      (c = 0x08 → d.toNat = s.tcount.toNat) ∧ (c = 0x09 → d = s.errcmd)) ∧
    (∀ i t, (∀ c, i ≠ .csrr c) → exec i s = .next t → t.succeeded → t.err = 0)

/-- R103. -/
def Obligations.VldLoadsTheMaskedDataWord : Prop :=
  (∀ vd len, encode (.vld vd len) = formatV 0x10 vd 0 0 len) ∧ encode (.vld 0 5) = 0x10000005 ∧
  ∀ (vd : VIdx) (len : Nat) (s : State),
    (s.cfg.nmax < len → Fails (.vld vd len) s 7) ∧
    (s.cfg.Valid → len ≤ s.cfg.nmax →
      ∃ (L : BitVec 6) (x : Word), L.toNat = len ∧
        (∀ i, i < 32 → bit x i = (decide (i < len) && bit s.din i)) ∧
        Succeeds (.vld vd len) s 0 { s with v := s.v.set vd { len := L, bits := x } })

/-- R104. -/
def Obligations.VstReturnsTheBits : Prop :=
  (∀ vs, encode (.vst vs) = formatV 0x11 0 vs 0 0) ∧ encode (.vst 7) = 0x111C0000 ∧
  ∀ (vs : VIdx) (s : State), Succeeds (.vst vs) s (s.V vs).bits s

/-- R105. -/
def Obligations.VlenReturnsTheLength : Prop :=
  (∀ vs, encode (.vlen vs) = formatV 0x12 0 vs 0 0) ∧ encode (.vlen 7) = 0x121C0000 ∧
  ∀ (vs : VIdx) (s : State), ∃ d, d.toNat = (s.V vs).len.toNat ∧ Succeeds (.vlen vs) s d s

/-- R126. -/
def Obligations.VxorAddsTwoVectors : Prop :=
  (∀ vd vs1 vs2, encode (.vxor vd vs1 vs2) = formatV 0x13 vd vs1 vs2 0) ∧ encode (.vxor 3 1 2) = 0x13650000 ∧
  ∀ (vd vs1 vs2 : VIdx) (s : State),
    ((s.V vs1).len ≠ (s.V vs2).len → Fails (.vxor vd vs1 vs2) s 4) ∧
    ((s.V vs1).len = (s.V vs2).len →
      ∃ x : Word, (∀ i, i < 32 → bit x i = (bit (s.V vs1).bits i != bit (s.V vs2).bits i)) ∧
        Succeeds (.vxor vd vs1 vs2) s 0 { s with v := s.v.set vd { len := (s.V vs1).len, bits := x } })

/-- R127. -/
def Obligations.VflipFlipsOnePosition : Prop :=
  (∀ vd vs pos, encode (.vflip vd vs pos) = formatV 0x14 vd vs 0 pos) ∧ encode (.vflip 4 3 0) = 0x148C0000 ∧
  ∀ (vd vs : VIdx) (pos : Nat) (s : State),
    ((s.V vs).len.toNat ≤ pos → Fails (.vflip vd vs pos) s 9) ∧
    (pos < (s.V vs).len.toNat →
      ∃ x : Word, (∀ i, i < 32 → bit x i = if i = pos then !bit (s.V vs).bits i else bit (s.V vs).bits i) ∧
        Succeeds (.vflip vd vs pos) s 0 { s with v := s.v.set vd { len := (s.V vs).len, bits := x } })

/-- R128. -/
def Obligations.VwtCountsTheOnes : Prop :=
  (∀ vs, encode (.vwt vs) = formatV 0x15 0 vs 0 0) ∧ encode (.vwt 3) = 0x150C0000 ∧
  ∀ (vs : VIdx) (s : State),
    ∃ w : BitVec 6, w.toNat = ones (s.V vs).bits ∧ Succeeds (.vwt vs) s 0 { s with w := w }

/-- R129. -/
def Obligations.VdotReducesTheAnd : Prop :=
  (∀ vs1 vs2, encode (.vdot vs1 vs2) = formatV 0x16 0 vs1 vs2 0) ∧ encode (.vdot 1 2) = 0x16050000 ∧
  ∀ (vs1 vs2 : VIdx) (s : State),
    ((s.V vs1).len ≠ (s.V vs2).len → Fails (.vdot vs1 vs2) s 4) ∧
    ((s.V vs1).len = (s.V vs2).len →
      ∃ w : BitVec 6,
        w.toNat = (sumMod2 32 (fun j => bit (s.V vs1).bits j && bit (s.V vs2).bits j)).toNat ∧
        Succeeds (.vdot vs1 vs2) s 0 { s with w := w })

/-- R106, R41. The row index imm8 is the address stored to; every other row of G reads as before; H and the table are
discarded. -/
def Obligations.GwrWritesOneRowAndInvalidates : Prop :=
  (∀ row vs, encode (.gwr row vs) = formatV 0x20 0 vs 0 row) ∧ encode (.gwr 1 0) = 0x20000001 ∧
  ∀ (row : Nat) (vs : VIdx) (s : State),
    (¬s.DIMV → Fails (.gwr row vs) s 1) ∧
    (s.DIMV → s.K ≤ row → Fails (.gwr row vs) s 9) ∧
    (s.DIMV → row < s.K → (s.V vs).len.toNat ≠ s.N → Fails (.gwr row vs) s 4) ∧
    (s.DIMV → row < s.K → (s.V vs).len.toNat = s.N →
      ∃ t, Succeeds (.gwr row vs) s 0 t ∧
        (∀ j, t.G j = if j = row then (s.V vs).bits else s.G j) ∧ (∀ i, t.H i = 0) ∧ (∀ x, t.T x = none) ∧
        t = { s with gmem := t.gmem, hmem := t.hmem, tmem := t.tmem, hv := false, tb := false, tcount := 0 })

/-- R107. -/
def Obligations.GrdReadsOneRow : Prop :=
  (∀ vd row, encode (.grd vd row) = formatV 0x21 vd 0 0 row) ∧ encode (.grd 1 1) = 0x21200001 ∧
  ∀ (vd : VIdx) (row : Nat) (s : State),
    (¬s.DIMV → Fails (.grd vd row) s 1) ∧
    (s.DIMV → s.K ≤ row → Fails (.grd vd row) s 9) ∧
    (s.DIMV → row < s.K →
      Succeeds (.grd vd row) s 0 { s with v := s.v.set vd { len := s.n, bits := s.G row } })

/-- R108, R41. -/
def Obligations.HwrWritesOneRowAndEmptiesTheTable : Prop :=
  (∀ row vs, encode (.hwr row vs) = formatV 0x22 0 vs 0 row) ∧ encode (.hwr 0 0) = 0x22000000 ∧
  ∀ (row : Nat) (vs : VIdx) (s : State),
    (¬s.DIMV → Fails (.hwr row vs) s 1) ∧
    (s.DIMV → s.N - s.K ≤ row → Fails (.hwr row vs) s 9) ∧
    (s.DIMV → row < s.N - s.K → (s.V vs).len.toNat ≠ s.N → Fails (.hwr row vs) s 4) ∧
    (s.DIMV → row < s.N - s.K → (s.V vs).len.toNat = s.N →
      ∃ t, Succeeds (.hwr row vs) s 0 t ∧
        (∀ i, t.H i = if i = row then (s.V vs).bits else s.H i) ∧ (∀ x, t.T x = none) ∧
        t = { s with hmem := t.hmem, tmem := t.tmem, hv := true, tb := false, tcount := 0 })

/-- R109. -/
def Obligations.HrdReadsOneRow : Prop :=
  (∀ vd row, encode (.hrd vd row) = formatV 0x23 vd 0 0 row) ∧ encode (.hrd 1 2) = 0x23200002 ∧
  ∀ (vd : VIdx) (row : Nat) (s : State),
    (¬s.DIMV → Fails (.hrd vd row) s 1) ∧
    (s.DIMV → s.N - s.K ≤ row → Fails (.hrd vd row) s 9) ∧
    (s.DIMV → row < s.N - s.K → s.hv = false → Fails (.hrd vd row) s 5) ∧
    (s.DIMV → row < s.N - s.K → s.hv = true →
      Succeeds (.hrd vd row) s 0 { s with v := s.v.set vd { len := s.n, bits := s.H row } })

/-- R130, R122: cᵢ = Σⱼ mⱼ·G[j][i] mod 2, j over the K rows. -/
def Obligations.EncMultipliesTheMessageByG : Prop :=
  (∀ vd vs, encode (.enc vd vs) = formatV 0x30 vd vs 0 0) ∧ encode (.enc 3 2) = 0x30680000 ∧
  ∀ (vd vs : VIdx) (s : State),
    (¬s.DIMV → Fails (.enc vd vs) s 1) ∧
    (s.DIMV → (s.V vs).len.toNat ≠ s.K → Fails (.enc vd vs) s 4) ∧
    (s.DIMV → (s.V vs).len.toNat = s.K →
      ∃ c : Word, IsProduct s.K s.G (s.V vs).bits c ∧
        Succeeds (.enc vd vs) s 0 { s with v := s.v.set vd { len := s.n, bits := c } })

/-- R131, R123: sᵢ = XORⱼ (H[i][j] AND r[j]), i over the N−K rows, j over the N columns; Z says whether it is all zero. -/
def Obligations.SyndComputesTheSyndrome : Prop :=
  (∀ vd vs, encode (.synd vd vs) = formatV 0x31 vd vs 0 0) ∧ encode (.synd 5 4) = 0x31B00000 ∧
  ∀ (vd vs : VIdx) (s : State),
    (¬s.DIMV → Fails (.synd vd vs) s 1) ∧
    (s.DIMV → s.hv = false → Fails (.synd vd vs) s 5) ∧
    (s.DIMV → s.hv = true → (s.V vs).len.toNat ≠ s.N → Fails (.synd vd vs) s 4) ∧
    (s.Inv → s.DIMV → s.hv = true → (s.V vs).len.toNat = s.N →
      ∃ (L : BitVec 6) (x : Word), L.toNat = s.N - s.K ∧ IsSyndrome s.N (s.N - s.K) s.H (s.V vs).bits x ∧
        Succeeds (.synd vd vs) s 0
          { s with v := s.v.set vd { len := L, bits := x }, z := decide (x = 0) })

/-- R151, R150: H = [Pᵗ | I]; rows at N−K and above stay as they are, which is zero; G is not changed. -/
def Obligations.BuildhDerivesTheParityCheckMatrix : Prop :=
  encode .buildh = formatV 0x32 0 0 0 0 ∧ encode .buildh = 0x32000000 ∧
  ∀ s : State,
    (¬s.DIMV → Fails .buildh s 1) ∧
    (s.DIMV → (∃ j, j < s.K ∧ s.G j &&& mask s.K ≠ 1#32 <<< j) → Fails .buildh s 5) ∧
    (s.DIMV → (∀ j, j < s.K → s.G j &&& mask s.K = 1#32 <<< j) →
      ∃ t, Succeeds .buildh s 0 t ∧
        (∀ i, i < s.N - s.K →
          (∀ j, j < s.K → j < 32 → bit (t.H i) j = bit (s.G j) (s.K + i)) ∧
          (∀ c, s.K + c < 32 → bit (t.H i) (s.K + c) = decide (c = i))) ∧
        (∀ i, s.N - s.K ≤ i → t.H i = s.H i) ∧ (s.Inv → ∀ i, s.N - s.K ≤ i → t.H i = 0) ∧ (∀ x, t.T x = none) ∧
        t = { s with hmem := t.hmem, tmem := t.tmem, hv := true, tb := false, tcount := 0 })

/-- R132, R125: ORTH says whether every entry of G·Hᵗ is 0. -/
def Obligations.MchkTestsOrthogonality : Prop :=
  encode .mchk = formatV 0x33 0 0 0 0 ∧ encode .mchk = 0x33000000 ∧
  ∀ s : State,
    (¬s.DIMV → Fails .mchk s 1) ∧
    (s.DIMV → s.hv = false → Fails .mchk s 5) ∧
    (s.Inv → s.DIMV → s.hv = true →
      ∃ b : Bool, (b = true ↔ IsOrthogonal s.N s.K (s.N - s.K) s.G s.H) ∧ Succeeds .mchk s 0 { s with orth := b })

/-- R164, R160, R162, R163. The table holds, for each syndrome some pattern has, its leader and the leader's weight, and nothing
else; TCOUNT is the number of assigned slots. -/
def Obligations.TbuildStoresTheCosetLeaders : Prop :=
  encode .tbuild = formatV 0x40 0 0 0 0 ∧ encode .tbuild = 0x40000000 ∧
  ∀ s : State,
    (¬s.DIMV → Fails .tbuild s 1) ∧
    (s.DIMV → s.hv = false → Fails .tbuild s 5) ∧
    (s.Inv → s.DIMV → s.hv = true →
      ∃ t, Succeeds .tbuild s 0 t ∧ t = { s with tmem := t.tmem, tcount := t.tcount, tb := true } ∧
        (∀ x, x < 2 ^ (s.N - s.K) → ∀ l : Leader,
          (t.T x = some l ↔
            IsLeader s.N (s.N - s.K) s.H (BitVec.ofNat 32 x) l.pat ∧ l.wt.toNat = ones l.pat)) ∧
        (∀ x, x < 2 ^ (s.N - s.K) →
          (t.T x = none ↔
            ∀ p, IsVector s.N p → ¬IsSyndrome s.N (s.N - s.K) s.H p (BitVec.ofNat 32 x))) ∧
        (∀ x, 2 ^ (s.N - s.K) ≤ x → t.T x = none) ∧
        t.tcount.toNat = ((Finset.range (2 ^ (s.N - s.K))).filter (fun x => (t.T x).isSome = true)).card ∧
        (bit t.status 4 = true ↔ t.tcount.toNat = 2 ^ (s.N - s.K)))

/-- R165. -/
def Obligations.TlkLooksUpTheLeader : Prop :=
  (∀ vd vs, encode (.tlk vd vs) = formatV 0x41 vd vs 0 0) ∧ encode (.tlk 6 5) = 0x41D40000 ∧
  ∀ (vd vs : VIdx) (s : State),
    (¬s.DIMV → Fails (.tlk vd vs) s 1) ∧
    (s.DIMV → (s.V vs).len.toNat ≠ s.N - s.K → Fails (.tlk vd vs) s 4) ∧
    (s.DIMV → (s.V vs).len.toNat = s.N - s.K → s.T (s.V vs).bits.toNat = none → Fails (.tlk vd vs) s 6) ∧
    (∀ e, s.DIMV → (s.V vs).len.toNat = s.N - s.K → s.T (s.V vs).bits.toNat = some e →
      Succeeds (.tlk vd vs) s 0 { s with v := s.v.set vd { len := s.n, bits := e.pat }, w := e.wt })

/-- R181. -/
def Obligations.DecAddsTheLeader : Prop :=
  (∀ vd vs, encode (.dec vd vs) = formatV 0x50 vd vs 0 0) ∧ encode (.dec 6 4) = 0x50D00000 ∧
  ∀ (vd vs : VIdx) (s : State),
    (¬s.DIMV → Fails (.dec vd vs) s 1) ∧
    (s.DIMV → s.hv = false → Fails (.dec vd vs) s 5) ∧
    (s.DIMV → s.hv = true → (s.V vs).len.toNat ≠ s.N → Fails (.dec vd vs) s 4) ∧
    (s.Inv → s.DIMV → s.hv = true → (s.V vs).len.toNat = s.N →
      ∀ x, IsSyndrome s.N (s.N - s.K) s.H (s.V vs).bits x →
        (x = 0 → Succeeds (.dec vd vs) s 0
          { s with v := s.v.set vd { len := s.n, bits := (s.V vs).bits }, w := 0 }) ∧
        (x ≠ 0 → s.T x.toNat = none → Fails (.dec vd vs) s 6) ∧
        (∀ e, x ≠ 0 → s.T x.toNat = some e → Succeeds (.dec vd vs) s 0
          { s with v := s.v.set vd { len := s.n, bits := (s.V vs).bits ^^^ e.pat }, w := e.wt }))

/-- R182. -/
def Obligations.DeciMakesOneGreedyPass : Prop :=
  (∀ vd vs, encode (.deci vd vs) = formatV 0x51 vd vs 0 0) ∧ encode (.deci 6 4) = 0x51D00000 ∧
  ∀ (vd vs : VIdx) (s : State),
    (¬s.DIMV → Fails (.deci vd vs) s 1) ∧
    (s.DIMV → s.hv = false → Fails (.deci vd vs) s 5) ∧
    (s.DIMV → s.hv = true → (s.V vs).len.toNat ≠ s.N → Fails (.deci vd vs) s 4) ∧
    (s.Inv → s.DIMV → s.hv = true → (s.V vs).len.toNat = s.N →
      (∀ cur w, GreedyTrace s (s.V vs).bits cur w → Succeeds (.deci vd vs) s 0
        { s with v := s.v.set vd { len := s.n, bits := cur s.N }, w := w s.N }) ∧
      ((¬∃ cur w, GreedyTrace s (s.V vs).bits cur w) → Fails (.deci vd vs) s 6))

/-- R183. -/
def Obligations.MsgTruncatesToTheMessage : Prop :=
  (∀ vd vs, encode (.msg vd vs) = formatV 0x52 vd vs 0 0) ∧ encode (.msg 7 6) = 0x52F80000 ∧
  ∀ (vd vs : VIdx) (s : State),
    (¬s.DIMV → Fails (.msg vd vs) s 1) ∧
    (s.DIMV → (s.V vs).len.toNat ≠ s.N → Fails (.msg vd vs) s 4) ∧
    (s.DIMV → (s.V vs).len.toNat = s.N →
      ∃ x : Word, (∀ i, i < 32 → bit x i = (decide (i < s.K) && bit (s.V vs).bits i)) ∧
        Succeeds (.msg vd vs) s 0 { s with v := s.v.set vd { len := s.k, bits := x } })

/-! ## Laws of the code -/

/-- R162. The builder's position lists of weight w: the strictly increasing ones, in lexicographic order, C(n, w) of them, from
first(w) to (n−w, …, n−1), each the next of the one before it; and the packed pattern of a list. -/
def Obligations.CombinationsAreLexicographic : Prop :=
  ∀ n w : Nat, w ≤ n →
    (∀ c, c ∈ combinations n w ↔ c.length = w ∧ c.Pairwise (· < ·) ∧ ∀ x ∈ c, x < n) ∧
    (combinations n w).Pairwise (fun c d => c < d) ∧
    (combinations n w).length = n.choose w ∧
    (combinations n w).head? = some (firstCombination w) ∧
    (combinations n w).getLast? = some ((List.range w).map (fun t => n - w + t)) ∧
    (∀ t c, (combinations n w)[t]? = some c → (combinations n w)[t + 1]? = nextCombination c n w) ∧
    (n ≤ 32 → ∀ c ∈ combinations n w, ∀ i, bit (patternBits c) i = decide (i ∈ c)) ∧
    (n ≤ 32 → ((combinations n w).map patternBits).Pairwise Before)

/-- R168 item 2. TCOUNT = 2^rank(H) after a successful TBUILD. -/
def Obligations.TcountIsTwoToTheRank : Prop :=
  ∀ s t : State, s.Inv → s.DIMV → s.hv = true → exec .tbuild s = .next t →
    t.tcount.toNat = 2 ^ (Matrix.of (fun (i : Fin (s.N - s.K)) (j : Fin s.N) =>
      if bit (s.H i) j then (1 : ZMod 2) else 0)).rank

/-- R152 items 2 and 3, R168 items 3 and 7. After BUILDH the table built is total, TT reads 1, and no leader is heavier than
N−K. -/
def Obligations.BuildhGivesATotalTable : Prop :=
  ∀ s t : State, s.Inv → exec .buildh s = .next t → t.succeeded →
    ∃ u, exec .tbuild t = .next u ∧ u.succeeded ∧ u.tcount.toNat = 2 ^ (u.N - u.K) ∧ bit u.status 4 = true ∧
      ∀ x, x < 2 ^ (u.N - u.K) → ∃ l, u.T x = some l ∧ l.wt.toNat ≤ u.N - u.K

/-- R152 item 1. After BUILDH, MCHK sets ORTH. -/
def Obligations.BuildhPairIsOrthogonal : Prop :=
  ∀ s t : State, s.Inv → exec .buildh s = .next t → t.succeeded →
    ∃ u, exec .mchk t = .next u ∧ u.succeeded ∧ u.orth = true

/-- R133 item 5, R15. After BUILDH a word has zero syndrome iff it is a codeword. -/
def Obligations.ZeroSyndromeIffCodeword : Prop :=
  ∀ s t : State, s.Inv → exec .buildh s = .next t → t.succeeded →
    ∀ v, IsVector t.N v →
      (IsSyndrome t.N (t.N - t.K) t.H v 0 ↔ ∃ m, IsVector t.K m ∧ IsProduct t.K t.G m v)

/-- R133 item 5. With G·Hᵗ = 0, SYND of an encoded message finds the zero syndrome and sets Z. -/
def Obligations.EncodedMessagesHaveZeroSyndrome : Prop :=
  ∀ (s : State) (vt vs vd : VIdx), s.Inv → s.DIMV → s.hv = true → (s.V vs).len.toNat = s.K →
    IsOrthogonal s.N s.K (s.N - s.K) s.G s.H →
    ∃ t u, exec (.enc vt vs) s = .next t ∧ t.succeeded ∧ exec (.synd vd vt) t = .next u ∧ u.succeeded ∧
      u.z = true ∧ (u.V vd).bits = 0

/-- R133 items 1 and 2. The syndrome of a sum is the sum of the syndromes; flipping position i adds column i of H. -/
def Obligations.SyndromesAddUp : Prop :=
  ∀ (s : State) (a b : VIdx), s.Inv → s.DIMV → s.hv = true → (s.V a).len.toNat = s.N → (s.V b).len.toNat = s.N →
    (∀ c d : VIdx, ∃ ta tb tc td, exec (.synd d a) s = .next ta ∧ exec (.synd d b) s = .next tb ∧
      exec (.vxor c a b) s = .next tc ∧ exec (.synd d c) tc = .next td ∧
      (td.V d).bits = (ta.V d).bits ^^^ (tb.V d).bits) ∧
    (∀ (c d : VIdx) (pos : Nat), pos < s.N → ∃ ta tc td, exec (.synd d a) s = .next ta ∧
      exec (.vflip c a pos) s = .next tc ∧ exec (.synd d c) tc = .next td ∧
      ∀ i, i < s.N - s.K → bit (td.V d).bits i = (bit (ta.V d).bits i != bit (s.H i) pos))

/-- R133 item 4. With G in standard form, MSG of the encoded message is the message. -/
def Obligations.MessageIsAPrefixOfItsCodeword : Prop :=
  ∀ (s : State) (vt vs vd : VIdx), s.Inv → s.DIMV → IsStandard s.K s.G → (s.V vs).len.toNat = s.K →
    ∃ t u, exec (.enc vt vs) s = .next t ∧ t.succeeded ∧ exec (.msg vd vt) t = .next u ∧ u.succeeded ∧ u.V vd = s.V vs

/-- R184 item 1, R168 item 5. While the table is built, DEC and DECI of a word succeed. -/
def Obligations.DecodersNeverMissASlot : Prop :=
  ∀ (s : State) (vd vs : VIdx), s.Inv → s.tb = true → (s.V vs).len.toNat = s.N →
    (∃ t, exec (.dec vd vs) s = .next t ∧ t.succeeded) ∧ ∃ t, exec (.deci vd vs) s = .next t ∧ t.succeeded

/-- R184 item 2. DEC returns a word of zero syndrome, W positions away from the received word, and no word of zero syndrome is
nearer. -/
def Obligations.DecReturnsTheNearestCodeword : Prop :=
  ∀ (s : State) (vd vs : VIdx), s.Inv → s.tb = true → (s.V vs).len.toNat = s.N →
    ∃ t, exec (.dec vd vs) s = .next t ∧ t.succeeded ∧ (t.V vd).len = s.n ∧
      IsVector s.N (t.V vd).bits ∧ IsSyndrome s.N (s.N - s.K) s.H (t.V vd).bits 0 ∧
      ones ((t.V vd).bits ^^^ (s.V vs).bits) = t.w.toNat ∧
      ∀ c, IsVector s.N c → IsSyndrome s.N (s.N - s.K) s.H c 0 → t.w.toNat ≤ ones (c ^^^ (s.V vs).bits)

/-- R184 item 6, conflict C6. While the table is built, DECI ends with W = 0 and returns the word DEC returns. -/
def Obligations.GreedyDecoderAgreesWithTableDecoder : Prop :=
  ∀ (s : State) (vd vs : VIdx), s.Inv → s.tb = true → (s.V vs).len.toNat = s.N →
    ∃ t u, exec (.dec vd vs) s = .next t ∧ exec (.deci vd vs) s = .next u ∧ t.succeeded ∧ u.succeeded ∧
      u.w = 0 ∧ u = { t with w := 0 }

/-- R184 item 3. A word of zero syndrome comes back unchanged with W = 0: from DEC with any table, from DECI while the table is
built. -/
def Obligations.CodewordsDecodeToThemselves : Prop :=
  ∀ (s : State) (vd vs : VIdx), s.Inv → s.DIMV → s.hv = true → (s.V vs).len.toNat = s.N →
    IsSyndrome s.N (s.N - s.K) s.H (s.V vs).bits 0 →
    (∃ t, exec (.dec vd vs) s = .next t ∧ t.succeeded ∧ t.V vd = s.V vs ∧ t.w = 0) ∧
    (s.tb = true → ∃ t, exec (.deci vd vs) s = .next t ∧ t.succeeded ∧ t.V vd = s.V vs ∧ t.w = 0)

/-- R184 item 4. If the columns of H are nonzero and distinct, every single flip of a codeword is exactly corrected by DEC. -/
def Obligations.SingleErrorsAreCorrected : Prop :=
  ∀ (s : State) (vd vs : VIdx) (c : Word) (pos : Nat), s.Inv → s.tb = true →
    (∀ j, j < s.N → ∃ i, i < s.N - s.K ∧ bit (s.H i) j = true) →
    (∀ j k, j < k → k < s.N → ∃ i, i < s.N - s.K ∧ bit (s.H i) j ≠ bit (s.H i) k) →
    IsVector s.N c → IsSyndrome s.N (s.N - s.K) s.H c 0 → pos < s.N →
    (s.V vs).len.toNat = s.N → (∀ i, i < 32 → bit (s.V vs).bits i = (bit c i != decide (i = pos))) →
    ∃ t, exec (.dec vd vs) s = .next t ∧ t.succeeded ∧ t.V vd = { len := s.n, bits := c } ∧ t.w = 1

/-- R184 item 5. With G in standard form: BUILDH, TBUILD, then ENC, DEC (or DECI) and MSG return every message unchanged. -/
def Obligations.EncodeDecodeRoundTrip : Prop :=
  ∀ (s : State) (vt vs vd : VIdx), s.Inv → s.DIMV → IsStandard s.K s.G → (s.V vs).len.toNat = s.K →
    ∃ s1 s2 s3, exec .buildh s = .next s1 ∧ s1.succeeded ∧ exec .tbuild s1 = .next s2 ∧ s2.succeeded ∧
      exec (.enc vt vs) s2 = .next s3 ∧ s3.succeeded ∧
      (∃ s4 s5, exec (.dec vt vt) s3 = .next s4 ∧ s4.succeeded ∧ exec (.msg vd vt) s4 = .next s5 ∧ s5.succeeded ∧
        s5.V vd = s.V vs) ∧
      (∃ s4 s5, exec (.deci vt vt) s3 = .next s4 ∧ s4.succeeded ∧ exec (.msg vd vt) s4 = .next s5 ∧ s5.succeeded ∧
        s5.V vd = s.V vs)

/-- R72, R233. After G changes, the commands that read H fail with InvalidMatrix; after G or H changes, a lookup of a slot fails
with DecodeError. -/
def Obligations.StaleDataCannotBeUsed : Prop :=
  (∀ (s t : State) (i : Instr), (∃ row vs, i = .gwr row vs) ∨ (∃ n k, i = .setdim n k) →
    exec i s = .next t → t.succeeded → t.DIMV →
    Fails .mchk t 5 ∧ Fails .tbuild t 5 ∧
    (∀ vd vs, Fails (.synd vd vs) t 5 ∧ Fails (.dec vd vs) t 5 ∧ Fails (.deci vd vs) t 5) ∧
    (∀ vd row, row < t.N - t.K → Fails (.hrd vd row) t 5) ∧
    (∀ vd vs, (t.V vs).len.toNat = t.N - t.K → Fails (.tlk vd vs) t 6)) ∧
  (∀ (s t : State) (i : Instr), s.Inv → (∃ row vs, i = .hwr row vs) ∨ i = .buildh →
    exec i s = .next t → t.succeeded →
    (∀ vd vs, (t.V vs).len.toNat = t.N - t.K → Fails (.tlk vd vs) t 6) ∧
    (∀ vd vs, (t.V vs).len.toNat = t.N → Fails (.deci vd vs) t 6 ∧
      (∀ x, IsSyndrome t.N (t.N - t.K) t.H (t.V vs).bits x → x ≠ 0 → Fails (.dec vd vs) t 6)))

/-- R69 (a), and the same for H. A row read back is the row written. -/
def Obligations.RowsReadBackAsWritten : Prop :=
  ∀ (s t : State) (row : Nat) (vs vd : VIdx),
    (exec (.gwr row vs) s = .next t → t.succeeded →
      ∃ u, exec (.grd vd row) t = .next u ∧ u.succeeded ∧ u.V vd = s.V vs) ∧
    (exec (.hwr row vs) s = .next t → t.succeeded →
      ∃ u, exec (.hrd vd row) t = .next u ∧ u.succeeded ∧ u.V vd = s.V vs)

/-- R133 item 3 of the commands: ENC of the sum of two messages is the sum of their codewords. -/
def Obligations.EncodedMessagesAddUp : Prop :=
  ∀ (s : State) (a b c d : VIdx), s.Inv → s.DIMV → (s.V a).len.toNat = s.K → (s.V b).len.toNat = s.K →
    ∃ ta tb tc td, exec (.enc d a) s = .next ta ∧ ta.succeeded ∧ exec (.enc d b) s = .next tb ∧ tb.succeeded ∧
      exec (.vxor c a b) s = .next tc ∧ tc.succeeded ∧ exec (.enc d c) tc = .next td ∧ td.succeeded ∧
      (td.V d).bits = (ta.V d).bits ^^^ (tb.V d).bits

/-- R133, its five items, of the machine's own `syndrome`, `column` and `encodeMessage` on its G and H: the two functions are
additive; a flip adds a column and a weight-1 pattern has that column as its syndrome; a standard-form G makes the message a prefix;
with G·Hᵗ = 0 every codeword has zero syndrome, and with independent rows no other word has; BUILDH gives such rows. -/
def Obligations.ConsequencesOfEncodeAndSyndrome : Prop :=
  ∀ s : State, s.Inv →
    (∀ a b, syndrome s.hmem (a ^^^ b) s.R = syndrome s.hmem a s.R ^^^ syndrome s.hmem b s.R) ∧
    (∀ i, i < s.N →
      (∀ t, bit (column s.hmem i s.R) t = (decide (t < s.N - s.K) && bit (s.H t) i)) ∧
      (∀ v, syndrome s.hmem (v ^^^ 1#32 <<< i) s.R = syndrome s.hmem v s.R ^^^ column s.hmem i s.R) ∧
      (∀ p, ones p = 1 → bit p i = true → syndrome s.hmem p s.R = column s.hmem i s.R)) ∧
    (∀ a b, encodeMessage s.gmem (a ^^^ b) s.K = encodeMessage s.gmem a s.K ^^^ encodeMessage s.gmem b s.K) ∧
    (IsStandard s.K s.G → ∀ m, IsVector s.K m → encodeMessage s.gmem m s.K &&& mask s.K = m) ∧
    (IsOrthogonal s.N s.K (s.N - s.K) s.G s.H →
      (∀ m, IsVector s.K m → syndrome s.hmem (encodeMessage s.gmem m s.K) s.R = 0) ∧
      (IndependentRows s.K s.G → IndependentRows (s.N - s.K) s.H → ∀ v, IsVector s.N v →
        syndrome s.hmem v s.R = 0 → ∃ m, IsVector s.K m ∧ encodeMessage s.gmem m s.K = v)) ∧
    (∀ t, exec .buildh s = .next t → t.succeeded →
      IsOrthogonal t.N t.K (t.N - t.K) t.G t.H ∧ IndependentRows t.K t.G ∧ IndependentRows (t.N - t.K) t.H)
end

