-- ==== Sys2Proof/Laws/State.lean ====
section
/-! SUPPORT. What each named update of the state does to each field, and to the reads of R13, by rfl: later proofs cite these
and never unfold a record update. -/

namespace Sys2Proof.Machine

variable (s : State)

@[simp] theorem State.setV_cfg (i : VIdx) (L : BitVec 6) (x : Word) : (s.setV i L x).cfg = s.cfg := rfl
@[simp] theorem State.setV_v (i : VIdx) (L : BitVec 6) (x : Word) : (s.setV i L x).v = s.v.set i { len := L, bits := x } := rfl
@[simp] theorem State.setV_n (i : VIdx) (L : BitVec 6) (x : Word) : (s.setV i L x).n = s.n := rfl
@[simp] theorem State.setV_k (i : VIdx) (L : BitVec 6) (x : Word) : (s.setV i L x).k = s.k := rfl
@[simp] theorem State.setV_w (i : VIdx) (L : BitVec 6) (x : Word) : (s.setV i L x).w = s.w := rfl
@[simp] theorem State.setV_z (i : VIdx) (L : BitVec 6) (x : Word) : (s.setV i L x).z = s.z := rfl
@[simp] theorem State.setV_orth (i : VIdx) (L : BitVec 6) (x : Word) : (s.setV i L x).orth = s.orth := rfl
@[simp] theorem State.setV_hv (i : VIdx) (L : BitVec 6) (x : Word) : (s.setV i L x).hv = s.hv := rfl
@[simp] theorem State.setV_tb (i : VIdx) (L : BitVec 6) (x : Word) : (s.setV i L x).tb = s.tb := rfl
@[simp] theorem State.setV_tcount (i : VIdx) (L : BitVec 6) (x : Word) : (s.setV i L x).tcount = s.tcount := rfl
@[simp] theorem State.setV_err (i : VIdx) (L : BitVec 6) (x : Word) : (s.setV i L x).err = s.err := rfl
@[simp] theorem State.setV_errcmd (i : VIdx) (L : BitVec 6) (x : Word) : (s.setV i L x).errcmd = s.errcmd := rfl
@[simp] theorem State.setV_gmem (i : VIdx) (L : BitVec 6) (x : Word) : (s.setV i L x).gmem = s.gmem := rfl
@[simp] theorem State.setV_hmem (i : VIdx) (L : BitVec 6) (x : Word) : (s.setV i L x).hmem = s.hmem := rfl
@[simp] theorem State.setV_tmem (i : VIdx) (L : BitVec 6) (x : Word) : (s.setV i L x).tmem = s.tmem := rfl
@[simp] theorem State.setV_cmd (i : VIdx) (L : BitVec 6) (x : Word) : (s.setV i L x).cmd = s.cmd := rfl
@[simp] theorem State.setV_din (i : VIdx) (L : BitVec 6) (x : Word) : (s.setV i L x).din = s.din := rfl
@[simp] theorem State.setV_response (i : VIdx) (L : BitVec 6) (x : Word) : (s.setV i L x).response = s.response := rfl
@[simp] theorem State.setV_host (i : VIdx) (L : BitVec 6) (x : Word) : (s.setV i L x).host = s.host := rfl

@[simp] theorem State.setDims_cfg (a b : Nat) : (s.setDims a b).cfg = s.cfg := rfl
@[simp] theorem State.setDims_v (a b : Nat) : (s.setDims a b).v = s.v := rfl
@[simp] theorem State.setDims_n (a b : Nat) : (s.setDims a b).n = BitVec.ofNat 6 a := rfl
@[simp] theorem State.setDims_k (a b : Nat) : (s.setDims a b).k = BitVec.ofNat 6 b := rfl
@[simp] theorem State.setDims_w (a b : Nat) : (s.setDims a b).w = s.w := rfl
@[simp] theorem State.setDims_z (a b : Nat) : (s.setDims a b).z = s.z := rfl
@[simp] theorem State.setDims_orth (a b : Nat) : (s.setDims a b).orth = s.orth := rfl
@[simp] theorem State.setDims_hv (a b : Nat) : (s.setDims a b).hv = s.hv := rfl
@[simp] theorem State.setDims_tb (a b : Nat) : (s.setDims a b).tb = s.tb := rfl
@[simp] theorem State.setDims_tcount (a b : Nat) : (s.setDims a b).tcount = s.tcount := rfl
@[simp] theorem State.setDims_err (a b : Nat) : (s.setDims a b).err = s.err := rfl
@[simp] theorem State.setDims_errcmd (a b : Nat) : (s.setDims a b).errcmd = s.errcmd := rfl
@[simp] theorem State.setDims_gmem (a b : Nat) : (s.setDims a b).gmem = s.gmem := rfl
@[simp] theorem State.setDims_hmem (a b : Nat) : (s.setDims a b).hmem = s.hmem := rfl
@[simp] theorem State.setDims_tmem (a b : Nat) : (s.setDims a b).tmem = s.tmem := rfl
@[simp] theorem State.setDims_cmd (a b : Nat) : (s.setDims a b).cmd = s.cmd := rfl
@[simp] theorem State.setDims_din (a b : Nat) : (s.setDims a b).din = s.din := rfl
@[simp] theorem State.setDims_response (a b : Nat) : (s.setDims a b).response = s.response := rfl
@[simp] theorem State.setDims_host (a b : Nat) : (s.setDims a b).host = s.host := rfl

@[simp] theorem State.setW_cfg (x : BitVec 6) : (s.setW x).cfg = s.cfg := rfl
@[simp] theorem State.setW_v (x : BitVec 6) : (s.setW x).v = s.v := rfl
@[simp] theorem State.setW_n (x : BitVec 6) : (s.setW x).n = s.n := rfl
@[simp] theorem State.setW_k (x : BitVec 6) : (s.setW x).k = s.k := rfl
@[simp] theorem State.setW_w (x : BitVec 6) : (s.setW x).w = x := rfl
@[simp] theorem State.setW_z (x : BitVec 6) : (s.setW x).z = s.z := rfl
@[simp] theorem State.setW_orth (x : BitVec 6) : (s.setW x).orth = s.orth := rfl
@[simp] theorem State.setW_hv (x : BitVec 6) : (s.setW x).hv = s.hv := rfl
@[simp] theorem State.setW_tb (x : BitVec 6) : (s.setW x).tb = s.tb := rfl
@[simp] theorem State.setW_tcount (x : BitVec 6) : (s.setW x).tcount = s.tcount := rfl
@[simp] theorem State.setW_err (x : BitVec 6) : (s.setW x).err = s.err := rfl
@[simp] theorem State.setW_errcmd (x : BitVec 6) : (s.setW x).errcmd = s.errcmd := rfl
@[simp] theorem State.setW_gmem (x : BitVec 6) : (s.setW x).gmem = s.gmem := rfl
@[simp] theorem State.setW_hmem (x : BitVec 6) : (s.setW x).hmem = s.hmem := rfl
@[simp] theorem State.setW_tmem (x : BitVec 6) : (s.setW x).tmem = s.tmem := rfl
@[simp] theorem State.setW_cmd (x : BitVec 6) : (s.setW x).cmd = s.cmd := rfl
@[simp] theorem State.setW_din (x : BitVec 6) : (s.setW x).din = s.din := rfl
@[simp] theorem State.setW_response (x : BitVec 6) : (s.setW x).response = s.response := rfl
@[simp] theorem State.setW_host (x : BitVec 6) : (s.setW x).host = s.host := rfl

@[simp] theorem State.setZ_cfg (b : Bool) : (s.setZ b).cfg = s.cfg := rfl
@[simp] theorem State.setZ_v (b : Bool) : (s.setZ b).v = s.v := rfl
@[simp] theorem State.setZ_n (b : Bool) : (s.setZ b).n = s.n := rfl
@[simp] theorem State.setZ_k (b : Bool) : (s.setZ b).k = s.k := rfl
@[simp] theorem State.setZ_w (b : Bool) : (s.setZ b).w = s.w := rfl
@[simp] theorem State.setZ_z (b : Bool) : (s.setZ b).z = b := rfl
@[simp] theorem State.setZ_orth (b : Bool) : (s.setZ b).orth = s.orth := rfl
@[simp] theorem State.setZ_hv (b : Bool) : (s.setZ b).hv = s.hv := rfl
@[simp] theorem State.setZ_tb (b : Bool) : (s.setZ b).tb = s.tb := rfl
@[simp] theorem State.setZ_tcount (b : Bool) : (s.setZ b).tcount = s.tcount := rfl
@[simp] theorem State.setZ_err (b : Bool) : (s.setZ b).err = s.err := rfl
@[simp] theorem State.setZ_errcmd (b : Bool) : (s.setZ b).errcmd = s.errcmd := rfl
@[simp] theorem State.setZ_gmem (b : Bool) : (s.setZ b).gmem = s.gmem := rfl
@[simp] theorem State.setZ_hmem (b : Bool) : (s.setZ b).hmem = s.hmem := rfl
@[simp] theorem State.setZ_tmem (b : Bool) : (s.setZ b).tmem = s.tmem := rfl
@[simp] theorem State.setZ_cmd (b : Bool) : (s.setZ b).cmd = s.cmd := rfl
@[simp] theorem State.setZ_din (b : Bool) : (s.setZ b).din = s.din := rfl
@[simp] theorem State.setZ_response (b : Bool) : (s.setZ b).response = s.response := rfl
@[simp] theorem State.setZ_host (b : Bool) : (s.setZ b).host = s.host := rfl

@[simp] theorem State.setOrth_cfg (b : Bool) : (s.setOrth b).cfg = s.cfg := rfl
@[simp] theorem State.setOrth_v (b : Bool) : (s.setOrth b).v = s.v := rfl
@[simp] theorem State.setOrth_n (b : Bool) : (s.setOrth b).n = s.n := rfl
@[simp] theorem State.setOrth_k (b : Bool) : (s.setOrth b).k = s.k := rfl
@[simp] theorem State.setOrth_w (b : Bool) : (s.setOrth b).w = s.w := rfl
@[simp] theorem State.setOrth_z (b : Bool) : (s.setOrth b).z = s.z := rfl
@[simp] theorem State.setOrth_orth (b : Bool) : (s.setOrth b).orth = b := rfl
@[simp] theorem State.setOrth_hv (b : Bool) : (s.setOrth b).hv = s.hv := rfl
@[simp] theorem State.setOrth_tb (b : Bool) : (s.setOrth b).tb = s.tb := rfl
@[simp] theorem State.setOrth_tcount (b : Bool) : (s.setOrth b).tcount = s.tcount := rfl
@[simp] theorem State.setOrth_err (b : Bool) : (s.setOrth b).err = s.err := rfl
@[simp] theorem State.setOrth_errcmd (b : Bool) : (s.setOrth b).errcmd = s.errcmd := rfl
@[simp] theorem State.setOrth_gmem (b : Bool) : (s.setOrth b).gmem = s.gmem := rfl
@[simp] theorem State.setOrth_hmem (b : Bool) : (s.setOrth b).hmem = s.hmem := rfl
@[simp] theorem State.setOrth_tmem (b : Bool) : (s.setOrth b).tmem = s.tmem := rfl
@[simp] theorem State.setOrth_cmd (b : Bool) : (s.setOrth b).cmd = s.cmd := rfl
@[simp] theorem State.setOrth_din (b : Bool) : (s.setOrth b).din = s.din := rfl
@[simp] theorem State.setOrth_response (b : Bool) : (s.setOrth b).response = s.response := rfl
@[simp] theorem State.setOrth_host (b : Bool) : (s.setOrth b).host = s.host := rfl

@[simp] theorem State.setG_cfg (j : Nat) (x : Word) : (s.setG j x).cfg = s.cfg := rfl
@[simp] theorem State.setG_v (j : Nat) (x : Word) : (s.setG j x).v = s.v := rfl
@[simp] theorem State.setG_n (j : Nat) (x : Word) : (s.setG j x).n = s.n := rfl
@[simp] theorem State.setG_k (j : Nat) (x : Word) : (s.setG j x).k = s.k := rfl
@[simp] theorem State.setG_w (j : Nat) (x : Word) : (s.setG j x).w = s.w := rfl
@[simp] theorem State.setG_z (j : Nat) (x : Word) : (s.setG j x).z = s.z := rfl
@[simp] theorem State.setG_orth (j : Nat) (x : Word) : (s.setG j x).orth = s.orth := rfl
@[simp] theorem State.setG_hv (j : Nat) (x : Word) : (s.setG j x).hv = s.hv := rfl
@[simp] theorem State.setG_tb (j : Nat) (x : Word) : (s.setG j x).tb = s.tb := rfl
@[simp] theorem State.setG_tcount (j : Nat) (x : Word) : (s.setG j x).tcount = s.tcount := rfl
@[simp] theorem State.setG_err (j : Nat) (x : Word) : (s.setG j x).err = s.err := rfl
@[simp] theorem State.setG_errcmd (j : Nat) (x : Word) : (s.setG j x).errcmd = s.errcmd := rfl
@[simp] theorem State.setG_gmem (j : Nat) (x : Word) : (s.setG j x).gmem = s.gmem.write j x := rfl
@[simp] theorem State.setG_hmem (j : Nat) (x : Word) : (s.setG j x).hmem = s.hmem := rfl
@[simp] theorem State.setG_tmem (j : Nat) (x : Word) : (s.setG j x).tmem = s.tmem := rfl
@[simp] theorem State.setG_cmd (j : Nat) (x : Word) : (s.setG j x).cmd = s.cmd := rfl
@[simp] theorem State.setG_din (j : Nat) (x : Word) : (s.setG j x).din = s.din := rfl
@[simp] theorem State.setG_response (j : Nat) (x : Word) : (s.setG j x).response = s.response := rfl
@[simp] theorem State.setG_host (j : Nat) (x : Word) : (s.setG j x).host = s.host := rfl

@[simp] theorem State.zeroG_cfg : (s.zeroG).cfg = s.cfg := rfl
@[simp] theorem State.zeroG_v : (s.zeroG).v = s.v := rfl
@[simp] theorem State.zeroG_n : (s.zeroG).n = s.n := rfl
@[simp] theorem State.zeroG_k : (s.zeroG).k = s.k := rfl
@[simp] theorem State.zeroG_w : (s.zeroG).w = s.w := rfl
@[simp] theorem State.zeroG_z : (s.zeroG).z = s.z := rfl
@[simp] theorem State.zeroG_orth : (s.zeroG).orth = s.orth := rfl
@[simp] theorem State.zeroG_hv : (s.zeroG).hv = s.hv := rfl
@[simp] theorem State.zeroG_tb : (s.zeroG).tb = s.tb := rfl
@[simp] theorem State.zeroG_tcount : (s.zeroG).tcount = s.tcount := rfl
@[simp] theorem State.zeroG_err : (s.zeroG).err = s.err := rfl
@[simp] theorem State.zeroG_errcmd : (s.zeroG).errcmd = s.errcmd := rfl
@[simp] theorem State.zeroG_gmem : (s.zeroG).gmem = RowMem.zero := rfl
@[simp] theorem State.zeroG_hmem : (s.zeroG).hmem = s.hmem := rfl
@[simp] theorem State.zeroG_tmem : (s.zeroG).tmem = s.tmem := rfl
@[simp] theorem State.zeroG_cmd : (s.zeroG).cmd = s.cmd := rfl
@[simp] theorem State.zeroG_din : (s.zeroG).din = s.din := rfl
@[simp] theorem State.zeroG_response : (s.zeroG).response = s.response := rfl
@[simp] theorem State.zeroG_host : (s.zeroG).host = s.host := rfl

@[simp] theorem State.setH_cfg (i : Nat) (x : Word) : (s.setH i x).cfg = s.cfg := rfl
@[simp] theorem State.setH_v (i : Nat) (x : Word) : (s.setH i x).v = s.v := rfl
@[simp] theorem State.setH_n (i : Nat) (x : Word) : (s.setH i x).n = s.n := rfl
@[simp] theorem State.setH_k (i : Nat) (x : Word) : (s.setH i x).k = s.k := rfl
@[simp] theorem State.setH_w (i : Nat) (x : Word) : (s.setH i x).w = s.w := rfl
@[simp] theorem State.setH_z (i : Nat) (x : Word) : (s.setH i x).z = s.z := rfl
@[simp] theorem State.setH_orth (i : Nat) (x : Word) : (s.setH i x).orth = s.orth := rfl
@[simp] theorem State.setH_hv (i : Nat) (x : Word) : (s.setH i x).hv = true := rfl
@[simp] theorem State.setH_tb (i : Nat) (x : Word) : (s.setH i x).tb = s.tb := rfl
@[simp] theorem State.setH_tcount (i : Nat) (x : Word) : (s.setH i x).tcount = s.tcount := rfl
@[simp] theorem State.setH_err (i : Nat) (x : Word) : (s.setH i x).err = s.err := rfl
@[simp] theorem State.setH_errcmd (i : Nat) (x : Word) : (s.setH i x).errcmd = s.errcmd := rfl
@[simp] theorem State.setH_gmem (i : Nat) (x : Word) : (s.setH i x).gmem = s.gmem := rfl
@[simp] theorem State.setH_hmem (i : Nat) (x : Word) : (s.setH i x).hmem = s.hmem.write i x := rfl
@[simp] theorem State.setH_tmem (i : Nat) (x : Word) : (s.setH i x).tmem = s.tmem := rfl
@[simp] theorem State.setH_cmd (i : Nat) (x : Word) : (s.setH i x).cmd = s.cmd := rfl
@[simp] theorem State.setH_din (i : Nat) (x : Word) : (s.setH i x).din = s.din := rfl
@[simp] theorem State.setH_response (i : Nat) (x : Word) : (s.setH i x).response = s.response := rfl
@[simp] theorem State.setH_host (i : Nat) (x : Word) : (s.setH i x).host = s.host := rfl

@[simp] theorem State.setHmem_cfg (h : RowMem) : (s.setHmem h).cfg = s.cfg := rfl
@[simp] theorem State.setHmem_v (h : RowMem) : (s.setHmem h).v = s.v := rfl
@[simp] theorem State.setHmem_n (h : RowMem) : (s.setHmem h).n = s.n := rfl
@[simp] theorem State.setHmem_k (h : RowMem) : (s.setHmem h).k = s.k := rfl
@[simp] theorem State.setHmem_w (h : RowMem) : (s.setHmem h).w = s.w := rfl
@[simp] theorem State.setHmem_z (h : RowMem) : (s.setHmem h).z = s.z := rfl
@[simp] theorem State.setHmem_orth (h : RowMem) : (s.setHmem h).orth = s.orth := rfl
@[simp] theorem State.setHmem_hv (h : RowMem) : (s.setHmem h).hv = true := rfl
@[simp] theorem State.setHmem_tb (h : RowMem) : (s.setHmem h).tb = s.tb := rfl
@[simp] theorem State.setHmem_tcount (h : RowMem) : (s.setHmem h).tcount = s.tcount := rfl
@[simp] theorem State.setHmem_err (h : RowMem) : (s.setHmem h).err = s.err := rfl
@[simp] theorem State.setHmem_errcmd (h : RowMem) : (s.setHmem h).errcmd = s.errcmd := rfl
@[simp] theorem State.setHmem_gmem (h : RowMem) : (s.setHmem h).gmem = s.gmem := rfl
@[simp] theorem State.setHmem_hmem (h : RowMem) : (s.setHmem h).hmem = h := rfl
@[simp] theorem State.setHmem_tmem (h : RowMem) : (s.setHmem h).tmem = s.tmem := rfl
@[simp] theorem State.setHmem_cmd (h : RowMem) : (s.setHmem h).cmd = s.cmd := rfl
@[simp] theorem State.setHmem_din (h : RowMem) : (s.setHmem h).din = s.din := rfl
@[simp] theorem State.setHmem_response (h : RowMem) : (s.setHmem h).response = s.response := rfl
@[simp] theorem State.setHmem_host (h : RowMem) : (s.setHmem h).host = s.host := rfl

@[simp] theorem State.setTable_cfg (t : SlotMem) (c : Nat) : (s.setTable t c).cfg = s.cfg := rfl
@[simp] theorem State.setTable_v (t : SlotMem) (c : Nat) : (s.setTable t c).v = s.v := rfl
@[simp] theorem State.setTable_n (t : SlotMem) (c : Nat) : (s.setTable t c).n = s.n := rfl
@[simp] theorem State.setTable_k (t : SlotMem) (c : Nat) : (s.setTable t c).k = s.k := rfl
@[simp] theorem State.setTable_w (t : SlotMem) (c : Nat) : (s.setTable t c).w = s.w := rfl
@[simp] theorem State.setTable_z (t : SlotMem) (c : Nat) : (s.setTable t c).z = s.z := rfl
@[simp] theorem State.setTable_orth (t : SlotMem) (c : Nat) : (s.setTable t c).orth = s.orth := rfl
@[simp] theorem State.setTable_hv (t : SlotMem) (c : Nat) : (s.setTable t c).hv = s.hv := rfl
@[simp] theorem State.setTable_tb (t : SlotMem) (c : Nat) : (s.setTable t c).tb = true := rfl
@[simp] theorem State.setTable_tcount (t : SlotMem) (c : Nat) : (s.setTable t c).tcount = BitVec.ofNat 25 c := rfl
@[simp] theorem State.setTable_err (t : SlotMem) (c : Nat) : (s.setTable t c).err = s.err := rfl
@[simp] theorem State.setTable_errcmd (t : SlotMem) (c : Nat) : (s.setTable t c).errcmd = s.errcmd := rfl
@[simp] theorem State.setTable_gmem (t : SlotMem) (c : Nat) : (s.setTable t c).gmem = s.gmem := rfl
@[simp] theorem State.setTable_hmem (t : SlotMem) (c : Nat) : (s.setTable t c).hmem = s.hmem := rfl
@[simp] theorem State.setTable_tmem (t : SlotMem) (c : Nat) : (s.setTable t c).tmem = t := rfl
@[simp] theorem State.setTable_cmd (t : SlotMem) (c : Nat) : (s.setTable t c).cmd = s.cmd := rfl
@[simp] theorem State.setTable_din (t : SlotMem) (c : Nat) : (s.setTable t c).din = s.din := rfl
@[simp] theorem State.setTable_response (t : SlotMem) (c : Nat) : (s.setTable t c).response = s.response := rfl
@[simp] theorem State.setTable_host (t : SlotMem) (c : Nat) : (s.setTable t c).host = s.host := rfl

@[simp] theorem State.invalidateT_cfg : (s.invalidateT).cfg = s.cfg := rfl
@[simp] theorem State.invalidateT_v : (s.invalidateT).v = s.v := rfl
@[simp] theorem State.invalidateT_n : (s.invalidateT).n = s.n := rfl
@[simp] theorem State.invalidateT_k : (s.invalidateT).k = s.k := rfl
@[simp] theorem State.invalidateT_w : (s.invalidateT).w = s.w := rfl
@[simp] theorem State.invalidateT_z : (s.invalidateT).z = s.z := rfl
@[simp] theorem State.invalidateT_orth : (s.invalidateT).orth = s.orth := rfl
@[simp] theorem State.invalidateT_hv : (s.invalidateT).hv = s.hv := rfl
@[simp] theorem State.invalidateT_tb : (s.invalidateT).tb = false := rfl
@[simp] theorem State.invalidateT_tcount : (s.invalidateT).tcount = 0 := rfl
@[simp] theorem State.invalidateT_err : (s.invalidateT).err = s.err := rfl
@[simp] theorem State.invalidateT_errcmd : (s.invalidateT).errcmd = s.errcmd := rfl
@[simp] theorem State.invalidateT_gmem : (s.invalidateT).gmem = s.gmem := rfl
@[simp] theorem State.invalidateT_hmem : (s.invalidateT).hmem = s.hmem := rfl
@[simp] theorem State.invalidateT_tmem : (s.invalidateT).tmem = SlotMem.empty := rfl
@[simp] theorem State.invalidateT_cmd : (s.invalidateT).cmd = s.cmd := rfl
@[simp] theorem State.invalidateT_din : (s.invalidateT).din = s.din := rfl
@[simp] theorem State.invalidateT_response : (s.invalidateT).response = s.response := rfl
@[simp] theorem State.invalidateT_host : (s.invalidateT).host = s.host := rfl

@[simp] theorem State.invalidateH_cfg : (s.invalidateH).cfg = s.cfg := rfl
@[simp] theorem State.invalidateH_v : (s.invalidateH).v = s.v := rfl
@[simp] theorem State.invalidateH_n : (s.invalidateH).n = s.n := rfl
@[simp] theorem State.invalidateH_k : (s.invalidateH).k = s.k := rfl
@[simp] theorem State.invalidateH_w : (s.invalidateH).w = s.w := rfl
@[simp] theorem State.invalidateH_z : (s.invalidateH).z = s.z := rfl
@[simp] theorem State.invalidateH_orth : (s.invalidateH).orth = s.orth := rfl
@[simp] theorem State.invalidateH_hv : (s.invalidateH).hv = false := rfl
@[simp] theorem State.invalidateH_tb : (s.invalidateH).tb = false := rfl
@[simp] theorem State.invalidateH_tcount : (s.invalidateH).tcount = 0 := rfl
@[simp] theorem State.invalidateH_err : (s.invalidateH).err = s.err := rfl
@[simp] theorem State.invalidateH_errcmd : (s.invalidateH).errcmd = s.errcmd := rfl
@[simp] theorem State.invalidateH_gmem : (s.invalidateH).gmem = s.gmem := rfl
@[simp] theorem State.invalidateH_hmem : (s.invalidateH).hmem = RowMem.zero := rfl
@[simp] theorem State.invalidateH_tmem : (s.invalidateH).tmem = SlotMem.empty := rfl
@[simp] theorem State.invalidateH_cmd : (s.invalidateH).cmd = s.cmd := rfl
@[simp] theorem State.invalidateH_din : (s.invalidateH).din = s.din := rfl
@[simp] theorem State.invalidateH_response : (s.invalidateH).response = s.response := rfl
@[simp] theorem State.invalidateH_host : (s.invalidateH).host = s.host := rfl

@[simp] theorem State.failed_cfg (f : Failure) : (s.failed f).cfg = s.cfg := rfl
@[simp] theorem State.failed_v (f : Failure) : (s.failed f).v = s.v := rfl
@[simp] theorem State.failed_n (f : Failure) : (s.failed f).n = s.n := rfl
@[simp] theorem State.failed_k (f : Failure) : (s.failed f).k = s.k := rfl
@[simp] theorem State.failed_w (f : Failure) : (s.failed f).w = s.w := rfl
@[simp] theorem State.failed_z (f : Failure) : (s.failed f).z = s.z := rfl
@[simp] theorem State.failed_orth (f : Failure) : (s.failed f).orth = s.orth := rfl
@[simp] theorem State.failed_hv (f : Failure) : (s.failed f).hv = s.hv := rfl
@[simp] theorem State.failed_tb (f : Failure) : (s.failed f).tb = s.tb := rfl
@[simp] theorem State.failed_tcount (f : Failure) : (s.failed f).tcount = s.tcount := rfl
@[simp] theorem State.failed_err (f : Failure) : (s.failed f).err = f.code := rfl
@[simp] theorem State.failed_errcmd (f : Failure) : (s.failed f).errcmd = s.cmd := rfl
@[simp] theorem State.failed_gmem (f : Failure) : (s.failed f).gmem = s.gmem := rfl
@[simp] theorem State.failed_hmem (f : Failure) : (s.failed f).hmem = s.hmem := rfl
@[simp] theorem State.failed_tmem (f : Failure) : (s.failed f).tmem = s.tmem := rfl
@[simp] theorem State.failed_cmd (f : Failure) : (s.failed f).cmd = s.cmd := rfl
@[simp] theorem State.failed_din (f : Failure) : (s.failed f).din = s.din := rfl
@[simp] theorem State.failed_response (f : Failure) : (s.failed f).response = some { errcode := f.code, dout := 0 } := rfl
@[simp] theorem State.failed_host (f : Failure) : (s.failed f).host = s.host := rfl

@[simp] theorem State.answered_cfg (d : Word) : (s.answered d).cfg = s.cfg := rfl
@[simp] theorem State.answered_v (d : Word) : (s.answered d).v = s.v := rfl
@[simp] theorem State.answered_n (d : Word) : (s.answered d).n = s.n := rfl
@[simp] theorem State.answered_k (d : Word) : (s.answered d).k = s.k := rfl
@[simp] theorem State.answered_w (d : Word) : (s.answered d).w = s.w := rfl
@[simp] theorem State.answered_z (d : Word) : (s.answered d).z = s.z := rfl
@[simp] theorem State.answered_orth (d : Word) : (s.answered d).orth = s.orth := rfl
@[simp] theorem State.answered_hv (d : Word) : (s.answered d).hv = s.hv := rfl
@[simp] theorem State.answered_tb (d : Word) : (s.answered d).tb = s.tb := rfl
@[simp] theorem State.answered_tcount (d : Word) : (s.answered d).tcount = s.tcount := rfl
@[simp] theorem State.answered_err (d : Word) : (s.answered d).err = 0 := rfl
@[simp] theorem State.answered_errcmd (d : Word) : (s.answered d).errcmd = s.errcmd := rfl
@[simp] theorem State.answered_gmem (d : Word) : (s.answered d).gmem = s.gmem := rfl
@[simp] theorem State.answered_hmem (d : Word) : (s.answered d).hmem = s.hmem := rfl
@[simp] theorem State.answered_tmem (d : Word) : (s.answered d).tmem = s.tmem := rfl
@[simp] theorem State.answered_cmd (d : Word) : (s.answered d).cmd = s.cmd := rfl
@[simp] theorem State.answered_din (d : Word) : (s.answered d).din = s.din := rfl
@[simp] theorem State.answered_response (d : Word) : (s.answered d).response = some { errcode := 0, dout := d } := rfl
@[simp] theorem State.answered_host (d : Word) : (s.answered d).host = s.host := rfl

@[simp] theorem State.answeredKeepingErr_cfg (d : Word) : (s.answeredKeepingErr d).cfg = s.cfg := rfl
@[simp] theorem State.answeredKeepingErr_v (d : Word) : (s.answeredKeepingErr d).v = s.v := rfl
@[simp] theorem State.answeredKeepingErr_n (d : Word) : (s.answeredKeepingErr d).n = s.n := rfl
@[simp] theorem State.answeredKeepingErr_k (d : Word) : (s.answeredKeepingErr d).k = s.k := rfl
@[simp] theorem State.answeredKeepingErr_w (d : Word) : (s.answeredKeepingErr d).w = s.w := rfl
@[simp] theorem State.answeredKeepingErr_z (d : Word) : (s.answeredKeepingErr d).z = s.z := rfl
@[simp] theorem State.answeredKeepingErr_orth (d : Word) : (s.answeredKeepingErr d).orth = s.orth := rfl
@[simp] theorem State.answeredKeepingErr_hv (d : Word) : (s.answeredKeepingErr d).hv = s.hv := rfl
@[simp] theorem State.answeredKeepingErr_tb (d : Word) : (s.answeredKeepingErr d).tb = s.tb := rfl
@[simp] theorem State.answeredKeepingErr_tcount (d : Word) : (s.answeredKeepingErr d).tcount = s.tcount := rfl
@[simp] theorem State.answeredKeepingErr_err (d : Word) : (s.answeredKeepingErr d).err = s.err := rfl
@[simp] theorem State.answeredKeepingErr_errcmd (d : Word) : (s.answeredKeepingErr d).errcmd = s.errcmd := rfl
@[simp] theorem State.answeredKeepingErr_gmem (d : Word) : (s.answeredKeepingErr d).gmem = s.gmem := rfl
@[simp] theorem State.answeredKeepingErr_hmem (d : Word) : (s.answeredKeepingErr d).hmem = s.hmem := rfl
@[simp] theorem State.answeredKeepingErr_tmem (d : Word) : (s.answeredKeepingErr d).tmem = s.tmem := rfl
@[simp] theorem State.answeredKeepingErr_cmd (d : Word) : (s.answeredKeepingErr d).cmd = s.cmd := rfl
@[simp] theorem State.answeredKeepingErr_din (d : Word) : (s.answeredKeepingErr d).din = s.din := rfl
@[simp] theorem State.answeredKeepingErr_response (d : Word) : (s.answeredKeepingErr d).response = some { errcode := 0, dout := d } := rfl
@[simp] theorem State.answeredKeepingErr_host (d : Word) : (s.answeredKeepingErr d).host = s.host := rfl

@[simp] theorem State.accept_cfg (c d : Word) (rest : List HostEvent) : (s.accept c d rest).cfg = s.cfg := rfl
@[simp] theorem State.accept_v (c d : Word) (rest : List HostEvent) : (s.accept c d rest).v = s.v := rfl
@[simp] theorem State.accept_n (c d : Word) (rest : List HostEvent) : (s.accept c d rest).n = s.n := rfl
@[simp] theorem State.accept_k (c d : Word) (rest : List HostEvent) : (s.accept c d rest).k = s.k := rfl
@[simp] theorem State.accept_w (c d : Word) (rest : List HostEvent) : (s.accept c d rest).w = s.w := rfl
@[simp] theorem State.accept_z (c d : Word) (rest : List HostEvent) : (s.accept c d rest).z = s.z := rfl
@[simp] theorem State.accept_orth (c d : Word) (rest : List HostEvent) : (s.accept c d rest).orth = s.orth := rfl
@[simp] theorem State.accept_hv (c d : Word) (rest : List HostEvent) : (s.accept c d rest).hv = s.hv := rfl
@[simp] theorem State.accept_tb (c d : Word) (rest : List HostEvent) : (s.accept c d rest).tb = s.tb := rfl
@[simp] theorem State.accept_tcount (c d : Word) (rest : List HostEvent) : (s.accept c d rest).tcount = s.tcount := rfl
@[simp] theorem State.accept_err (c d : Word) (rest : List HostEvent) : (s.accept c d rest).err = s.err := rfl
@[simp] theorem State.accept_errcmd (c d : Word) (rest : List HostEvent) : (s.accept c d rest).errcmd = s.errcmd := rfl
@[simp] theorem State.accept_gmem (c d : Word) (rest : List HostEvent) : (s.accept c d rest).gmem = s.gmem := rfl
@[simp] theorem State.accept_hmem (c d : Word) (rest : List HostEvent) : (s.accept c d rest).hmem = s.hmem := rfl
@[simp] theorem State.accept_tmem (c d : Word) (rest : List HostEvent) : (s.accept c d rest).tmem = s.tmem := rfl
@[simp] theorem State.accept_cmd (c d : Word) (rest : List HostEvent) : (s.accept c d rest).cmd = c := rfl
@[simp] theorem State.accept_din (c d : Word) (rest : List HostEvent) : (s.accept c d rest).din = d := rfl
@[simp] theorem State.accept_response (c d : Word) (rest : List HostEvent) : (s.accept c d rest).response = s.response := rfl
@[simp] theorem State.accept_host (c d : Word) (rest : List HostEvent) : (s.accept c d rest).host = rest := rfl

@[simp] theorem State.setV_N (i : VIdx) (L : BitVec 6) (x : Word) : (s.setV i L x).N = s.N := rfl
@[simp] theorem State.setV_K (i : VIdx) (L : BitVec 6) (x : Word) : (s.setV i L x).K = s.K := rfl
@[simp] theorem State.setV_G (i : VIdx) (L : BitVec 6) (x : Word) (j : Nat) : (s.setV i L x).G j = s.G j := rfl
@[simp] theorem State.setV_H (i : VIdx) (L : BitVec 6) (x : Word) (j : Nat) : (s.setV i L x).H j = s.H j := rfl
@[simp] theorem State.setV_T (i : VIdx) (L : BitVec 6) (x : Word) (j : Nat) : (s.setV i L x).T j = s.T j := rfl
@[simp] theorem State.setV_R (i : VIdx) (L : BitVec 6) (x : Word) : (s.setV i L x).R = s.R := rfl

@[simp] theorem State.setDims_G (a b : Nat) (j : Nat) : (s.setDims a b).G j = s.G j := rfl
@[simp] theorem State.setDims_H (a b : Nat) (j : Nat) : (s.setDims a b).H j = s.H j := rfl
@[simp] theorem State.setDims_T (a b : Nat) (j : Nat) : (s.setDims a b).T j = s.T j := rfl
@[simp] theorem State.setDims_V (a b : Nat) (j : VIdx) : (s.setDims a b).V j = s.V j := rfl

@[simp] theorem State.setW_N (x : BitVec 6) : (s.setW x).N = s.N := rfl
@[simp] theorem State.setW_K (x : BitVec 6) : (s.setW x).K = s.K := rfl
@[simp] theorem State.setW_G (x : BitVec 6) (j : Nat) : (s.setW x).G j = s.G j := rfl
@[simp] theorem State.setW_H (x : BitVec 6) (j : Nat) : (s.setW x).H j = s.H j := rfl
@[simp] theorem State.setW_T (x : BitVec 6) (j : Nat) : (s.setW x).T j = s.T j := rfl
@[simp] theorem State.setW_V (x : BitVec 6) (j : VIdx) : (s.setW x).V j = s.V j := rfl
@[simp] theorem State.setW_R (x : BitVec 6) : (s.setW x).R = s.R := rfl

@[simp] theorem State.setZ_N (b : Bool) : (s.setZ b).N = s.N := rfl
@[simp] theorem State.setZ_K (b : Bool) : (s.setZ b).K = s.K := rfl
@[simp] theorem State.setZ_G (b : Bool) (j : Nat) : (s.setZ b).G j = s.G j := rfl
@[simp] theorem State.setZ_H (b : Bool) (j : Nat) : (s.setZ b).H j = s.H j := rfl
@[simp] theorem State.setZ_T (b : Bool) (j : Nat) : (s.setZ b).T j = s.T j := rfl
@[simp] theorem State.setZ_V (b : Bool) (j : VIdx) : (s.setZ b).V j = s.V j := rfl
@[simp] theorem State.setZ_R (b : Bool) : (s.setZ b).R = s.R := rfl

@[simp] theorem State.setOrth_N (b : Bool) : (s.setOrth b).N = s.N := rfl
@[simp] theorem State.setOrth_K (b : Bool) : (s.setOrth b).K = s.K := rfl
@[simp] theorem State.setOrth_G (b : Bool) (j : Nat) : (s.setOrth b).G j = s.G j := rfl
@[simp] theorem State.setOrth_H (b : Bool) (j : Nat) : (s.setOrth b).H j = s.H j := rfl
@[simp] theorem State.setOrth_T (b : Bool) (j : Nat) : (s.setOrth b).T j = s.T j := rfl
@[simp] theorem State.setOrth_V (b : Bool) (j : VIdx) : (s.setOrth b).V j = s.V j := rfl
@[simp] theorem State.setOrth_R (b : Bool) : (s.setOrth b).R = s.R := rfl

@[simp] theorem State.setG_N (j : Nat) (x : Word) : (s.setG j x).N = s.N := rfl
@[simp] theorem State.setG_K (j : Nat) (x : Word) : (s.setG j x).K = s.K := rfl
@[simp] theorem State.setG_H (j : Nat) (x : Word) (q : Nat) : (s.setG j x).H q = s.H q := rfl
@[simp] theorem State.setG_T (j : Nat) (x : Word) (q : Nat) : (s.setG j x).T q = s.T q := rfl
@[simp] theorem State.setG_V (j : Nat) (x : Word) (q : VIdx) : (s.setG j x).V q = s.V q := rfl
@[simp] theorem State.setG_R (j : Nat) (x : Word) : (s.setG j x).R = s.R := rfl

@[simp] theorem State.zeroG_N : (s.zeroG).N = s.N := rfl
@[simp] theorem State.zeroG_K : (s.zeroG).K = s.K := rfl
@[simp] theorem State.zeroG_H (j : Nat) : (s.zeroG).H j = s.H j := rfl
@[simp] theorem State.zeroG_T (j : Nat) : (s.zeroG).T j = s.T j := rfl
@[simp] theorem State.zeroG_V (j : VIdx) : (s.zeroG).V j = s.V j := rfl
@[simp] theorem State.zeroG_R : (s.zeroG).R = s.R := rfl

@[simp] theorem State.setH_N (i : Nat) (x : Word) : (s.setH i x).N = s.N := rfl
@[simp] theorem State.setH_K (i : Nat) (x : Word) : (s.setH i x).K = s.K := rfl
@[simp] theorem State.setH_G (i : Nat) (x : Word) (j : Nat) : (s.setH i x).G j = s.G j := rfl
@[simp] theorem State.setH_T (i : Nat) (x : Word) (j : Nat) : (s.setH i x).T j = s.T j := rfl
@[simp] theorem State.setH_V (i : Nat) (x : Word) (j : VIdx) : (s.setH i x).V j = s.V j := rfl
@[simp] theorem State.setH_R (i : Nat) (x : Word) : (s.setH i x).R = s.R := rfl

@[simp] theorem State.setHmem_N (h : RowMem) : (s.setHmem h).N = s.N := rfl
@[simp] theorem State.setHmem_K (h : RowMem) : (s.setHmem h).K = s.K := rfl
@[simp] theorem State.setHmem_G (h : RowMem) (j : Nat) : (s.setHmem h).G j = s.G j := rfl
@[simp] theorem State.setHmem_T (h : RowMem) (j : Nat) : (s.setHmem h).T j = s.T j := rfl
@[simp] theorem State.setHmem_V (h : RowMem) (j : VIdx) : (s.setHmem h).V j = s.V j := rfl
@[simp] theorem State.setHmem_R (h : RowMem) : (s.setHmem h).R = s.R := rfl

@[simp] theorem State.setTable_N (t : SlotMem) (c : Nat) : (s.setTable t c).N = s.N := rfl
@[simp] theorem State.setTable_K (t : SlotMem) (c : Nat) : (s.setTable t c).K = s.K := rfl
@[simp] theorem State.setTable_G (t : SlotMem) (c : Nat) (j : Nat) : (s.setTable t c).G j = s.G j := rfl
@[simp] theorem State.setTable_H (t : SlotMem) (c : Nat) (j : Nat) : (s.setTable t c).H j = s.H j := rfl
@[simp] theorem State.setTable_V (t : SlotMem) (c : Nat) (j : VIdx) : (s.setTable t c).V j = s.V j := rfl
@[simp] theorem State.setTable_R (t : SlotMem) (c : Nat) : (s.setTable t c).R = s.R := rfl

@[simp] theorem State.invalidateT_N : (s.invalidateT).N = s.N := rfl
@[simp] theorem State.invalidateT_K : (s.invalidateT).K = s.K := rfl
@[simp] theorem State.invalidateT_G (j : Nat) : (s.invalidateT).G j = s.G j := rfl
@[simp] theorem State.invalidateT_H (j : Nat) : (s.invalidateT).H j = s.H j := rfl
@[simp] theorem State.invalidateT_V (j : VIdx) : (s.invalidateT).V j = s.V j := rfl
@[simp] theorem State.invalidateT_R : (s.invalidateT).R = s.R := rfl

@[simp] theorem State.invalidateH_N : (s.invalidateH).N = s.N := rfl
@[simp] theorem State.invalidateH_K : (s.invalidateH).K = s.K := rfl
@[simp] theorem State.invalidateH_G (j : Nat) : (s.invalidateH).G j = s.G j := rfl
@[simp] theorem State.invalidateH_V (j : VIdx) : (s.invalidateH).V j = s.V j := rfl
@[simp] theorem State.invalidateH_R : (s.invalidateH).R = s.R := rfl

@[simp] theorem State.failed_N (f : Failure) : (s.failed f).N = s.N := rfl
@[simp] theorem State.failed_K (f : Failure) : (s.failed f).K = s.K := rfl
@[simp] theorem State.failed_G (f : Failure) (j : Nat) : (s.failed f).G j = s.G j := rfl
@[simp] theorem State.failed_H (f : Failure) (j : Nat) : (s.failed f).H j = s.H j := rfl
@[simp] theorem State.failed_T (f : Failure) (j : Nat) : (s.failed f).T j = s.T j := rfl
@[simp] theorem State.failed_V (f : Failure) (j : VIdx) : (s.failed f).V j = s.V j := rfl
@[simp] theorem State.failed_R (f : Failure) : (s.failed f).R = s.R := rfl

@[simp] theorem State.answered_N (d : Word) : (s.answered d).N = s.N := rfl
@[simp] theorem State.answered_K (d : Word) : (s.answered d).K = s.K := rfl
@[simp] theorem State.answered_G (d : Word) (j : Nat) : (s.answered d).G j = s.G j := rfl
@[simp] theorem State.answered_H (d : Word) (j : Nat) : (s.answered d).H j = s.H j := rfl
@[simp] theorem State.answered_T (d : Word) (j : Nat) : (s.answered d).T j = s.T j := rfl
@[simp] theorem State.answered_V (d : Word) (j : VIdx) : (s.answered d).V j = s.V j := rfl
@[simp] theorem State.answered_R (d : Word) : (s.answered d).R = s.R := rfl

@[simp] theorem State.answeredKeepingErr_N (d : Word) : (s.answeredKeepingErr d).N = s.N := rfl
@[simp] theorem State.answeredKeepingErr_K (d : Word) : (s.answeredKeepingErr d).K = s.K := rfl
@[simp] theorem State.answeredKeepingErr_G (d : Word) (j : Nat) : (s.answeredKeepingErr d).G j = s.G j := rfl
@[simp] theorem State.answeredKeepingErr_H (d : Word) (j : Nat) : (s.answeredKeepingErr d).H j = s.H j := rfl
@[simp] theorem State.answeredKeepingErr_T (d : Word) (j : Nat) : (s.answeredKeepingErr d).T j = s.T j := rfl
@[simp] theorem State.answeredKeepingErr_V (d : Word) (j : VIdx) : (s.answeredKeepingErr d).V j = s.V j := rfl
@[simp] theorem State.answeredKeepingErr_R (d : Word) : (s.answeredKeepingErr d).R = s.R := rfl

@[simp] theorem State.accept_N (c d : Word) (rest : List HostEvent) : (s.accept c d rest).N = s.N := rfl
@[simp] theorem State.accept_K (c d : Word) (rest : List HostEvent) : (s.accept c d rest).K = s.K := rfl
@[simp] theorem State.accept_G (c d : Word) (rest : List HostEvent) (j : Nat) : (s.accept c d rest).G j = s.G j := rfl
@[simp] theorem State.accept_H (c d : Word) (rest : List HostEvent) (j : Nat) : (s.accept c d rest).H j = s.H j := rfl
@[simp] theorem State.accept_T (c d : Word) (rest : List HostEvent) (j : Nat) : (s.accept c d rest).T j = s.T j := rfl
@[simp] theorem State.accept_V (c d : Word) (rest : List HostEvent) (j : VIdx) : (s.accept c d rest).V j = s.V j := rfl
@[simp] theorem State.accept_R (c d : Word) (rest : List HostEvent) : (s.accept c d rest).R = s.R := rfl

/-- A vector register after a write: the written one, or the old one. -/
theorem State.setV_V (i : VIdx) (L : BitVec 6) (x : Word) (j : VIdx) :
    (s.setV i L x).V j = if i = j then { len := L, bits := x } else s.V j := by
  simp only [State.V, State.setV_v, Fin.getElem_fin, Vector.getElem_set, Fin.val_inj]

@[simp] theorem State.setV_V_same (i : VIdx) (L : BitVec 6) (x : Word) :
    (s.setV i L x).V i = { len := L, bits := x } := by simp [State.setV_V]

theorem State.setV_V_other (i : VIdx) (L : BitVec 6) (x : Word) (j : VIdx) (h : i ≠ j) :
    (s.setV i L x).V j = s.V j := by simp [State.setV_V, h]

/-- The reads of the reset state (R231). -/
@[simp] theorem State.resetOf_V (c : Config) (i : VIdx) : (State.resetOf c).V i = { len := 0, bits := 0 } := by
  simp [State.V, State.resetOf]
@[simp] theorem State.resetOf_N (c : Config) : (State.resetOf c).N = 0 := rfl
@[simp] theorem State.resetOf_K (c : Config) : (State.resetOf c).K = 0 := rfl
@[simp] theorem State.resetOf_G (c : Config) (j : Nat) : (State.resetOf c).G j = 0 := rfl
@[simp] theorem State.resetOf_H (c : Config) (j : Nat) : (State.resetOf c).H j = 0 := rfl
@[simp] theorem State.resetOf_T (c : Config) (x : Nat) : (State.resetOf c).T x = none := rfl

/-- `raise` and `respond` answer a next state: what each does to the fields is above. -/
theorem State.raise_eq (f : Failure) : s.raise f = .next (s.failed f) := rfl
theorem State.respond_eq (d : Word) : s.respond d = .next (s.answered d) := rfl
theorem State.respondKeepingErr_eq (d : Word) : s.respondKeepingErr d = .next (s.answeredKeepingErr d) := rfl

end Sys2Proof.Machine
end

