-- ==== Sys2Proof/Laws/Bits.lean ====
section
/-! SUPPORT. Bits of words: mask, one-hot words, popcount, parity, and the sum of bits mod 2 (spec/00_scope.md R9, R10;
spec/41_matrix_algebra.md R120, R121). -/

namespace Sys2Proof.Machine

/-! ### Single bits -/

theorem getLsbD_ge (x : Word) {i : Nat} (h : 32 ≤ i) : x.getLsbD i = false :=
  BitVec.getLsbD_of_ge x i h

@[simp] theorem getLsbD_oneAt (i j : Nat) : (oneAt i).getLsbD j = decide (i = j ∧ j < 32) := by
  unfold oneAt
  by_cases h : j < 32
  · by_cases h2 : j < i
    · have : i ≠ j := by omega
      simp [h, h2, this]
    · by_cases h3 : i = j
      · simp [h3, h]
      · have : j - i ≠ 0 := by omega
        simp [h, h2, h3, this]
  · rw [getLsbD_ge _ (by omega)]
    simp [h]

@[simp] theorem getLsbD_mask (L j : Nat) : (mask L).getLsbD j = decide (j < L ∧ j < 32) := by
  unfold mask
  rw [BitVec.getLsbD_ofNat, Nat.testBit_two_pow_sub_one, Bool.decide_and, Bool.and_comm]

@[simp] theorem getLsbD_bitWord_shift (b : Bool) (i j : Nat) :
    (bitWord b <<< i).getLsbD j = (b && decide (i = j ∧ j < 32)) := by
  cases b
  · simp [bitWord]
  · simpa [bitWord, oneAt] using getLsbD_oneAt i j

theorem getLsbD_bitWord (b : Bool) (j : Nat) :
    (bitWord b).getLsbD j = (b && decide (0 = j)) := by
  have h := getLsbD_bitWord_shift b 0 j
  simp only [BitVec.shiftLeft_zero] at h
  rw [h]
  by_cases h0 : 0 = j <;> simp [h0]
  omega

/-- Two words with the same 32 bits are equal. -/
theorem word_ext {x y : Word} (h : ∀ i, i < 32 → x.getLsbD i = y.getLsbD i) : x = y :=
  BitVec.eq_of_getLsbD_eq h

/-- No bit at or above L: the form R42 writes it in, and the form claims use. -/
theorem outside_mask_iff (x : Word) (L : Nat) : x &&& ~~~mask L = 0 ↔ IsVector L x := by
  constructor
  · intro h i hi
    by_cases h32 : i < 32
    · have h2 := congrArg (fun y : Word => y.getLsbD i) h
      simp only [BitVec.getLsbD_and, BitVec.getLsbD_not, getLsbD_mask, h32, show ¬i < L by omega] at h2
      simpa only [false_and, decide_false, Bool.not_false, Bool.and_true, decide_true,
        BitVec.ofNat_eq_ofNat, BitVec.getLsbD_zero] using h2
    · exact getLsbD_ge _ (by omega)
  · intro h
    apply word_ext
    intro i hi
    by_cases hL : i < L
    · simp [hL, hi]
    · have := h i (by omega)
      simp only [bit] at this
      simp [this]

theorem IsVector.xor {n : Nat} {x y : Word} (hx : IsVector n x) (hy : IsVector n y) :
    IsVector n (x ^^^ y) := fun i hi => by
  have h1 := hx i hi
  have h2 := hy i hi
  simp only [bit] at h1 h2
  simp [h1, h2]

theorem IsVector.zero (n : Nat) : IsVector n 0 := fun i _ => by simp

theorem IsVector.oneAt {n i : Nat} (h : i < n) : IsVector n (oneAt i) := fun j hj => by
  simp; omega

theorem IsVector.mono {n m : Nat} {x : Word} (hx : IsVector n x) (h : n ≤ m) : IsVector m x :=
  fun i hi => hx i (by omega)

theorem IsVector.and_mask (n : Nat) (x : Word) : IsVector n (x &&& mask n) := fun i hi => by
  simp; omega

/-- A vector of length n is a number below 2^n, and the other way round. -/
theorem IsVector.toNat_lt {n : Nat} {x : Word} (hx : IsVector n x) : x.toNat < 2 ^ n := by
  apply Nat.lt_pow_two_of_testBit
  intro i hi
  exact hx i hi

theorem isVector_of_toNat_lt {n : Nat} {x : Word} (h : x.toNat < 2 ^ n) : IsVector n x := fun i hi => by
  have h2 : (2 : Nat) ^ n ≤ 2 ^ i := Nat.pow_le_pow_right (by decide) hi
  exact Nat.testBit_lt_two_pow (lt_of_lt_of_le h h2)

/-! ### Sums mod 2 -/

@[simp] theorem sumMod2_zero (f : Nat → Bool) : sumMod2 0 f = false := by simp [sumMod2]

theorem sumMod2_succ (n : Nat) (f : Nat → Bool) : sumMod2 (n + 1) f = (sumMod2 n f ^^ f n) := by
  unfold sumMod2
  rw [Finset.range_add_one, Finset.filter_insert]
  by_cases h : f n = true
  · rw [if_pos h, Finset.card_insert_of_notMem (by simp), h]
    by_cases h2 : ((Finset.range n).filter (fun j => f j = true)).card % 2 = 1
    · simp [h2]; omega
    · simp [h2]; omega
  · rw [if_neg h]
    simp [Bool.not_eq_true] at h
    simp [h]

theorem sumMod2_congr {n : Nat} {f g : Nat → Bool} (h : ∀ i, i < n → f i = g i) :
    sumMod2 n f = sumMod2 n g := by
  induction n with
  | zero => simp
  | succ n ih => rw [sumMod2_succ, sumMod2_succ, ih fun i hi => h i (by omega), h n (by omega)]

theorem sumMod2_xor (n : Nat) (f g : Nat → Bool) :
    sumMod2 n (fun i => f i ^^ g i) = (sumMod2 n f ^^ sumMod2 n g) := by
  induction n with
  | zero => simp
  | succ n ih =>
    rw [sumMod2_succ, sumMod2_succ, sumMod2_succ, ih]
    cases sumMod2 n f <;> cases sumMod2 n g <;> cases f n <;> cases g n <;> rfl

theorem sumMod2_false (n : Nat) : sumMod2 n (fun _ => false) = false := by
  induction n with
  | zero => simp
  | succ n ih => rw [sumMod2_succ, ih]; rfl

theorem sumMod2_and_left (n : Nat) (b : Bool) (f : Nat → Bool) :
    sumMod2 n (fun i => b && f i) = (b && sumMod2 n f) := by
  cases b
  · simpa using sumMod2_false n
  · simp

/-- A sum with one nonzero term. -/
theorem sumMod2_single (n p : Nat) (f : Nat → Bool) (h : ∀ i, i < n → i ≠ p → f i = false) :
    sumMod2 n f = (decide (p < n) && f p) := by
  induction n with
  | zero => simp
  | succ n ih =>
    rw [sumMod2_succ, ih fun i hi hp => h i (by omega) hp]
    by_cases hp : n = p
    · subst hp; simp
    · rw [h n (by omega) hp]
      have : p < n + 1 ↔ p < n := by omega
      simp [this]

/-- Terms that are 0 may be left out. -/
theorem sumMod2_extend {n m : Nat} (hnm : n ≤ m) (f : Nat → Bool) (h : ∀ i, n ≤ i → f i = false) :
    sumMod2 m f = sumMod2 n f := by
  induction m with
  | zero => rw [show n = 0 by omega]
  | succ m ih =>
    by_cases hm : n = m + 1
    · rw [hm]
    · rw [sumMod2_succ, ih (by omega), h m (by omega)]; simp

/-- The order of two sums may be exchanged. -/
theorem sumMod2_comm (n m : Nat) (f : Nat → Nat → Bool) :
    sumMod2 n (fun i => sumMod2 m (fun j => f i j)) = sumMod2 m (fun j => sumMod2 n (fun i => f i j)) := by
  induction n with
  | zero => simp [sumMod2_false]
  | succ n ih =>
    rw [sumMod2_succ, ih, ← sumMod2_xor]
    exact sumMod2_congr fun j _ => (sumMod2_succ n (fun i => f i j)).symm

/-! ### popcount, parity, dot -/

theorem popcountBelow_eq_card (x : Word) (L : Nat) :
    popcountBelow x L = ((Finset.range L).filter (fun i => bit x i = true)).card := by
  induction L with
  | zero => simp [popcountBelow]
  | succ L ih =>
    rw [popcountBelow, ih, Finset.range_add_one, Finset.filter_insert]
    cases h : x.getLsbD L
    · simp [bit, h]
    · rw [if_pos (by simpa [bit] using h), Finset.card_insert_of_notMem (by simp)]
      simp

theorem popcount_eq_ones (x : Word) : popcount x = ones x := popcountBelow_eq_card x 32

theorem weight_eq_ones (x : Word) : weight x = ones x := popcount_eq_ones x

theorem ones_le (x : Word) : ones x ≤ 32 := by
  unfold ones
  exact le_trans (Finset.card_filter_le _ _) (by simp)

theorem ones_le_of_isVector {n : Nat} {x : Word} (h : IsVector n x) : ones x ≤ n := by
  unfold ones
  calc _ ≤ (Finset.range n).card := by
        apply Finset.card_le_card
        intro i hi
        simp only [Finset.mem_filter, Finset.mem_range] at hi ⊢
        by_contra hn
        have := h i (by omega)
        simp [this] at hi
    _ = n := by simp

@[simp] theorem ones_zero : ones 0#32 = 0 := by simp [ones, bit]

theorem ones_eq_zero_iff (x : Word) : ones x = 0 ↔ x = 0 := by
  constructor
  · intro h
    apply word_ext
    intro i hi
    have := Finset.card_eq_zero.1 h
    have hi2 : i ∉ (Finset.range 32).filter (fun i => bit x i = true) := by simp [this]
    simp only [Finset.mem_filter, Finset.mem_range, hi, true_and, bit, Bool.not_eq_true] at hi2
    rw [hi2]
    simp
  · rintro rfl; exact ones_zero

/-- Flipping a position that is one takes one off the weight; flipping one that is zero adds one. -/
theorem ones_xor_oneAt {x : Word} {i : Nat} (hi : i < 32) :
    ones (x ^^^ oneAt i) = if bit x i then ones x - 1 else ones x + 1 := by
  have key : ((Finset.range 32).filter (fun j => bit (x ^^^ oneAt i) j = true))
      = if bit x i then ((Finset.range 32).filter (fun j => bit x j = true)).erase i
        else insert i ((Finset.range 32).filter (fun j => bit x j = true)) := by
    ext j
    have hx : bit (x ^^^ oneAt i) j = (bit x j ^^ decide (i = j)) := by
      simp only [bit, BitVec.getLsbD_xor, getLsbD_oneAt]
      congr 2
      simp only [eq_iff_iff, and_iff_left_iff_imp]
      omega
    by_cases hij : i = j
    · subst hij
      cases hb : bit x i
      · simp only [Finset.mem_filter, Finset.mem_range, hx, hb, hi]
        simp
      · simp only [Finset.mem_filter, Finset.mem_range, hx, hb, hi, if_true, Finset.mem_erase]
        simp
    · have hji : ¬j = i := fun h => hij h.symm
      cases hb : bit x i
      · simp only [Finset.mem_filter, Finset.mem_range, hx, hij]
        simp [hji]
      · simp only [Finset.mem_filter, Finset.mem_range, hx, hij, if_true, Finset.mem_erase]
        simp [hji]
  unfold ones
  rw [key]
  split_ifs with hb
  · rw [Finset.card_erase_of_mem (by simp [hi, hb])]
  · rw [Finset.card_insert_of_notMem (by simp [hb])]

theorem parity_eq_sumMod2 (x : Word) : parity x = sumMod2 32 (fun i => bit x i) := by
  unfold parity sumMod2
  rw [popcount_eq_ones, ones]
  rfl

theorem parity_xor (x y : Word) : parity (x ^^^ y) = (parity x ^^ parity y) := by
  rw [parity_eq_sumMod2, parity_eq_sumMod2, parity_eq_sumMod2, ← sumMod2_xor]
  exact sumMod2_congr fun i _ => by simp [bit]

@[simp] theorem parity_zero : parity 0#32 = false := by decide

theorem dot_eq_sumMod2 (a b : Word) : dot a b = sumMod2 32 (fun j => bit a j && bit b j) := by
  unfold dot
  rw [parity_eq_sumMod2]
  exact sumMod2_congr fun i _ => by simp [bit]

/-- The sum may stop at the length of either vector. -/
theorem dot_eq_sumMod2_of_isVector {n : Nat} {a b : Word} (hb : IsVector n b) :
    dot a b = sumMod2 n (fun j => bit a j && bit b j) := by
  rw [dot_eq_sumMod2]
  rcases le_total n 32 with h | h
  · exact sumMod2_extend h _ fun i hi => by simp [hb i hi]
  · exact (sumMod2_extend h _ fun i hi => by simp [bit, getLsbD_ge a hi]).symm

theorem dot_comm (a b : Word) : dot a b = dot b a := by
  unfold dot
  rw [BitVec.and_comm]

theorem dot_xor_right (a x y : Word) : dot a (x ^^^ y) = (dot a x ^^ dot a y) := by
  unfold dot
  rw [← parity_xor]
  congr 1
  apply word_ext
  intro i hi
  simp [Bool.and_xor_distrib_left]

@[simp] theorem dot_zero_right (a : Word) : dot a 0#32 = false := by simp [dot]
@[simp] theorem dot_zero_left (a : Word) : dot 0#32 a = false := by simp [dot]

theorem dot_oneAt (a : Word) {i : Nat} (hi : i < 32) : dot a (oneAt i) = bit a i := by
  rw [dot_eq_sumMod2, sumMod2_single 32 i]
  · simp [hi, bit]
  · intro j _ hj
    simp [bit]
    intro _ h
    exact absurd h.symm hj

end Sys2Proof.Machine
end

