-- ==== Sys2Proof/Laws/Combinations.lean ====
section
/-! SUPPORT. The enumeration of patterns (spec/43_coset_leader_table.md R162): which lists `combinations` holds, which words
`patterns` holds, and in which order. -/

namespace Sys2Proof.Machine

/-- The lists of `combinationsFrom`: strictly rising, w long, inside [lo, lo + m). -/
theorem mem_combinationsFrom {m lo w : Nat} {c : List Nat} :
    c ∈ combinationsFrom m lo w ↔
      c.length = w ∧ c.Pairwise (· < ·) ∧ ∀ x ∈ c, lo ≤ x ∧ x < lo + m := by
  induction m generalizing lo w c with
  | zero =>
    cases w with
    | zero =>
      simp only [combinationsFrom, List.mem_singleton]
      constructor
      · rintro rfl; simp
      · rintro ⟨h, -⟩; exact List.length_eq_zero_iff.1 h
    | succ w =>
      simp only [combinationsFrom, List.not_mem_nil, false_iff]
      rintro ⟨h1, -, h3⟩
      obtain ⟨x, hx⟩ := List.exists_mem_of_length_pos (l := c) (by omega)
      have := h3 x hx
      omega
  | succ m ih =>
    cases w with
    | zero =>
      simp only [combinationsFrom, List.mem_singleton]
      constructor
      · rintro rfl; simp
      · rintro ⟨h, -⟩; exact List.length_eq_zero_iff.1 h
    | succ w =>
      simp only [combinationsFrom, List.mem_append, List.mem_map]
      constructor
      · rintro (⟨d, hd, rfl⟩ | hd)
        · obtain ⟨h1, h2, h3⟩ := ih.1 hd
          refine ⟨by simp [h1], List.pairwise_cons.2 ⟨fun x hx => ?_, h2⟩, fun x hx => ?_⟩
          · have := h3 x hx; omega
          · rcases List.mem_cons.1 hx with rfl | hx
            · omega
            · have := h3 x hx; omega
        · obtain ⟨h1, h2, h3⟩ := ih.1 hd
          refine ⟨h1, h2, fun x hx => ?_⟩
          have := h3 x hx; omega
      · rintro ⟨h1, h2, h3⟩
        cases c with
        | nil => simp at h1
        | cons a d =>
          obtain ⟨h4, h5⟩ := List.pairwise_cons.1 h2
          have ha := h3 a (by simp)
          by_cases hlo : a = lo
          · left
            refine ⟨d, ih.2 ⟨by simpa using h1, h5, fun x hx => ?_⟩, by rw [hlo]⟩
            have e1 := h4 x hx
            have e2 := h3 x (List.mem_cons_of_mem _ hx)
            omega
          · right
            refine ih.2 ⟨h1, h2, fun x hx => ?_⟩
            have e2 := h3 x hx
            rcases List.mem_cons.1 hx with rfl | hx
            · omega
            · have e1 := h4 x hx
              omega

theorem length_combinationsFrom (m lo w : Nat) : (combinationsFrom m lo w).length = m.choose w := by
  induction m generalizing lo w with
  | zero => cases w <;> simp [combinationsFrom]
  | succ m ih =>
    cases w with
    | zero => simp [combinationsFrom]
    | succ w => simp [combinationsFrom, ih, Nat.choose_succ_succ]

/-- Bit i of a pattern is one iff i is among its positions. -/
theorem patternBits_bit (c : List Nat) (i : Nat) : bit (patternBits c) i = decide (i ∈ c ∧ i < 32) := by
  induction c with
  | nil => simp [patternBits, bit]
  | cons a c ih =>
    simp only [bit] at ih
    simp only [patternBits, bit, BitVec.getLsbD_or, ih, getLsbD_oneAt, List.mem_cons, ← Bool.decide_or]
    exact decide_eq_decide.2 (by constructor <;> rintro h <;> (rcases h with h | h <;> simp_all))

/-- A pattern has as many ones as its list has positions. -/
theorem ones_patternBits {c : List Nat} (h1 : c.Nodup) (h2 : ∀ x ∈ c, x < 32) :
    ones (patternBits c) = c.length := by
  have key : (Finset.range 32).filter (fun i => bit (patternBits c) i = true) = c.toFinset := by
    ext i
    rw [Finset.mem_filter, patternBits_bit]
    simp only [Finset.mem_range, decide_eq_true_eq, List.mem_toFinset]
    exact ⟨fun h => h.2.1, fun h => ⟨h2 i h, h, h2 i h⟩⟩
  rw [ones, key, List.toFinset_card_of_nodup h1]

theorem nodup_of_rising {c : List Nat} (h : c.Pairwise (· < ·)) : c.Nodup :=
  h.imp fun hlt => Nat.ne_of_lt hlt

/-- The words of `patterns n w` are the vectors of length n and weight w. -/
theorem mem_patterns {n w : Nat} (hn : n ≤ 32) {p : Word} :
    p ∈ patterns n w ↔ IsVector n p ∧ ones p = w := by
  simp only [patterns, combinations, List.mem_map]
  constructor
  · rintro ⟨c, hc, rfl⟩
    obtain ⟨h1, h2, h3⟩ := mem_combinationsFrom.1 hc
    refine ⟨fun i hi => ?_, ?_⟩
    · rw [patternBits_bit]
      simp only [decide_eq_false_iff_not, not_and]
      intro hm
      have := h3 i hm
      omega
    · rw [ones_patternBits (nodup_of_rising h2) fun x hx => by have := h3 x hx; omega, h1]
  · rintro ⟨h1, h2⟩
    have hm : ∀ i, i ∈ (List.range 32).filter (fun i => bit p i) ↔ bit p i = true := fun i => by
      rw [List.mem_filter, List.mem_range]
      refine ⟨fun h => h.2, fun h => ⟨?_, h⟩⟩
      by_contra hc
      rw [bit, getLsbD_ge p (by omega)] at h
      exact absurd h (by decide)
    have hnd : ((List.range 32).filter (fun i => bit p i)).Nodup := List.nodup_range.filter _
    refine ⟨(List.range 32).filter (fun i => bit p i), mem_combinationsFrom.2 ⟨?_, ?_, fun x hx => ?_⟩, ?_⟩
    · rw [← h2, ones, ← List.toFinset_card_of_nodup hnd]
      congr 1
      ext i
      simp
    · exact List.pairwise_lt_range.filter _
    · have hb := (hm x).1 hx
      by_contra hc
      rw [h1 x (by omega)] at hb
      exact absurd hb (by decide)
    · apply word_ext
      intro i hi
      have e := patternBits_bit ((List.range 32).filter (fun i => bit p i)) i
      simp only [bit] at e hm
      rw [e]
      cases hb : p.getLsbD i
      · simp [hb]
      · simp [hb, hi]

/-! ### The order -/

theorem Before.or_same {p q b : Word} {k : Nat} (h : Before p q) (hp : ∀ j, j ≤ k → bit p j = false)
    (hb : ∀ j, k < j → bit b j = false) :
    Before (b ||| p) (b ||| q) := by
  obtain ⟨i, h1, h2, h3⟩ := h
  have hik : k < i := by
    by_contra hc
    rw [hp i (by omega)] at h1
    exact absurd h1 (by decide)
  have hbi := hb i hik
  simp only [bit] at h1 h2 h3 hbi
  refine ⟨i, ?_, ?_, fun j hj => ?_⟩
  · simp only [bit, BitVec.getLsbD_or, h1, Bool.or_true]
  · simp only [bit, BitVec.getLsbD_or, h2, hbi, Bool.or_false]
  · simp only [bit, BitVec.getLsbD_or, h3 j hj]

theorem Before.trans {p q r : Word} (h1 : Before p q) (h2 : Before q r) : Before p r := by
  obtain ⟨i, a1, a2, a3⟩ := h1
  obtain ⟨j, b1, b2, b3⟩ := h2
  rcases lt_trichotomy i j with h | h | h
  · exact ⟨i, a1, (b3 i h).symm.trans a2, fun k hk => (a3 k hk).trans (b3 k (by omega))⟩
  · subst h
    rw [a2] at b1
    exact absurd b1 (by decide)
  · exact ⟨j, (a3 j h).trans b1, b2, fun k hk => (a3 k (by omega)).trans (b3 k hk)⟩

theorem Before.irrefl (p : Word) : ¬Before p p := by
  rintro ⟨i, h1, h2, -⟩
  rw [h1] at h2
  exact absurd h2 (by decide)

theorem Before.asymm {p q : Word} (h : Before p q) : ¬Before q p :=
  fun h2 => Before.irrefl p (h.trans h2)

/-- Two different words are in one order or the other. -/
theorem before_total {p q : Word} (h : p ≠ q) : Before p q ∨ Before q p := by
  have hex : ∃ i, bit p i ≠ bit q i := by
    by_contra hc
    push Not at hc
    exact h (word_ext fun i _ => hc i)
  classical
  have h1 := Nat.find_spec hex
  have h2 : ∀ j, j < Nat.find hex → bit p j = bit q j := fun j hj => by
    have := Nat.find_min hex hj
    simpa using this
  cases hp : bit p (Nat.find hex)
  · right
    refine ⟨Nat.find hex, ?_, hp, fun j hj => (h2 j hj).symm⟩
    rw [hp] at h1
    simpa using h1
  · left
    refine ⟨Nat.find hex, hp, ?_, h2⟩
    rw [hp] at h1
    simpa using h1

/-- The patterns of one weight come in the order of R162. -/
theorem combinationsFrom_ordered (m lo w : Nat) (h32 : lo + m ≤ 32) :
    (combinationsFrom m lo w).Pairwise (fun c d => Before (patternBits c) (patternBits d)) := by
  induction m generalizing lo w with
  | zero => cases w <;> simp [combinationsFrom]
  | succ m ih =>
    cases w with
    | zero => simp [combinationsFrom]
    | succ w =>
      have low : ∀ {v : Nat} {c : List Nat}, c ∈ combinationsFrom m (lo + 1) v →
          ∀ j, j ≤ lo → bit (patternBits c) j = false := fun hc j hj => by
        rw [patternBits_bit]
        simp only [decide_eq_false_iff_not, not_and]
        intro hm
        have := (mem_combinationsFrom.1 hc).2.2 j hm
        omega
      simp only [combinationsFrom]
      refine List.pairwise_append.2 ⟨?_, ih _ _ (by omega), ?_⟩
      · rw [List.pairwise_map]
        refine (List.Pairwise.and_mem.1 (ih (lo + 1) w (by omega))).imp fun {c d} hcd => ?_
        exact Before.or_same hcd.2.2 (low hcd.1) fun j hj => by
          simp [bit]; omega
      · intro c hc d hd
        obtain ⟨e, he, rfl⟩ := List.mem_map.1 hc
        refine ⟨lo, ?_, low hd lo le_rfl, fun j hj => ?_⟩
        · rw [patternBits_bit]; simp; omega
        · rw [low hd j (by omega), patternBits_bit]
          simp only [decide_eq_false_iff_not, not_and, List.mem_cons]
          rintro (rfl | hm)
          · omega
          · have := (mem_combinationsFrom.1 he).2.2 j hm
            omega

theorem patterns_ordered {n : Nat} (hn : n ≤ 32) (w : Nat) : (patterns n w).Pairwise Before := by
  unfold patterns
  rw [List.pairwise_map]
  exact combinationsFrom_ordered n 0 w (by omega)

end Sys2Proof.Machine
end

