-- ==== Sys2Proof/Laws/Memory.lean ====
section
/-! SUPPORT. The laws of the sparse memories: a read after a write, that a write leaves every other index alone, and that
every operation keeps the canonical form (spec/20_memory.md R66, R69). -/

namespace Sys2Proof.Machine

namespace Memory

variable {α : Type}

theorem find_insert (m : Memory α) (i j : Nat) (y : α) :
    find (insert m i y) j = if i = j then some y else find m j := by
  induction m with
  | nil => simp [insert, find]
  | cons e m ih =>
    obtain ⟨a, x⟩ := e
    rcases lt_trichotomy a i with h | h | h
    · have hc : a = j → i ≠ j := by omega
      by_cases h3 : a = j <;> simp_all [insert, find]
    · subst h
      by_cases h3 : a = j <;> simp [insert, find, h3]
    · have h1 : ¬a < i := by omega
      have h2 : a ≠ i := by omega
      simp [insert, find, h1, h2]

theorem find_erase (m : Memory α) (i j : Nat) :
    find (erase m i) j = if i = j then none else find m j := by
  induction m with
  | nil => simp [erase, find]
  | cons e m ih =>
    obtain ⟨a, x⟩ := e
    by_cases h1 : a = i
    · subst h1
      by_cases h2 : a = j <;> simp_all [erase, find]
    · have hc : a = j → i ≠ j := by omega
      by_cases h2 : a = j <;> simp_all [erase, find]

theorem mem_insert {m : Memory α} {i : Nat} {y : α} {e : Nat × α} (h : e ∈ insert m i y) :
    e = (i, y) ∨ e ∈ m := by
  induction m with
  | nil => simpa [insert] using h
  | cons d m ih =>
    obtain ⟨a, x⟩ := d
    simp only [insert] at h
    split_ifs at h with h1 h2
    · rcases List.mem_cons.1 h with h | h
      · simp [h]
      · rcases ih h with h | h <;> simp [h]
    · rcases List.mem_cons.1 h with h | h <;> simp [h]
    · rcases List.mem_cons.1 h with h | h
      · simp [h]
      · exact .inr h

theorem mem_erase {m : Memory α} {i : Nat} {e : Nat × α} (h : e ∈ erase m i) : e ∈ m := by
  induction m with
  | nil => simp [erase] at h
  | cons d m ih =>
    obtain ⟨a, x⟩ := d
    simp only [erase] at h
    split_ifs at h
    · exact List.mem_cons_of_mem _ (ih h)
    · rcases List.mem_cons.1 h with h | h
      · simp [h]
      · exact List.mem_cons_of_mem _ (ih h)

theorem rising_insert {m : Memory α} (i : Nat) (y : α)
    (h : m.Pairwise (fun e f => e.1 < f.1)) : (insert m i y).Pairwise (fun e f => e.1 < f.1) := by
  induction m with
  | nil => simp [insert]
  | cons d m ih =>
    obtain ⟨a, x⟩ := d
    obtain ⟨h1, h2⟩ := List.pairwise_cons.1 h
    simp only [insert]
    split_ifs with hai hai'
    · refine List.pairwise_cons.2 ⟨fun e he => ?_, ih h2⟩
      rcases mem_insert he with rfl | he
      · exact hai
      · exact h1 e he
    · subst hai'
      exact List.pairwise_cons.2 ⟨h1, h2⟩
    · refine List.pairwise_cons.2 ⟨fun e he => ?_, h⟩
      rcases List.mem_cons.1 he with rfl | he
      · show i < a; omega
      · have h3 := h1 e he
        show i < e.1
        simp only at h3
        omega

theorem rising_erase {m : Memory α} (i : Nat)
    (h : m.Pairwise (fun e f => e.1 < f.1)) : (erase m i).Pairwise (fun e f => e.1 < f.1) := by
  induction m with
  | nil => simp [erase]
  | cons d m ih =>
    obtain ⟨a, x⟩ := d
    obtain ⟨h1, h2⟩ := List.pairwise_cons.1 h
    simp only [erase]
    split_ifs
    · exact ih h2
    · exact List.pairwise_cons.2 ⟨fun e he => h1 e (mem_erase he), ih h2⟩

theorem wf_insert {blank : α → Bool} {m : Memory α} (i : Nat) {y : α} (hy : blank y = false)
    (h : wf blank m) : wf blank (insert m i y) := by
  refine ⟨rising_insert i y h.1, fun e he => ?_⟩
  rcases mem_insert he with rfl | he
  · exact hy
  · exact h.2 e he

theorem wf_erase {blank : α → Bool} {m : Memory α} (i : Nat) (h : wf blank m) :
    wf blank (erase m i) :=
  ⟨rising_erase i h.1, fun e he => h.2 e (mem_erase he)⟩

/-- What a memory reads at an index is one of its entries. -/
theorem mem_of_find {m : Memory α} {i : Nat} {x : α} (h : find m i = some x) : (i, x) ∈ m := by
  induction m with
  | nil => simp [find] at h
  | cons d m ih =>
    obtain ⟨a, y⟩ := d
    simp only [find] at h
    split_ifs at h with h1
    · simp_all
    · exact List.mem_cons_of_mem _ (ih h)

/-- In canonical form every entry is what the memory reads at its index. -/
theorem find_of_mem {m : Memory α} (h : m.Pairwise (fun e f => e.1 < f.1)) {i : Nat} {x : α}
    (hm : (i, x) ∈ m) : find m i = some x := by
  induction m with
  | nil => simp at hm
  | cons d m ih =>
    obtain ⟨a, y⟩ := d
    obtain ⟨h1, h2⟩ := List.pairwise_cons.1 h
    simp only [find]
    rcases List.mem_cons.1 hm with he | he
    · simp_all
    · have h3 := h1 _ he
      simp only at h3
      rw [if_neg (by omega), ih h2 he]

/-- A new index makes the list one longer; an index already listed leaves its length. -/
theorem length_insert {m : Memory α} (h : m.Pairwise (fun e f => e.1 < f.1)) (i : Nat) (y : α) :
    (insert m i y).length = if find m i = none then m.length + 1 else m.length := by
  induction m with
  | nil => simp [insert, find]
  | cons d m ih =>
    obtain ⟨a, x⟩ := d
    obtain ⟨h1, h2⟩ := List.pairwise_cons.1 h
    simp only [insert]
    split_ifs with hai hn hai' hn hn
    · simp only [find, if_neg (show a ≠ i by omega)] at hn
      simp [ih h2, hn]
    · simp only [find, if_neg (show a ≠ i by omega)] at hn
      simp [ih h2, hn]
    · simp [find, hai'] at hn
    · simp
    · simp
    · simp only [find, if_neg hai'] at hn
      obtain ⟨z, hz⟩ := Option.ne_none_iff_exists'.1 hn
      have h3 := h1 _ (mem_of_find hz)
      simp only at h3
      omega

/-- Two memories in canonical form that read alike everywhere are equal data. -/
theorem ext_of_wf {m m' : Memory α} (h : m.Pairwise (fun e f => e.1 < f.1))
    (h' : m'.Pairwise (fun e f => e.1 < f.1)) (hr : ∀ i, find m i = find m' i) : m = m' := by
  induction m generalizing m' with
  | nil =>
    cases m' with
    | nil => rfl
    | cons d m' =>
      obtain ⟨a, x⟩ := d
      have := hr a
      simp [find] at this
  | cons d m ih =>
    obtain ⟨a, x⟩ := d
    cases m' with
    | nil =>
      have := hr a
      simp [find] at this
    | cons d' m' =>
      obtain ⟨b, y⟩ := d'
      obtain ⟨h1, h2⟩ := List.pairwise_cons.1 h
      obtain ⟨h1', h2'⟩ := List.pairwise_cons.1 h'
      have hab : a = b := by
        have ha := hr a
        have hb := hr b
        simp only [find, if_true] at ha hb
        by_contra hne
        rw [if_neg (fun hh => hne hh.symm)] at ha
        rw [if_neg hne] at hb
        have e1 := h1' _ (mem_of_find ha.symm)
        have e2 := h1 _ (mem_of_find hb)
        simp only at e1 e2
        omega
      subst hab
      have hx : x = y := by simpa [find] using hr a
      subst hx
      congr 1
      refine ih h2 h2' fun i => ?_
      by_cases hi : a = i
      · subst hi
        have n1 : find m a = none := by
          by_contra hc
          obtain ⟨z, hz⟩ := Option.ne_none_iff_exists'.1 hc
          have := h1 _ (mem_of_find hz)
          simp at this
        have n2 : find m' a = none := by
          by_contra hc
          obtain ⟨z, hz⟩ := Option.ne_none_iff_exists'.1 hc
          have := h1' _ (mem_of_find hz)
          simp at this
        rw [n1, n2]
      · simpa [find, hi] using hr i

end Memory

namespace RowMem

theorem read_write (m : RowMem) (i j : Nat) (x : Word) :
    (m.write i x).read j = if i = j then x else m.read j := by
  unfold write read
  split_ifs with h1 h2 h2
  · simp [Memory.find_erase, h2, h1]
  · simp [Memory.find_erase, h2]
  · simp [Memory.find_insert, h2]
  · simp [Memory.find_insert, h2]

@[simp] theorem read_write_same (m : RowMem) (i : Nat) (x : Word) : (m.write i x).read i = x := by
  simp [read_write]

theorem read_write_other (m : RowMem) {i j : Nat} (x : Word) (h : i ≠ j) :
    (m.write i x).read j = m.read j := by
  simp [read_write, h]

@[simp] theorem read_zero (i : Nat) : RowMem.zero.read i = 0 := rfl

theorem wf_zero : RowMem.zero.wf := by simp [RowMem.zero, wf, Memory.wf]

/-- A row write keeps the canonical form. -/
theorem wf_write {m : RowMem} (h : m.wf) (i : Nat) (x : Word) : (m.write i x).wf := by
  unfold write
  split_ifs with h1
  · exact Memory.wf_erase i h
  · exact Memory.wf_insert i (by simpa using h1) h

/-- A listed row is not 0, and is what its index reads. -/
theorem read_of_mem {m : RowMem} (h : m.wf) {i : Nat} {x : Word} (hm : (i, x) ∈ m) :
    m.read i = x ∧ x ≠ 0 := by
  refine ⟨?_, ?_⟩
  · simp [read, Memory.find_of_mem h.1 hm]
  · simpa using h.2 _ hm

end RowMem

namespace SlotMem

theorem read_write (t : SlotMem) (i j : Nat) (l : Leader) :
    (t.write i l).read j = if i = j then some l else t.read j := Memory.find_insert t i j l

@[simp] theorem read_empty (i : Nat) : SlotMem.empty.read i = none := rfl

theorem wf_empty : SlotMem.empty.wf := by simp [SlotMem.empty, wf, Memory.wf]

/-- A slot write keeps the canonical form. -/
theorem wf_write {t : SlotMem} (h : t.wf) (i : Nat) (l : Leader) : (t.write i l).wf :=
  Memory.wf_insert i rfl h

theorem length_write {t : SlotMem} (h : t.wf) (i : Nat) (l : Leader) :
    (t.write i l).length = if t.read i = none then t.length + 1 else t.length :=
  Memory.length_insert h.1 i l

end SlotMem

/-- Row j of G after a write of row i, and the same for H. -/
theorem State.setG_G (s : State) (i j : Nat) (x : Word) :
    (s.setG i x).G j = if i = j then x else s.G j := RowMem.read_write s.gmem i j x

theorem State.setH_H (s : State) (i j : Nat) (x : Word) :
    (s.setH i x).H j = if i = j then x else s.H j := RowMem.read_write s.hmem i j x

@[simp] theorem State.zeroG_G (s : State) (j : Nat) : s.zeroG.G j = 0 := rfl
@[simp] theorem State.invalidateH_H (s : State) (i : Nat) : s.invalidateH.H i = 0 := rfl
@[simp] theorem State.invalidateH_T (s : State) (x : Nat) : s.invalidateH.T x = none := rfl
@[simp] theorem State.invalidateT_T (s : State) (x : Nat) : s.invalidateT.T x = none := rfl

end Sys2Proof.Machine
end

