-- ==== Sys2Proof/Laws/Gf2.lean ====
section
/-! SUPPORT. One law per function of Machine/Gf2.lean, bit by bit, and the linearity of encode and syndrome
(spec/41_matrix_algebra.md R122 to R125, R133; spec/42_parity_check.md R150). -/

namespace Sys2Proof.Machine

/-! ### encode (R122) -/

theorem encodeMessage_bit (g : RowMem) (m : Word) (k i : Nat) :
    bit (encodeMessage g m k) i = sumMod2 k (fun j => bit m j && bit (g.read j) i) := by
  induction k with
  | zero => simp [encodeMessage, bit]
  | succ k ih =>
    rw [sumMod2_succ, ← ih]
    simp only [encodeMessage, bit]
    cases m.getLsbD k <;> simp

/-- R133 item 3. -/
theorem encodeMessage_xor (g : RowMem) (a b : Word) (k : Nat) :
    encodeMessage g (a ^^^ b) k = encodeMessage g a k ^^^ encodeMessage g b k := by
  apply word_ext
  intro i _
  have h := encodeMessage_bit g (a ^^^ b) k i
  have ha := encodeMessage_bit g a k i
  have hb := encodeMessage_bit g b k i
  simp only [bit] at h ha hb
  rw [h, BitVec.getLsbD_xor, ha, hb, ← sumMod2_xor]
  exact sumMod2_congr fun j _ => by rw [BitVec.getLsbD_xor, Bool.and_xor_distrib_right]

theorem encodeMessage_isVector {g : RowMem} {n : Nat} (h : ∀ j, IsVector n (g.read j)) (m : Word) (k : Nat) :
    IsVector n (encodeMessage g m k) := fun i hi => by
  rw [encodeMessage_bit, ← sumMod2_false k]
  exact sumMod2_congr fun j _ => by simp [h j i hi]

/-- The machine's codeword is the source's: cᵢ = Σⱼ mⱼ·G[j][i] mod 2. -/
theorem isProduct_iff (g : RowMem) (m c : Word) (k : Nat) : IsProduct k g.read m c ↔ encodeMessage g m k = c := by
  constructor
  · exact fun h => word_ext fun i hi => (encodeMessage_bit g m k i).trans (h i hi).symm
  · rintro rfl i _
    exact encodeMessage_bit g m k i

/-! ### syndrome (R123) -/

theorem syndrome_bit (h : RowMem) (v : Word) (r i : Nat) :
    bit (syndrome h v r) i = (decide (i < r ∧ i < 32) && dot (h.read i) v) := by
  induction r with
  | zero => simp [syndrome, bit]
  | succ r ih =>
    simp only [bit] at ih
    simp only [syndrome, bit, BitVec.getLsbD_or, ih, getLsbD_bitWord_shift]
    by_cases h1 : r = i
    · subst h1; simp [Bool.and_comm]
    · have : i < r + 1 ↔ i < r := by omega
      simp [h1, this]

theorem syndrome_isVector (h : RowMem) (v : Word) (r : Nat) : IsVector r (syndrome h v r) := fun i hi => by
  rw [syndrome_bit]
  simp [show ¬i < r by omega]

theorem syndrome_toNat_lt (h : RowMem) (v : Word) (r : Nat) : (syndrome h v r).toNat < 2 ^ r :=
  (syndrome_isVector h v r).toNat_lt

/-- R133 item 1. -/
theorem syndrome_xor (h : RowMem) (a b : Word) (r : Nat) :
    syndrome h (a ^^^ b) r = syndrome h a r ^^^ syndrome h b r := by
  apply word_ext
  intro i _
  have e := syndrome_bit h (a ^^^ b) r i
  have ea := syndrome_bit h a r i
  have eb := syndrome_bit h b r i
  simp only [bit] at e ea eb
  rw [e, BitVec.getLsbD_xor, ea, eb, dot_xor_right, Bool.and_xor_distrib_left]

@[simp] theorem syndrome_zero (h : RowMem) (r : Nat) : syndrome h 0#32 r = 0#32 := by
  apply word_ext
  intro i _
  have e := syndrome_bit h 0#32 r i
  simp only [bit] at e
  rw [e]
  simp

/-- Only the rows below r matter. -/
theorem syndrome_congr {h h' : RowMem} {r : Nat} (hr : ∀ i, i < r → h.read i = h'.read i) (v : Word) :
    syndrome h v r = syndrome h' v r := by
  induction r with
  | zero => rfl
  | succ r ih => rw [syndrome, syndrome, ih fun i hi => hr i (by omega), hr r (by omega)]

/-- The machine's syndrome is the source's: sᵢ = XORⱼ (H[i][j] AND v[j]). -/
theorem syndrome_isSyndrome (h : RowMem) {n : Nat} {v : Word} (hv : IsVector n v) (r : Nat) :
    IsSyndrome n r h.read v (syndrome h v r) := fun i hi => by
  rw [syndrome_bit, dot_eq_sumMod2_of_isVector hv]
  simp [hi]

/-- A syndrome is determined by its bits. -/
theorem IsSyndrome.unique {n r : Nat} {h : Nat → Word} {v x y : Word} (hx : IsSyndrome n r h v x)
    (hy : IsSyndrome n r h v y) : x = y :=
  word_ext fun i hi => (hx i hi).trans (hy i hi).symm

/-! ### transpose and BUILDH (R124, R150) -/

theorem transposeRow_bit (g : RowMem) (c k j : Nat) :
    bit (transposeRow g c k) j = (decide (j < k ∧ j < 32) && bit (g.read j) c) := by
  induction k with
  | zero => simp [transposeRow, bit]
  | succ k ih =>
    simp only [bit] at ih
    simp only [transposeRow, bit, BitVec.getLsbD_or, ih, getLsbD_bitWord_shift]
    by_cases h1 : k = j
    · subst h1; simp [Bool.and_comm]
    · have : j < k + 1 ↔ j < k := by omega
      simp [h1, this]

/-- R133 item 2, col_i bit by bit. -/
theorem column_bit (h : RowMem) (i r t : Nat) : bit (column h i r) t = (decide (t < r ∧ t < 32) && bit (h.read t) i) :=
  transposeRow_bit h i r t

/-- R133 item 2: a weight-1 pattern at position i has syndrome col_i. -/
theorem syndrome_oneAt (h : RowMem) {i : Nat} (hi : i < 32) (r : Nat) : syndrome h (oneAt i) r = column h i r :=
  word_ext fun t _ => by
    have e := syndrome_bit h (oneAt i) r t
    rw [dot_oneAt _ hi, ← column_bit] at e
    exact e

/-- R133 item 2: flipping position i adds col_i to the syndrome. -/
theorem syndrome_flip (h : RowMem) (v : Word) {i : Nat} (hi : i < 32) (r : Nat) :
    syndrome h (v ^^^ oneAt i) r = syndrome h v r ^^^ column h i r := by
  rw [syndrome_xor, syndrome_oneAt h hi]

/-- H[i][j] = G[j][k+i] for j < k, and 1 exactly at j = k + i above (R150). -/
theorem parityCheckRow_bit (g : RowMem) (k i j : Nat) :
    bit (parityCheckRow g k i) j =
      if j < k then decide (j < 32) && bit (g.read j) (k + i) else decide (j = k + i ∧ j < 32) := by
  have h := transposeRow_bit g (k + i) k j
  simp only [bit] at h
  simp only [parityCheckRow, bit, BitVec.getLsbD_or, h, getLsbD_oneAt]
  by_cases hj : j < k
  · have : ¬k + i = j := by omega
    simp [hj, this]
  · have : k + i = j ↔ j = k + i := by omega
    simp [hj, this]

theorem buildParityCheck_read (g : RowMem) (k : Nat) (h : RowMem) (r i : Nat) :
    (buildParityCheck g k h r).read i = if i < r then parityCheckRow g k i else h.read i := by
  induction r with
  | zero => simp [buildParityCheck]
  | succ r ih =>
    rw [buildParityCheck, RowMem.read_write, ih]
    by_cases h1 : r = i
    · subst h1; simp
    · have : i < r + 1 ↔ i < r := by omega
      simp [h1, this]

theorem buildParityCheck_wf {g h : RowMem} (hh : h.wf) (k r : Nat) : (buildParityCheck g k h r).wf := by
  induction r with
  | zero => exact hh
  | succ r ih => exact RowMem.wf_write ih _ _

/-! ### G·Hᵗ = 0 and the standard form (R125, R17) -/

theorem orthogonal_iff (g h : RowMem) (k r : Nat) :
    orthogonal g h k r = true ↔ ∀ j i, j < k → i < r → dot (g.read j) (h.read i) = false := by
  simp only [orthogonal, List.all_eq_true, List.mem_range, Bool.not_eq_true']
  exact ⟨fun H j i hj hi => H j hj i hi, fun H j hj i hi => H j i hj hi⟩

theorem standardForm_iff (g : RowMem) {k : Nat} (hk : k ≤ 32) :
    standardForm g k = true ↔ IsStandard k g.read := by
  simp only [standardForm, List.all_eq_true, List.mem_range, beq_iff_eq, IsStandard]
  constructor
  · intro H j i hj hi
    have e := congrArg (fun x : Word => x.getLsbD i) (H j hj)
    simp only [BitVec.getLsbD_and, getLsbD_mask, getLsbD_oneAt, hi, show i < 32 by omega,
      and_self, decide_true, Bool.and_true, and_true] at e
    rw [bit, e]
    exact decide_eq_decide.2 eq_comm
  · intro H j hj
    apply word_ext
    intro i hi
    rw [BitVec.getLsbD_and, getLsbD_mask, getLsbD_oneAt]
    by_cases hik : i < k
    · have e := H j i hj hik
      simp only [bit] at e
      rw [e]
      simp [hik, hi, eq_comm]
    · have : ¬j = i := by omega
      simp [hik, this]

end Sys2Proof.Machine
end

