-- ==== Sys2Proof/Laws/Builder.lean ====
section
/-! SUPPORT. What the table builder computes (spec/43_coset_leader_table.md R163): the slot of a syndrome holds the first
pattern, in the order of weights and of R162, that has this syndrome; `count` is the number of assigned slots. -/

namespace Sys2Proof.Machine

/-- What a slot holds for pattern p: its weight and the pattern. -/
def leaderOf (p : Word) : Leader := { wt := BitVec.ofNat 6 (ones p), pat := p }

theorem leaderOf_wt (p : Word) : (leaderOf p).wt.toNat = ones p := by
  have := ones_le p
  simp [leaderOf]
  omega

/-- The patterns of weights w, w+1, …, w+left−1, in the order the builder visits them. -/
def patternsFrom (n : Nat) : (left w : Nat) → List Word
  | 0, _ => []
  | left + 1, w => patterns n w ++ patternsFrom n left (w + 1)

/-- The first pattern of a list with a given slot index. -/
def firstWith (r : Nat) (h : RowMem) (S : List Word) (x : Nat) : Option Word :=
  S.find? (fun p => (syndrome h p r).toNat == x)

/-- The builder has visited exactly the patterns S. -/
structure Visited (r : Nat) (h : RowMem) (S : List Word) (b : Builder) : Prop where
  wf : b.table.wf
  count : b.count = b.table.length
  read : ∀ x, b.table.read x = (firstWith r h S x).map leaderOf

theorem firstWith_append (r : Nat) (h : RowMem) (S T : List Word) (x : Nat) :
    firstWith r h (S ++ T) x = (firstWith r h S x).or (firstWith r h T x) := by
  simp [firstWith, List.find?_append]

theorem firstWith_some {r : Nat} {h : RowMem} {S : List Word} {x : Nat} {p : Word}
    (e : firstWith r h S x = some p) : p ∈ S ∧ (syndrome h p r).toNat = x :=
  ⟨List.mem_of_find?_eq_some e, by simpa using List.find?_some e⟩

theorem firstWith_none {r : Nat} {h : RowMem} {S : List Word} {x : Nat} :
    firstWith r h S x = none ↔ ∀ p ∈ S, (syndrome h p r).toNat ≠ x := by
  simp [firstWith, List.find?_eq_none]

theorem firstWith_none_of_ge {r : Nat} {h : RowMem} {S : List Word} {x : Nat} (hx : 2 ^ r ≤ x) :
    firstWith r h S x = none :=
  firstWith_none.2 fun p _ => by have := syndrome_toNat_lt h p r; omega

/-- The empty builder has visited nothing. -/
theorem visited_nil (r : Nat) (h : RowMem) : Visited r h [] { table := SlotMem.empty, count := 0 } :=
  ⟨SlotMem.wf_empty, rfl, fun _ => rfl⟩

/-- One candidate (R163): the strict comparison is true exactly for an unassigned slot. -/
theorem visited_visit {n r : Nat} {h : RowMem} {S : List Word} {b : Builder} {w : Nat} {p : Word}
    (hb : Visited r h S b) (hw : w ≤ n) (hS : ∀ q ∈ S, ones q ≤ w) (hp : ones p = w) :
    Visited r h (S ++ [p]) (visit n r h w b p) := by
  have hread := hb.read (syndrome h p r).toNat
  cases e : firstWith r h S (syndrome h p r).toNat with
  | none =>
    rw [e] at hread
    have hv : visit n r h w b p =
        { table := b.table.write (syndrome h p r).toNat (leaderOf p), count := b.count + 1 } := by
      simp only [visit, hread, Option.map_none, slotWeight, if_pos (show w < n + 1 by omega), if_true,
        leaderOf, hp]
    rw [hv]
    refine ⟨SlotMem.wf_write hb.wf _ _, ?_, fun x => ?_⟩
    · simp only [SlotMem.length_write hb.wf, hread, Option.map_none, if_true, hb.count]
    · rw [SlotMem.read_write, firstWith_append, hb.read]
      by_cases hx : (syndrome h p r).toNat = x
      · subst hx
        rw [if_pos rfl, e]
        simp [firstWith]
      · rw [if_neg hx]
        simp [firstWith, hx]
  | some q =>
    rw [e] at hread
    have hq := firstWith_some e
    have hv : visit n r h w b p = b := by
      simp only [visit, hread, Option.map_some, slotWeight, leaderOf_wt]
      rw [if_neg (by have := hS q hq.1; omega)]
    rw [hv]
    refine ⟨hb.wf, hb.count, fun x => ?_⟩
    rw [firstWith_append, hb.read]
    by_cases hx : (syndrome h p r).toNat = x
    · subst hx
      simp [e]
    · have : firstWith r h [p] x = none := by simp [firstWith, hx]
      simp [this]

/-- One weight class (R163). -/
theorem visited_foldl {n r : Nat} {h : RowMem} {w : Nat} (hw : w ≤ n) (T : List Word)
    (hT : ∀ p ∈ T, ones p = w) {S : List Word} {b : Builder} (hb : Visited r h S b)
    (hS : ∀ q ∈ S, ones q ≤ w) : Visited r h (S ++ T) (T.foldl (visit n r h w) b) := by
  induction T generalizing S b with
  | nil => simpa using hb
  | cons p T ih =>
    have hp := hT p (by simp)
    have := ih (fun q hq => hT q (List.mem_cons_of_mem _ hq)) (visited_visit hb hw hS hp)
      (by
        intro q hq
        rcases List.mem_append.1 hq with hq | hq
        · exact hS q hq
        · rw [List.mem_singleton.1 hq]; omega)
    simpa using this

/-- When count has reached 2^r every slot below 2^r is assigned. -/
theorem Visited.full {r : Nat} {h : RowMem} {S : List Word} {b : Builder} (hb : Visited r h S b)
    (hc : 2 ^ r ≤ b.count) {x : Nat} (hx : x < 2 ^ r) : firstWith r h S x ≠ none := by
  have hnd : (b.table.map Prod.fst).Nodup := by
    have := hb.wf.1
    exact (List.pairwise_map.2 (this.imp fun hlt => Nat.ne_of_lt hlt))
  have hsub : (b.table.map Prod.fst).toFinset ⊆ Finset.range (2 ^ r) := by
    intro a ha
    obtain ⟨⟨i, l⟩, hm, rfl⟩ := List.mem_map.1 (List.mem_toFinset.1 ha)
    have hr := hb.read i
    rw [show b.table.read i = some l from Memory.find_of_mem hb.wf.1 hm] at hr
    rw [Finset.mem_range]
    by_contra hge
    rw [firstWith_none_of_ge (by simpa using hge)] at hr
    simp at hr
  have hcard : (Finset.range (2 ^ r)).card ≤ (b.table.map Prod.fst).toFinset.card := by
    rw [List.toFinset_card_of_nodup hnd, List.length_map, Finset.card_range, ← hb.count]
    exact hc
  have heq := Finset.eq_of_subset_of_card_le hsub hcard
  have hxm : x ∈ (b.table.map Prod.fst).toFinset := by rw [heq]; simpa using hx
  obtain ⟨⟨i, l⟩, hm, hi⟩ := List.mem_map.1 (List.mem_toFinset.1 hxm)
  simp only at hi
  subst hi
  intro hn
  have hr := hb.read i
  rw [show b.table.read i = some l from Memory.find_of_mem hb.wf.1 hm, hn] at hr
  simp at hr

/-- The loop over weights (R163): stopping early changes no slot. -/
theorem visited_buildLoop {n r : Nat} {h : RowMem} (hn : n ≤ 32) (left w : Nat) (hlw : left + w ≤ n + 1)
    {S : List Word} {b : Builder} (hb : Visited r h S b) (hS : ∀ q ∈ S, ones q < w) :
    Visited r h (S ++ patternsFrom n left w) (buildLoop n r h left w b) := by
  induction left generalizing w S b with
  | zero => simpa [patternsFrom, buildLoop] using hb
  | succ left ih =>
    simp only [buildLoop, patternsFrom]
    split_ifs with hc
    · rw [← List.append_assoc]
      refine ih (w + 1) (by omega) ?_ ?_
      · exact visited_foldl (by omega) _ (fun p hp => ((mem_patterns hn).1 hp).2) hb
          fun q hq => le_of_lt (hS q hq)
      · intro q hq
        rcases List.mem_append.1 hq with hq | hq
        · have := hS q hq; omega
        · have := ((mem_patterns hn).1 hq).2; omega
    · refine ⟨hb.wf, hb.count, fun x => ?_⟩
      rw [firstWith_append, hb.read]
      by_cases hx : x < 2 ^ r
      · have hne := hb.full (by omega) hx
        cases e : firstWith r h S x with
        | none => exact absurd e hne
        | some q => simp
      · rw [firstWith_none_of_ge (by omega), firstWith_none_of_ge (by omega)]
        rfl

/-- What build_table computes (R163). -/
theorem visited_buildTable {n r : Nat} (h : RowMem) (hn : n ≤ 32) :
    Visited r h (patternsFrom n (n + 1) 0) (buildTable n r h) := by
  have := visited_buildLoop (h := h) (r := r) hn (n + 1) 0 (by omega) (visited_nil r h) (by simp)
  simpa [buildTable] using this

/-- The candidates are all vectors of length n. -/
theorem mem_patternsFrom {n : Nat} (hn : n ≤ 32) (left w : Nat) {p : Word} :
    p ∈ patternsFrom n left w ↔ IsVector n p ∧ w ≤ ones p ∧ ones p < w + left := by
  induction left generalizing w with
  | zero => simp [patternsFrom]
  | succ left ih =>
    simp only [patternsFrom, List.mem_append, mem_patterns hn, ih]
    constructor
    · rintro (⟨h1, h2⟩ | ⟨h1, h2, h3⟩)
      · exact ⟨h1, by omega, by omega⟩
      · exact ⟨h1, by omega, by omega⟩
    · rintro ⟨h1, h2, h3⟩
      by_cases hw : ones p = w
      · exact .inl ⟨h1, hw⟩
      · exact .inr ⟨h1, by omega, by omega⟩

theorem mem_allPatterns {n : Nat} (hn : n ≤ 32) {p : Word} :
    p ∈ patternsFrom n (n + 1) 0 ↔ IsVector n p := by
  rw [mem_patternsFrom hn]
  refine ⟨fun h => h.1, fun h => ⟨h, by omega, ?_⟩⟩
  have := ones_le_of_isVector h
  omega

/-- The candidates come by weight, and by R162 within a weight. -/
theorem patternsFrom_ordered {n : Nat} (hn : n ≤ 32) (left w : Nat) :
    (patternsFrom n left w).Pairwise (fun p q => ones p < ones q ∨ (ones p = ones q ∧ Before p q)) := by
  induction left generalizing w with
  | zero => simp [patternsFrom]
  | succ left ih =>
    simp only [patternsFrom]
    refine List.pairwise_append.2 ⟨?_, ih (w + 1), fun p hp q hq => ?_⟩
    · refine (List.Pairwise.and_mem.1 (patterns_ordered hn w)).imp fun {p q} hpq => .inr ⟨?_, hpq.2.2⟩
      rw [((mem_patterns hn).1 hpq.1).2, ((mem_patterns hn).1 hpq.2.1).2]
    · have h1 := ((mem_patterns hn).1 hp).2
      have h2 := ((mem_patternsFrom hn left (w + 1)).1 hq).2.1
      left; omega

/-! ### What a slot of the built table holds -/

/-- An assigned slot holds the leader of its syndrome (R160, R163). -/
theorem buildTable_some {n r : Nat} {h : RowMem} (hn : n ≤ 32) {x : Nat} {l : Leader}
    (e : (buildTable n r h).table.read x = some l) :
    IsVector n l.pat ∧ (syndrome h l.pat r).toNat = x ∧ l.wt.toNat = ones l.pat ∧
      ∀ q, IsVector n q → (syndrome h q r).toNat = x →
        ones l.pat < ones q ∨ (ones l.pat = ones q ∧ (q = l.pat ∨ Before l.pat q)) := by
  rw [(visited_buildTable h hn).read x] at e
  cases hf : firstWith r h (patternsFrom n (n + 1) 0) x with
  | none => rw [hf] at e; exact absurd e (by simp)
  | some p =>
    rw [hf] at e
    obtain rfl : leaderOf p = l := by simpa using e
    have hp := firstWith_some hf
    refine ⟨(mem_allPatterns hn).1 hp.1, hp.2, leaderOf_wt p, fun q hq hx => ?_⟩
    show ones p < ones q ∨ (ones p = ones q ∧ (q = p ∨ Before p q))
    obtain ⟨-, as, bs, hsplit, has⟩ := List.find?_eq_some_iff_append.1 hf
    have hqm := (mem_allPatterns hn).2 hq
    have hord := patternsFrom_ordered hn (n + 1) 0
    rw [hsplit] at hqm hord
    rcases List.mem_append.1 hqm with hqa | hqb
    · have := has q hqa
      simp [hx] at this
    · rcases List.mem_cons.1 hqb with rfl | hqb
      · exact .inr ⟨rfl, .inl rfl⟩
      · have h2 := (List.pairwise_append.1 hord).2.1
        rcases (List.pairwise_cons.1 h2).1 q hqb with h3 | h3
        · exact .inl h3
        · exact .inr ⟨h3.1, .inr h3.2⟩

/-- The slot of the syndrome of a vector is assigned (R163). -/
theorem buildTable_assigned {n r : Nat} (h : RowMem) (hn : n ≤ 32) {q : Word} (hq : IsVector n q) :
    ∃ l, (buildTable n r h).table.read (syndrome h q r).toNat = some l := by
  rw [(visited_buildTable h hn).read]
  cases hf : firstWith r h (patternsFrom n (n + 1) 0) (syndrome h q r).toNat with
  | none => exact absurd rfl (firstWith_none.1 hf q ((mem_allPatterns hn).2 hq))
  | some p => exact ⟨leaderOf p, rfl⟩

/-- Slot 0 holds (0, 0): the zero pattern is the only one of weight 0. -/
theorem buildTable_zero {n r : Nat} (h : RowMem) (hn : n ≤ 32) :
    (buildTable n r h).table.read 0 = some { wt := 0, pat := 0 } := by
  obtain ⟨l, hl⟩ := buildTable_assigned (r := r) h hn (IsVector.zero n)
  have h0 : (syndrome h 0 r).toNat = 0 := by
    rw [show (0 : Word) = 0#32 from rfl, syndrome_zero]; rfl
  rw [h0] at hl
  obtain ⟨-, -, h3, h4⟩ := buildTable_some hn hl
  have h5 := h4 0 (IsVector.zero n) h0
  have h6 : ones l.pat = 0 := by
    have : ones (0 : Word) = 0 := ones_zero
    omega
  have h7 := (ones_eq_zero_iff _).1 h6
  rw [hl]
  obtain ⟨wt, pat⟩ := l
  simp only at h3 h6 h7
  subst h7
  rw [h6] at h3
  have : wt = 0 := BitVec.eq_of_toNat_eq (by simpa using h3)
  rw [this]

/-- TCOUNT's value is the number of listed slots, and no slot at or above 2^r is assigned. -/
theorem buildTable_count {n r : Nat} (h : RowMem) (hn : n ≤ 32) :
    (buildTable n r h).count = (buildTable n r h).table.length := (visited_buildTable h hn).count

theorem buildTable_wf {n r : Nat} (h : RowMem) (hn : n ≤ 32) : (buildTable n r h).table.wf :=
  (visited_buildTable h hn).wf

theorem buildTable_index_lt {n r : Nat} {h : RowMem} (hn : n ≤ 32) {x : Nat} {l : Leader}
    (e : (buildTable n r h).table.read x = some l) : x < 2 ^ r := by
  obtain ⟨-, h2, -⟩ := buildTable_some hn e
  rw [← h2]
  exact syndrome_toNat_lt h l.pat r

/-- Distinct indices below 2^r: at most 2^r slots are listed. -/
theorem buildTable_count_le {n r : Nat} (h : RowMem) (hn : n ≤ 32) : (buildTable n r h).count ≤ 2 ^ r := by
  have hw := buildTable_wf (r := r) h hn
  have hnd : ((buildTable n r h).table.map Prod.fst).Nodup :=
    List.pairwise_map.2 (hw.1.imp fun hlt => Nat.ne_of_lt hlt)
  rw [buildTable_count h hn, ← List.length_map (f := Prod.fst), ← List.toFinset_card_of_nodup hnd]
  calc _ ≤ (Finset.range (2 ^ r)).card := by
        apply Finset.card_le_card
        intro a ha
        obtain ⟨⟨i, l⟩, hm, rfl⟩ := List.mem_map.1 (List.mem_toFinset.1 ha)
        simpa using buildTable_index_lt hn (Memory.find_of_mem hw.1 hm)
    _ = 2 ^ r := by simp

/-- Only the rows of H below r matter. -/
theorem buildTable_congr {n r : Nat} {h h' : RowMem} (hr : ∀ i, i < r → h.read i = h'.read i) :
    buildTable n r h = buildTable n r h' := by
  have hs : ∀ v, syndrome h v r = syndrome h' v r := fun v => syndrome_congr hr v
  have hv : ∀ w, visit n r h w = visit n r h' w := fun w => by
    funext b p
    simp only [visit, hs]
  have hl : ∀ left w b, buildLoop n r h left w b = buildLoop n r h' left w b := fun left => by
    induction left with
    | zero => intros; rfl
    | succ left ih =>
      intro w b
      simp only [buildLoop, visitClass, hv, ih]
  exact hl _ _ _

end Sys2Proof.Machine
end

