-- ==== Sys2Proof/Laws/Effects.lean ====
section
/-! SUPPORT. Said once: what each command can do (one inversion lemma over `exec`), from which invariants and frames follow
without unfolding a meaning again. -/

namespace Sys2Proof.Machine

/-- The state a successful command leaves, before it answers, with the conditions under which it succeeds. -/
def Effect (s u : State) : Instr → Prop
  | .setdim n k =>
    (0 < k ∧ k < n ∧ n ≤ s.cfg.nmax ∧ n - k ≤ s.cfg.rmax) ∧ u = (s.setDims n k).zeroG.invalidateH
  | .csrr _ => False
  | .vld vd len => len ≤ s.cfg.nmax ∧ u = s.setV vd (BitVec.ofNat 6 len) (s.din &&& mask len)
  | .vst _ => u = s
  | .vlen _ => u = s
  | .vxor vd vs1 vs2 =>
    s.lenOf vs1 = s.lenOf vs2 ∧ u = s.setV vd (s.V vs1).len (s.bitsOf vs1 ^^^ s.bitsOf vs2)
  | .vflip vd vs pos => pos < s.lenOf vs ∧ u = s.setV vd (s.V vs).len (s.bitsOf vs ^^^ oneAt pos)
  | .vwt vs => u = s.setW (BitVec.ofNat 6 (weight (s.bitsOf vs)))
  | .vdot vs1 vs2 =>
    s.lenOf vs1 = s.lenOf vs2 ∧ u = s.setW (BitVec.ofNat 6 (dot (s.bitsOf vs1) (s.bitsOf vs2)).toNat)
  | .gwr row vs => s.DIMV ∧ row < s.K ∧ s.lenOf vs = s.N ∧ u = (s.setG row (s.bitsOf vs)).invalidateH
  | .grd vd row => s.DIMV ∧ row < s.K ∧ u = s.setV vd s.n (s.G row)
  | .hwr row vs => s.DIMV ∧ row < s.R ∧ s.lenOf vs = s.N ∧ u = (s.setH row (s.bitsOf vs)).invalidateT
  | .hrd vd row => s.DIMV ∧ row < s.R ∧ s.hv = true ∧ u = s.setV vd s.n (s.H row)
  | .enc vd vs => s.DIMV ∧ s.lenOf vs = s.K ∧ u = s.setV vd s.n (encodeMessage s.gmem (s.bitsOf vs) s.K)
  | .synd vd vs =>
    s.DIMV ∧ s.hv = true ∧ s.lenOf vs = s.N ∧
      u = (s.setV vd (BitVec.ofNat 6 s.R) (syndrome s.hmem (s.bitsOf vs) s.R)).setZ
        (zeroFlag (syndrome s.hmem (s.bitsOf vs) s.R))
  | .buildh =>
    s.DIMV ∧ standardForm s.gmem s.K = true ∧
      u = s.invalidateT.setHmem (buildParityCheck s.gmem s.K s.hmem s.R)
  | .mchk => s.DIMV ∧ s.hv = true ∧ u = s.setOrth (orthogonal s.gmem s.hmem s.K s.R)
  | .tbuild =>
    s.DIMV ∧ s.hv = true ∧ u = s.setTable (buildTable s.N s.R s.hmem).table (buildTable s.N s.R s.hmem).count
  | .tlk vd vs =>
    s.DIMV ∧ s.lenOf vs = s.R ∧ ∃ e, s.T (s.bitsOf vs).toNat = some e ∧ u = (s.setV vd s.n e.pat).setW e.wt
  | .dec vd vs =>
    s.DIMV ∧ s.hv = true ∧ s.lenOf vs = s.N ∧
      ((syndrome s.hmem (s.bitsOf vs) s.R = 0 ∧ u = (s.setV vd s.n (s.bitsOf vs)).setW 0) ∨
        (syndrome s.hmem (s.bitsOf vs) s.R ≠ 0 ∧ ∃ e, s.slotOf (s.bitsOf vs) = some e ∧
          u = (s.setV vd s.n (s.bitsOf vs ^^^ e.pat)).setW e.wt))
  | .deci vd vs =>
    s.DIMV ∧ s.hv = true ∧ s.lenOf vs = s.N ∧
      ∃ r, greedyDecode s (s.bitsOf vs) = some r ∧ u = (s.setV vd s.n r.1).setW r.2
  | .msg vd vs => s.DIMV ∧ s.lenOf vs = s.N ∧ u = s.setV vd s.k (s.bitsOf vs &&& mask s.K)

/-- A command fails and changes nothing but ERR, ERRCMD and the response (R210), or is a CSRR that answers (R102), or has its
effect and answers (R100). -/
theorem exec_cases (i : Instr) (s : State) :
    (∃ f, exec i s = .next (s.failed f)) ∨
    (∃ c d, i = .csrr c ∧ s.csr c = some d ∧ exec i s = .next (s.answeredKeepingErr d)) ∨
    (∃ u d, Effect s u i ∧ exec i s = .next (u.answered d)) := by
  cases i <;> simp only [exec, Effect]
  case setdim n k =>
    unfold execSetdim
    split_ifs with h1 h2
    · exact .inl ⟨_, rfl⟩
    · exact .inr (.inr ⟨_, _, ⟨by omega, rfl⟩, rfl⟩)
    · exact .inl ⟨_, rfl⟩
  case csrr c =>
    unfold execCsrr
    split
    · exact .inl ⟨_, rfl⟩
    · exact .inr (.inl ⟨_, _, rfl, ‹_›, rfl⟩)
  case vld vd len =>
    unfold execVld
    split_ifs with h1
    · exact .inl ⟨_, rfl⟩
    · exact .inr (.inr ⟨_, _, ⟨by omega, rfl⟩, rfl⟩)
  case vst vs => exact .inr (.inr ⟨_, _, rfl, rfl⟩)
  case vlen vs => exact .inr (.inr ⟨_, _, rfl, rfl⟩)
  case vxor vd vs1 vs2 =>
    unfold execVxor
    split_ifs with h1 <;> try exact .inl ⟨_, rfl⟩
    exact .inr (.inr ⟨_, _, ⟨not_not.1 h1, rfl⟩, rfl⟩)
  case vflip vd vs pos =>
    unfold execVflip
    split_ifs with h1 <;> try exact .inl ⟨_, rfl⟩
    exact .inr (.inr ⟨_, _, ⟨h1, rfl⟩, rfl⟩)
  case vwt vs => exact .inr (.inr ⟨_, _, rfl, rfl⟩)
  case vdot vs1 vs2 =>
    unfold execVdot
    split_ifs with h1 <;> try exact .inl ⟨_, rfl⟩
    exact .inr (.inr ⟨_, _, ⟨not_not.1 h1, rfl⟩, rfl⟩)
  case gwr row vs =>
    unfold execGwr
    split_ifs with h1 h2 h3 <;> try exact .inl ⟨_, rfl⟩
    exact .inr (.inr ⟨_, _, ⟨h1, h2, h3, rfl⟩, rfl⟩)
  case grd vd row =>
    unfold execGrd
    split_ifs with h1 h2 <;> try exact .inl ⟨_, rfl⟩
    exact .inr (.inr ⟨_, _, ⟨h1, h2, rfl⟩, rfl⟩)
  case hwr row vs =>
    unfold execHwr
    split_ifs with h1 h2 h3 <;> try exact .inl ⟨_, rfl⟩
    exact .inr (.inr ⟨_, _, ⟨h1, h2, h3, rfl⟩, rfl⟩)
  case hrd vd row =>
    unfold execHrd
    split_ifs with h1 h2 h3 <;> try exact .inl ⟨_, rfl⟩
    exact .inr (.inr ⟨_, _, ⟨h1, h2, by simpa using h3, rfl⟩, rfl⟩)
  case enc vd vs =>
    unfold execEnc
    split_ifs with h1 h2 <;> try exact .inl ⟨_, rfl⟩
    exact .inr (.inr ⟨_, _, ⟨h1, h2, rfl⟩, rfl⟩)
  case synd vd vs =>
    unfold execSynd
    split_ifs with h1 h2 h3 <;> try exact .inl ⟨_, rfl⟩
    exact .inr (.inr ⟨_, _, ⟨h1, by simpa using h2, h3, rfl⟩, rfl⟩)
  case buildh =>
    unfold execBuildh
    split_ifs with h1 h2 <;> try exact .inl ⟨_, rfl⟩
    exact .inr (.inr ⟨_, _, ⟨h1, by simpa using h2, rfl⟩, rfl⟩)
  case mchk =>
    unfold execMchk
    split_ifs with h1 h2 <;> try exact .inl ⟨_, rfl⟩
    exact .inr (.inr ⟨_, _, ⟨h1, by simpa using h2, rfl⟩, rfl⟩)
  case tbuild =>
    unfold execTbuild
    split_ifs with h1 h2 <;> try exact .inl ⟨_, rfl⟩
    exact .inr (.inr ⟨_, _, ⟨h1, by simpa using h2, rfl⟩, rfl⟩)
  case tlk vd vs =>
    unfold execTlk
    split_ifs with h1 h2 <;> try exact .inl ⟨_, rfl⟩
    split
    · exact .inl ⟨_, rfl⟩
    · exact .inr (.inr ⟨_, _, ⟨h1, h2, _, ‹_›, rfl⟩, rfl⟩)
  case dec vd vs =>
    unfold execDec
    split_ifs with h1 h2 h3 h4 <;> try exact .inl ⟨_, rfl⟩
    · exact .inr (.inr ⟨_, _, ⟨h1, by simpa using h2, h3, .inl ⟨h4, rfl⟩⟩, rfl⟩)
    · split
      · exact .inl ⟨_, rfl⟩
      · exact .inr (.inr ⟨_, _, ⟨h1, by simpa using h2, h3, .inr ⟨h4, _, ‹_›, rfl⟩⟩, rfl⟩)
  case deci vd vs =>
    unfold execDeci
    split_ifs with h1 h2 h3 <;> try exact .inl ⟨_, rfl⟩
    split
    · exact .inl ⟨_, rfl⟩
    · exact .inr (.inr ⟨_, _, ⟨h1, by simpa using h2, h3, _, ‹_›, rfl⟩, rfl⟩)
  case msg vd vs =>
    unfold execMsg
    split_ifs with h1 h2 <;> try exact .inl ⟨_, rfl⟩
    exact .inr (.inr ⟨_, _, ⟨h1, h2, rfl⟩, rfl⟩)

/-- One next state per outcome: what `exec` answers is unique. -/
theorem next_inj {s t : State} (h : (Host.Outcome.next s : Result) = .next t) : s = t := by
  injection h

end Sys2Proof.Machine
end

