-- ==== Sys2Proof/Laws/Encoding.lean ====
section
/-! SUPPORT. Where `formatV` and `formatD` put each field (spec/30_encoding.md R81 to R83), and what `decode` does with a word
whose opcode is known. -/

namespace Sys2Proof

/-- Each bit of a format V word (R82). -/
theorem formatV_bit (op : BitVec 8) (vd vs1 vs2 : VIdx) (imm i : Nat) :
    (formatV op vd vs1 vs2 imm).getLsbD i =
      if i < 8 then imm.testBit i
      else if i < 15 then false
      else if i < 18 then (BitVec.ofFin (w := 3) vs2).getLsbD (i - 15)
      else if i < 21 then (BitVec.ofFin (w := 3) vs1).getLsbD (i - 18)
      else if i < 24 then (BitVec.ofFin (w := 3) vd).getLsbD (i - 21)
      else op.getLsbD (i - 24) := by
  have e : (formatV op vd vs1 vs2 imm).getLsbD i =
      (op ++ BitVec.ofFin (w := 3) vd ++ BitVec.ofFin (w := 3) vs1 ++ BitVec.ofFin (w := 3) vs2 ++ 0#7
        ++ BitVec.ofNat 8 imm : BitVec (8 + 3 + 3 + 3 + 7 + 8)).getLsbD i := rfl
  rw [e]
  simp only [BitVec.getLsbD_append, BitVec.getLsbD_ofNat, Nat.sub_sub]
  split_ifs <;> first | omega | rfl | simp only [*, decide_true, Bool.true_and, Nat.zero_testBit, Bool.and_false]

/-- Each bit of a format D word (R83). -/
theorem formatD_bit (op : BitVec 8) (hi lo i : Nat) :
    (formatD op hi lo).getLsbD i =
      if i < 8 then lo.testBit i
      else if i < 16 then hi.testBit (i - 8)
      else if i < 24 then false
      else op.getLsbD (i - 24) := by
  have e : (formatD op hi lo).getLsbD i =
      (op ++ 0#8 ++ BitVec.ofNat 8 hi ++ BitVec.ofNat 8 lo : BitVec (8 + 8 + 8 + 8)).getLsbD i := rfl
  rw [e]
  simp only [BitVec.getLsbD_append, BitVec.getLsbD_ofNat, Nat.sub_sub]
  split_ifs <;> first | omega | rfl | simp only [*, decide_true, Bool.true_and, Nat.zero_testBit, Bool.and_false]

/-! ### The fields of a format V word -/

section formatV
variable (op : BitVec 8) (vd vs1 vs2 : VIdx) (imm : Nat)

theorem fieldOpcode_formatV : fieldOpcode (formatV op vd vs1 vs2 imm) = op := by
  apply BitVec.eq_of_getLsbD_eq
  intro i hi
  interval_cases i <;> simp [fieldOpcode, -BitVec.getLsbD_eq_getElem, formatV_bit]

theorem fieldVd_formatV : fieldVd (formatV op vd vs1 vs2 imm) = vd := by
  have h : (formatV op vd vs1 vs2 imm).extractLsb' 21 3 = BitVec.ofFin (w := 3) vd := by
    apply BitVec.eq_of_getLsbD_eq
    intro i hi
    interval_cases i <;> simp [-BitVec.getLsbD_eq_getElem, formatV_bit]
  unfold fieldVd
  rw [h]

theorem fieldVs1_formatV : fieldVs1 (formatV op vd vs1 vs2 imm) = vs1 := by
  have h : (formatV op vd vs1 vs2 imm).extractLsb' 18 3 = BitVec.ofFin (w := 3) vs1 := by
    apply BitVec.eq_of_getLsbD_eq
    intro i hi
    interval_cases i <;> simp [-BitVec.getLsbD_eq_getElem, formatV_bit]
  unfold fieldVs1
  rw [h]

theorem fieldVs2_formatV : fieldVs2 (formatV op vd vs1 vs2 imm) = vs2 := by
  have h : (formatV op vd vs1 vs2 imm).extractLsb' 15 3 = BitVec.ofFin (w := 3) vs2 := by
    apply BitVec.eq_of_getLsbD_eq
    intro i hi
    interval_cases i <;> simp [-BitVec.getLsbD_eq_getElem, formatV_bit]
  unfold fieldVs2
  rw [h]

theorem fieldImm8_formatV (h : imm < 256) : fieldImm8 (formatV op vd vs1 vs2 imm) = imm := by
  have e : (formatV op vd vs1 vs2 imm).extractLsb' 0 8 = BitVec.ofNat 8 imm := by
    apply BitVec.eq_of_getLsbD_eq
    intro i hi
    interval_cases i <;> simp [-BitVec.getLsbD_eq_getElem, formatV_bit, BitVec.getLsbD_ofNat]
  unfold fieldImm8
  rw [e, BitVec.toNat_ofNat, Nat.mod_eq_of_lt h]

end formatV

/-! ### The fields of a format D word -/

section formatD
variable (op : BitVec 8) (hi lo : Nat)

theorem fieldOpcode_formatD : fieldOpcode (formatD op hi lo) = op := by
  apply BitVec.eq_of_getLsbD_eq
  intro i hi
  interval_cases i <;> simp [fieldOpcode, -BitVec.getLsbD_eq_getElem, formatD_bit]

theorem fieldImmhi_formatD (h : hi < 256) : fieldImmhi (formatD op hi lo) = hi := by
  have e : (formatD op hi lo).extractLsb' 8 8 = BitVec.ofNat 8 hi := by
    apply BitVec.eq_of_getLsbD_eq
    intro i hi
    interval_cases i <;> simp [-BitVec.getLsbD_eq_getElem, formatD_bit, BitVec.getLsbD_ofNat]
  unfold fieldImmhi
  rw [e, BitVec.toNat_ofNat, Nat.mod_eq_of_lt h]

theorem fieldImm8_formatD (h : lo < 256) : fieldImm8 (formatD op hi lo) = lo := by
  have e : (formatD op hi lo).extractLsb' 0 8 = BitVec.ofNat 8 lo := by
    apply BitVec.eq_of_getLsbD_eq
    intro i hi
    interval_cases i <;> simp [-BitVec.getLsbD_eq_getElem, formatD_bit, BitVec.getLsbD_ofNat]
  unfold fieldImm8
  rw [e, BitVec.toNat_ofNat, Nat.mod_eq_of_lt h]

end formatD

/-! ### The fields of any word, bit by bit -/

theorem fieldImm8_lt (cmd : Word) : fieldImm8 cmd < 256 := (cmd.extractLsb' 0 8).isLt

theorem fieldImmhi_lt (cmd : Word) : fieldImmhi cmd < 256 := (cmd.extractLsb' 8 8).isLt

theorem fieldImm8_bit (cmd : Word) {j : Nat} (hj : j < 8) : (fieldImm8 cmd).testBit j = cmd.getLsbD j := by
  have : (fieldImm8 cmd).testBit j = (cmd.extractLsb' 0 8).getLsbD j := rfl
  rw [this]
  simp [-BitVec.getLsbD_eq_getElem, hj]

theorem fieldImmhi_bit (cmd : Word) {j : Nat} (hj : j < 8) : (fieldImmhi cmd).testBit j = cmd.getLsbD (8 + j) := by
  have : (fieldImmhi cmd).testBit j = (cmd.extractLsb' 8 8).getLsbD j := rfl
  rw [this]
  simp [-BitVec.getLsbD_eq_getElem, hj]

theorem fieldVd_bit (cmd : Word) {j : Nat} (hj : j < 3) :
    (BitVec.ofFin (w := 3) (fieldVd cmd)).getLsbD j = cmd.getLsbD (21 + j) := by
  have : BitVec.ofFin (w := 3) (fieldVd cmd) = cmd.extractLsb' 21 3 := rfl
  rw [this]
  simp [-BitVec.getLsbD_eq_getElem, hj]

theorem fieldVs1_bit (cmd : Word) {j : Nat} (hj : j < 3) :
    (BitVec.ofFin (w := 3) (fieldVs1 cmd)).getLsbD j = cmd.getLsbD (18 + j) := by
  have : BitVec.ofFin (w := 3) (fieldVs1 cmd) = cmd.extractLsb' 18 3 := rfl
  rw [this]
  simp [-BitVec.getLsbD_eq_getElem, hj]

theorem fieldVs2_bit (cmd : Word) {j : Nat} (hj : j < 3) :
    (BitVec.ofFin (w := 3) (fieldVs2 cmd)).getLsbD j = cmd.getLsbD (15 + j) := by
  have : BitVec.ofFin (w := 3) (fieldVs2 cmd) = cmd.extractLsb' 15 3 := rfl
  rw [this]
  simp [-BitVec.getLsbD_eq_getElem, hj]

/-- Every mask of R85 covers the opcode byte, so a word that passes the test has the opcode of the match. -/
theorem fieldOpcode_of_and {cmd mask mtch : Word} (hm : fieldOpcode mask = 0xFF#8) (h : cmd &&& mask = mtch) :
    fieldOpcode cmd = fieldOpcode mtch := by
  subst h
  unfold fieldOpcode at *
  apply BitVec.eq_of_getLsbD_eq
  intro j hj
  have e := congrArg (fun x : BitVec 8 => x.getLsbD j) hm
  have h8 : (0xFF#8).getLsbD j = true := by interval_cases j <;> rfl
  simp only [BitVec.getLsbD_extractLsb', hj, decide_true, Bool.true_and, BitVec.getLsbD_and] at e ⊢
  rw [e, h8, Bool.and_true]

/-- What the second test of R86 accepts. -/
theorem accepts_eq_ok_iff {cmd mask mtch : Word} {i j : Instr} :
    accepts cmd mask mtch i = .ok j ↔ cmd &&& mask = mtch ∧ i = j := by
  unfold accepts
  split_ifs with h <;> simp [h]

end Sys2Proof
end

