-- ==== Sys2Proof/Laws/Meanings.lean ====
section
/-! SUPPORT. Forward laws, one per command that has a condition: where the conditions of its rule hold, what `exec` answers.
Later proofs that chain commands cite these and do not unfold a meaning. -/

namespace Sys2Proof.Machine

variable {s : State}

theorem exec_gwr {row : Nat} {vs : VIdx} (h1 : s.DIMV) (h2 : row < s.K) (h3 : (s.V vs).len.toNat = s.N) :
    exec (.gwr row vs) s = .next ((s.setG row (s.V vs).bits).invalidateH.answered 0) := by
  have h2' : s.isGRow row := h2
  have h3' : s.isWord vs := h3
  simp only [exec, execGwr]
  rw [if_neg (not_not.2 h1), if_neg (not_not.2 h2'), if_neg (not_not.2 h3')]
  rfl

theorem exec_grd {row : Nat} {vd : VIdx} (h1 : s.DIMV) (h2 : row < s.K) :
    exec (.grd vd row) s = .next ((s.setV vd s.n (s.G row)).answered 0) := by
  have h2' : s.isGRow row := h2
  simp only [exec, execGrd]
  rw [if_neg (not_not.2 h1), if_neg (not_not.2 h2')]
  rfl

theorem exec_hwr {row : Nat} {vs : VIdx} (h1 : s.DIMV) (h2 : row < s.N - s.K) (h3 : (s.V vs).len.toNat = s.N) :
    exec (.hwr row vs) s = .next ((s.setH row (s.V vs).bits).invalidateT.answered 0) := by
  have h2' : s.isHRow row := h2
  have h3' : s.isWord vs := h3
  simp only [exec, execHwr]
  rw [if_neg (not_not.2 h1), if_neg (not_not.2 h2'), if_neg (not_not.2 h3')]
  rfl

theorem exec_hrd {row : Nat} {vd : VIdx} (h1 : s.DIMV) (h2 : row < s.N - s.K) (h3 : s.hv = true) :
    exec (.hrd vd row) s = .next ((s.setV vd s.n (s.H row)).answered 0) := by
  have h2' : s.isHRow row := h2
  simp only [exec, execHrd]
  rw [if_neg (not_not.2 h1), if_neg (not_not.2 h2'), if_neg (by simp [h3])]
  rfl

theorem exec_vxor {vd vs1 vs2 : VIdx} (h : (s.V vs1).len.toNat = (s.V vs2).len.toNat) :
    exec (.vxor vd vs1 vs2) s = .next ((s.setV vd (s.V vs1).len ((s.V vs1).bits ^^^ (s.V vs2).bits)).answered 0) := by
  have h' : s.lenOf vs1 = s.lenOf vs2 := h
  simp only [exec, execVxor]
  rw [if_neg (not_not.2 h')]
  rfl

theorem exec_vflip {vd vs : VIdx} {pos : Nat} (h : pos < (s.V vs).len.toNat) :
    exec (.vflip vd vs pos) s = .next ((s.setV vd (s.V vs).len ((s.V vs).bits ^^^ oneAt pos)).answered 0) := by
  have h' : s.isPosition vs pos := h
  simp only [exec, execVflip]
  rw [if_neg (not_not.2 h')]
  rfl

theorem exec_enc {vd vs : VIdx} (h1 : s.DIMV) (h2 : (s.V vs).len.toNat = s.K) :
    exec (.enc vd vs) s = .next ((s.setV vd s.n (encodeMessage s.gmem (s.V vs).bits s.K)).answered 0) := by
  have h2' : s.isMessage vs := h2
  simp only [exec, execEnc]
  rw [if_neg (not_not.2 h1), if_neg (not_not.2 h2')]
  rfl

theorem exec_synd {vd vs : VIdx} (h1 : s.DIMV) (h2 : s.hv = true) (h3 : (s.V vs).len.toNat = s.N) :
    exec (.synd vd vs) s =
      .next (((s.setV vd (BitVec.ofNat 6 s.R) (syndrome s.hmem (s.V vs).bits s.R)).setZ
        (zeroFlag (syndrome s.hmem (s.V vs).bits s.R))).answered 0) := by
  have h3' : s.isWord vs := h3
  simp only [exec, execSynd]
  rw [if_neg (not_not.2 h1), if_neg (by simp [h2]), if_neg (not_not.2 h3')]
  rfl

theorem exec_buildh (h1 : s.DIMV) (h2 : standardForm s.gmem s.K = true) :
    exec .buildh s = .next ((s.invalidateT.setHmem (buildParityCheck s.gmem s.K s.hmem s.R)).answered 0) := by
  simp only [exec, execBuildh]
  rw [if_neg (not_not.2 h1), if_neg (by simp [h2])]
  rfl

theorem exec_mchk (h1 : s.DIMV) (h2 : s.hv = true) :
    exec .mchk s = .next ((s.setOrth (orthogonal s.gmem s.hmem s.K s.R)).answered 0) := by
  simp only [exec, execMchk]
  rw [if_neg (not_not.2 h1), if_neg (by simp [h2])]
  rfl

theorem exec_tbuild (h1 : s.DIMV) (h2 : s.hv = true) :
    exec .tbuild s =
      .next ((s.setTable (buildTable s.N s.R s.hmem).table (buildTable s.N s.R s.hmem).count).answered 0) := by
  simp only [exec, execTbuild]
  rw [if_neg (not_not.2 h1), if_neg (by simp [h2])]
  rfl

theorem exec_tlk {vd vs : VIdx} {e : Leader} (h1 : s.DIMV) (h2 : (s.V vs).len.toNat = s.N - s.K)
    (h3 : s.T (s.V vs).bits.toNat = some e) :
    exec (.tlk vd vs) s = .next (((s.setV vd s.n e.pat).setW e.wt).answered 0) := by
  have h2' : s.isSyndrome vs := h2
  have h3' : s.T (s.bitsOf vs).toNat = some e := h3
  simp only [exec, execTlk]
  rw [if_neg (not_not.2 h1), if_neg (not_not.2 h2'), h3']
  rfl

theorem exec_dec_zero {vd vs : VIdx} (h1 : s.DIMV) (h2 : s.hv = true) (h3 : (s.V vs).len.toNat = s.N)
    (h4 : syndrome s.hmem (s.V vs).bits s.R = 0) :
    exec (.dec vd vs) s = .next (((s.setV vd s.n (s.V vs).bits).setW 0).answered 0) := by
  have h3' : s.isWord vs := h3
  have h4' : syndrome s.hmem (s.bitsOf vs) s.R = 0 := h4
  simp only [exec, execDec]
  rw [if_neg (not_not.2 h1), if_neg (by simp [h2]), if_neg (not_not.2 h3'), if_pos h4']
  rfl

theorem exec_dec_nonzero {vd vs : VIdx} {e : Leader} (h1 : s.DIMV) (h2 : s.hv = true) (h3 : (s.V vs).len.toNat = s.N)
    (h4 : syndrome s.hmem (s.V vs).bits s.R ≠ 0) (h5 : s.slotOf (s.V vs).bits = some e) :
    exec (.dec vd vs) s = .next (((s.setV vd s.n ((s.V vs).bits ^^^ e.pat)).setW e.wt).answered 0) := by
  have h3' : s.isWord vs := h3
  have h4' : syndrome s.hmem (s.bitsOf vs) s.R ≠ 0 := h4
  have h5' : s.slotOf (s.bitsOf vs) = some e := h5
  simp only [exec, execDec]
  rw [if_neg (not_not.2 h1), if_neg (by simp [h2]), if_neg (not_not.2 h3'), if_neg h4', h5']
  rfl

theorem exec_dec_missing {vd vs : VIdx} (h1 : s.DIMV) (h2 : s.hv = true) (h3 : (s.V vs).len.toNat = s.N)
    (h4 : syndrome s.hmem (s.V vs).bits s.R ≠ 0) (h5 : s.slotOf (s.V vs).bits = none) :
    exec (.dec vd vs) s = .next (s.failed .decodeError) := by
  have h3' : s.isWord vs := h3
  have h4' : syndrome s.hmem (s.bitsOf vs) s.R ≠ 0 := h4
  have h5' : s.slotOf (s.bitsOf vs) = none := h5
  simp only [exec, execDec]
  rw [if_neg (not_not.2 h1), if_neg (by simp [h2]), if_neg (not_not.2 h3'), if_neg h4', h5']
  rfl

theorem exec_deci {vd vs : VIdx} {c : Word} {w : BitVec 6} (h1 : s.DIMV) (h2 : s.hv = true)
    (h3 : (s.V vs).len.toNat = s.N) (h4 : greedyDecode s (s.V vs).bits = some (c, w)) :
    exec (.deci vd vs) s = .next (((s.setV vd s.n c).setW w).answered 0) := by
  have h3' : s.isWord vs := h3
  have h4' : greedyDecode s (s.bitsOf vs) = some (c, w) := h4
  simp only [exec, execDeci]
  rw [if_neg (not_not.2 h1), if_neg (by simp [h2]), if_neg (not_not.2 h3'), h4']
  rfl

theorem exec_deci_missing {vd vs : VIdx} (h1 : s.DIMV) (h2 : s.hv = true) (h3 : (s.V vs).len.toNat = s.N)
    (h4 : greedyDecode s (s.V vs).bits = none) :
    exec (.deci vd vs) s = .next (s.failed .decodeError) := by
  have h3' : s.isWord vs := h3
  have h4' : greedyDecode s (s.bitsOf vs) = none := h4
  simp only [exec, execDeci]
  rw [if_neg (not_not.2 h1), if_neg (by simp [h2]), if_neg (not_not.2 h3'), h4']
  rfl

theorem exec_msg {vd vs : VIdx} (h1 : s.DIMV) (h2 : (s.V vs).len.toNat = s.N) :
    exec (.msg vd vs) s = .next ((s.setV vd s.k ((s.V vs).bits &&& mask s.K)).answered 0) := by
  have h2' : s.isWord vs := h2
  simp only [exec, execMsg]
  rw [if_neg (not_not.2 h1), if_neg (not_not.2 h2')]
  rfl

/-- A successful answer is a success. -/
theorem answered_succeeded (d : Word) : (s.answered d).succeeded := ⟨d, rfl⟩

/-- A failure is no success. -/
theorem failed_not_succeeded (f : Failure) : ¬(s.failed f).succeeded := by
  rintro ⟨d, h⟩
  simp only [State.failed, Option.some.injEq, Response.mk.injEq] at h
  cases f <;> simp [Failure.code] at h

/-- A command other than CSRR that succeeds has its effect. -/
theorem effect_of_succeeded {i : Instr} {t : State} (hi : ∀ c, i ≠ .csrr c) (h : exec i s = .next t) (ht : t.succeeded) :
    ∃ u d, Effect s u i ∧ t = u.answered d := by
  rcases exec_cases i s with ⟨f, h'⟩ | ⟨c, d, hc, -, -⟩ | ⟨u, d, hu, h'⟩
  · rw [h'] at h
    obtain rfl := next_inj h
    exact absurd ht (failed_not_succeeded f)
  · exact absurd hc (hi c)
  · rw [h'] at h
    exact ⟨u, d, hu, (next_inj h).symm⟩

/-- STATUS bit by bit (R33). -/
theorem status_bit (s : State) (i : Nat) : bit s.status i =
    ((decide (i = 0) && s.dimvBit) || (decide (i = 1) && s.gsysBit) || (decide (i = 2) && s.hv) ||
      (decide (i = 3) && s.tb) || (decide (i = 4) && s.ttBit) || (decide (i = 5) && s.z) ||
      (decide (i = 6) && s.orth)) := by
  simp only [State.status, bit, BitVec.getLsbD_or, getLsbD_bitWord_shift, getLsbD_bitWord]
  by_cases h : i < 7
  · interval_cases i <;> simp
  · have : ∀ k, k < 7 → ¬(k = i) ∧ ¬(i = k) := by intro k; omega
    simp [this]

end Sys2Proof.Machine
end

