-- ==== Sys2Proof/Laws/Invariant.lean ====
section
/-! SUPPORT. What the invariant of R42 gives, in the forms that proofs use. -/

namespace Sys2Proof.Machine

variable {s : State}

theorem State.Inv.nmax_le (h : s.Inv) : s.cfg.nmax ≤ 32 := h.cfg_valid.2.1

theorem State.Inv.rmax_le (h : s.Inv) : s.cfg.rmax ≤ 24 := le_trans h.cfg_valid.2.2.2 (min_le_right _ _)

theorem State.Inv.N_le (h : s.Inv) : s.N ≤ 32 := by
  have := h.nmax_le
  rcases h.dims with ⟨h1, -⟩ | ⟨-, -, h1, -⟩ <;> omega

theorem State.Inv.K_le (h : s.Inv) : s.K ≤ 32 := by
  have := h.N_le
  rcases h.dims with ⟨-, h1⟩ | ⟨-, h1, -⟩ <;> omega

theorem State.Inv.R_le (h : s.Inv) : s.R ≤ 24 := by
  have := h.rmax_le
  rcases h.dims with ⟨h1, -⟩ | ⟨-, -, -, h1⟩ <;> simp only [State.R] <;> omega

/-- R is at most 24, so its low six bits are all of it. -/
theorem State.Inv.R_toNat (h : s.Inv) : (BitVec.ofNat 6 s.R).toNat = s.R := by
  have := h.R_le
  simp
  omega

theorem State.Inv.g_vec (h : s.Inv) (j : Nat) : IsVector s.N (s.gmem.read j) :=
  (outside_mask_iff _ _).1 (h.g_rows j).1

theorem State.Inv.h_vec (h : s.Inv) (i : Nat) : IsVector s.N (s.hmem.read i) :=
  (outside_mask_iff _ _).1 (h.h_rows i).1

theorem State.Inv.v_vec (h : s.Inv) (i : VIdx) : IsVector (s.V i).len.toNat (s.V i).bits :=
  (outside_mask_iff _ _).1 (h.vectors i).2

theorem State.Inv.word_vec (h : s.Inv) {i : VIdx} (hi : (s.V i).len.toNat = s.N) : IsVector s.N (s.V i).bits :=
  hi ▸ h.v_vec i

/-- A parity-check matrix is present only in a configured core. -/
theorem State.Inv.dimv_of_hv (h : s.Inv) (hv : s.hv = true) : s.DIMV := by
  rcases h.dims with ⟨h1, -⟩ | ⟨h1, h2, -⟩
  · exact absurd hv (by simp [(h.unconfigured h1).1])
  · exact ⟨h1, h2⟩

theorem State.Inv.hv_of_tb (h : s.Inv) (tb : s.tb = true) : s.hv = true := (h.t_built tb).1

theorem State.Inv.bounds (h : s.Inv) (hd : s.DIMV) : s.N ≤ s.cfg.nmax ∧ s.N - s.K ≤ s.cfg.rmax := by
  rcases h.dims with ⟨h1, h2⟩ | ⟨-, -, h1, h2⟩
  · exact absurd hd.1 (by omega)
  · exact ⟨h1, h2⟩

/-- The machine's syndrome of a word of length N is the source's. -/
theorem State.isSyndrome_syndrome (s : State) {v : Word} (hv : IsVector s.N v) :
    IsSyndrome s.N (s.N - s.K) s.H v (syndrome s.hmem v s.R) := syndrome_isSyndrome s.hmem hv s.R

theorem State.isSyndrome_iff (s : State) {v x : Word} (hv : IsVector s.N v) :
    IsSyndrome s.N (s.N - s.K) s.H v x ↔ syndrome s.hmem v s.R = x :=
  ⟨fun hx => (s.isSyndrome_syndrome hv).unique hx, fun e => e ▸ s.isSyndrome_syndrome hv⟩

/-- While the table is built, the slot of a word's syndrome is assigned (R168 item 5), and what it holds. -/
theorem State.Inv.slot (h : s.Inv) (tb : s.tb = true) {v : Word} (hv : IsVector s.N v) :
    ∃ e, s.slotOf v = some e ∧ IsVector s.N e.pat ∧ syndrome s.hmem e.pat s.R = syndrome s.hmem v s.R ∧
      e.wt.toNat = ones e.pat ∧
      ∀ q, IsVector s.N q → syndrome s.hmem q s.R = syndrome s.hmem v s.R →
        ones e.pat < ones q ∨ (ones e.pat = ones q ∧ (q = e.pat ∨ Before e.pat q)) := by
  obtain ⟨e, he⟩ := buildTable_assigned (r := s.R) s.hmem h.N_le hv
  obtain ⟨h1, h2, h3, h4⟩ := buildTable_some h.N_le he
  refine ⟨e, ?_, h1, BitVec.eq_of_toNat_eq h2, h3, fun q hq e => h4 q hq (by rw [e])⟩
  simp only [State.slotOf, State.T, (h.t_built tb).2, he]

/-! ### How the invariant passes through the named updates -/

/-- The invariant does not mention the flags Z and ORTH, W, ERRCMD and the interface fields. -/
theorem State.Inv.of_same {t : State} (h : s.Inv) (h1 : t.cfg = s.cfg) (h2 : t.v = s.v) (h3 : t.n = s.n) (h4 : t.k = s.k)
    (h5 : t.hv = s.hv) (h6 : t.tb = s.tb) (h7 : t.tcount = s.tcount) (h8 : t.gmem = s.gmem) (h9 : t.hmem = s.hmem)
    (h10 : t.tmem = s.tmem) (h11 : t.err.toNat ≤ 9) : t.Inv where
  cfg_valid := by rw [h1]; exact h.cfg_valid
  mem_wf := by rw [h8, h9, h10]; exact h.mem_wf
  vectors := by simp only [State.V, h2, h1]; exact h.vectors
  dims := by simp only [State.N, State.K, h3, h4, h1]; exact h.dims
  g_rows := by simp only [State.G, State.N, State.K, h3, h4, h8]; exact h.g_rows
  h_rows := by simp only [State.H, State.N, State.R, State.K, h3, h4, h9]; exact h.h_rows
  h_absent := by simp only [State.H, h9, h5, h6]; exact h.h_absent
  t_absent := by simp only [State.T, h10, h7, h6]; exact h.t_absent
  t_built := by simp only [State.N, State.R, State.K, h3, h4, h5, h6, h9, h10]; exact h.t_built
  t_count := by rw [h7, h10]; exact h.t_count
  unconfigured := by simp only [State.N, State.G, h3, h5, h6, h8]; exact h.unconfigured
  err_le := h11

/-- A vector register may take any vector of an admissible length. -/
theorem State.Inv.setV (h : s.Inv) (i : VIdx) {L : BitVec 6} {x : Word} (hL : L.toNat ≤ s.cfg.nmax)
    (hx : IsVector L.toNat x) : (s.setV i L x).Inv where
  cfg_valid := h.cfg_valid
  mem_wf := h.mem_wf
  vectors := fun j => by
    by_cases hij : i = j
    · subst hij
      rw [State.setV_V_same]
      exact ⟨hL, (outside_mask_iff _ _).2 hx⟩
    · rw [State.setV_V_other _ _ _ _ _ hij]
      exact h.vectors j
  dims := h.dims
  g_rows := h.g_rows
  h_rows := h.h_rows
  h_absent := h.h_absent
  t_absent := h.t_absent
  t_built := h.t_built
  t_count := h.t_count
  unconfigured := h.unconfigured
  err_le := h.err_le

/-- After a new H with rows of length N, none above R, the invariant holds once the table is emptied. -/
theorem State.Inv.newH (h : s.Inv) (hd : s.DIMV) {m : RowMem} (hm : m.wf)
    (hr : ∀ i, IsVector s.N (m.read i) ∧ (s.R ≤ i → m.read i = 0)) : (s.setHmem m).invalidateT.Inv where
  cfg_valid := h.cfg_valid
  mem_wf := ⟨h.mem_wf.1, hm, SlotMem.wf_empty⟩
  vectors := h.vectors
  dims := h.dims
  g_rows := h.g_rows
  h_rows := fun i => ⟨(outside_mask_iff _ _).2 (hr i).1, (hr i).2⟩
  h_absent := fun h => by cases h
  t_absent := fun _ => ⟨fun _ => rfl, rfl⟩
  t_built := fun h => by cases h
  t_count := rfl
  unconfigured := fun h0 => absurd (show 0 < s.N from lt_trans hd.1 hd.2) (by rw [show s.N = 0 from h0]; simp)
  err_le := h.err_le

/-- After `invalidateH` only the configuration, the vectors, the dimensions and G are left to check. -/
theorem State.invalidateH_inv (hc : s.cfg.Valid) (hg : s.gmem.wf)
    (hv : ∀ i : VIdx, (s.V i).len.toNat ≤ s.cfg.nmax ∧ (s.V i).bits &&& ~~~mask (s.V i).len.toNat = 0)
    (hd : (s.N = 0 ∧ s.K = 0) ∨ (0 < s.K ∧ s.K < s.N ∧ s.N ≤ s.cfg.nmax ∧ s.N - s.K ≤ s.cfg.rmax))
    (hr : ∀ j, s.G j &&& ~~~mask s.N = 0 ∧ (s.K ≤ j → s.G j = 0)) (hu : s.N = 0 → ∀ j, s.G j = 0)
    (he : s.err.toNat ≤ 9) : s.invalidateH.Inv where
  cfg_valid := hc
  mem_wf := ⟨hg, RowMem.wf_zero, SlotMem.wf_empty⟩
  vectors := hv
  dims := hd
  g_rows := hr
  h_rows := fun j => ⟨by rw [show State.H _ j = 0#32 from rfl]; simp, fun _ => rfl⟩
  h_absent := fun _ => ⟨fun _ => rfl, rfl⟩
  t_absent := fun _ => ⟨fun _ => rfl, rfl⟩
  t_built := fun h => by cases h
  t_count := rfl
  unconfigured := fun h => ⟨rfl, rfl, hu h⟩
  err_le := he

end Sys2Proof.Machine
end

