-- ==== Sys2Proof/Laws/Greedy.lean ====
section
/-! SUPPORT. The greedy pass of R182 as the machine computes it and as a run (`GreedyTrace`): the same. -/

namespace Sys2Proof.Machine

/-- The slot of a word of length N, said with the machine's function. -/
theorem slotOf_iff {s : State} {v : Word} (hv : IsVector s.N v) (e) : SlotOf s v e ↔ s.slotOf v = e := by
  constructor
  · rintro ⟨x, hx, rfl⟩
    have := (s.isSyndrome_iff hv).1 hx
    rw [State.slotOf, this]
  · rintro rfl
    exact ⟨_, s.isSyndrome_syndrome hv, rfl⟩

/-- The machine's pass follows any run that the rule allows. -/
theorem trace_tail {s : State} {cur : Nat → Word} {w : Nat → BitVec 6} (N : Nat) (hN : s.N = N) (hrow : ∀ i, i < N →
      (w i = 0 → cur (i + 1) = cur i ∧ w (i + 1) = w i) ∧
      (w i ≠ 0 → ∃ e, SlotOf s (cur i ^^^ oneAt i) (some e) ∧
        (e.wt.toNat < (w i).toNat → cur (i + 1) = cur i ^^^ oneAt i ∧ w (i + 1) = e.wt) ∧
        ((w i).toNat ≤ e.wt.toNat → cur (i + 1) = cur i ∧ w (i + 1) = w i))) (l i : Nat) (hl : i + l = N) (hc : IsVector N (cur i)) :
   greedyPass s l i (cur i) (w i) = some (cur N, w N) := by
  induction l generalizing i with
  | zero => simp at hl; simp [greedyPass, hl]
  | succ l ih =>
    have hi : i < N := by omega
    simp only [greedyPass]
    split
    · rename_i h0
      have : ∀ k, i + k ≤ N → cur (i+k) = cur i ∧ w (i+k) = w i := by
        intro k hk
        induction k with
        | zero => simp
        | succ k ihk =>
          have := ihk (by omega)
          have h2 := (hrow (i+k) (by omega)).1 (by rw [this.2, h0])
          rw [show i + (k+1) = i + k + 1 by omega, h2.1, h2.2]; exact this
      have := this (l+1) (by omega)
      rw [hl] at this
      rw [this.1, this.2]
    · rename_i h0
      obtain ⟨e, h1, h2, h3⟩ := (hrow i hi).2 h0
      have hv : IsVector s.N (cur i ^^^ oneAt i) := hN ▸ hc.xor (IsVector.oneAt hi)
      rw [(slotOf_iff hv _).1 h1]
      simp only
      split
      · rename_i hlt
        obtain ⟨a, b⟩ := h2 hlt
        rw [← a, ← b]
        exact ih (i+1) (by omega) (by rw [a, ← hN]; exact hv)
      · rename_i hlt
        obtain ⟨a, b⟩ := h3 (not_lt.1 hlt)
        rw [← a, ← b]
        exact ih (i+1) (by omega) (by rw [a]; exact hc)

/-- A pass that ends has a run. -/
theorem trace_exists {s : State} (N : Nat) (hN : s.N = N) (l i : Nat) (hl : i + l = N) (c : Word) (u : BitVec 6) (hc : IsVector N c) (out) (h : greedyPass s l i c u = some out) :
   ∃ (cur : Nat → Word) (w : Nat → BitVec 6), cur i = c ∧ w i = u ∧ (∀ j, i ≤ j → j < N → 
      (w j = 0 → cur (j + 1) = cur j ∧ w (j + 1) = w j) ∧
      (w j ≠ 0 → ∃ e, SlotOf s (cur j ^^^ oneAt j) (some e) ∧
        (e.wt.toNat < (w j).toNat → cur (j + 1) = cur j ^^^ oneAt j ∧ w (j + 1) = e.wt) ∧
        ((w j).toNat ≤ e.wt.toNat → cur (j + 1) = cur j ∧ w (j + 1) = w j))) := by
  induction l generalizing i c u with
  | zero => exact ⟨fun _ => c, fun _ => u, rfl, rfl, fun j h1 h2 => by omega⟩
  | succ l ih =>
    have hi : i < N := by omega
    simp only [greedyPass] at h
    split at h
    · rename_i h0
      exact ⟨fun _ => c, fun _ => u, rfl, rfl, fun j h1 h2 => ⟨fun _ => ⟨rfl, rfl⟩, fun hh => absurd h0 hh⟩⟩
    · rename_i h0
      have hv : IsVector s.N (c ^^^ oneAt i) := hN ▸ hc.xor (IsVector.oneAt hi)
      split at h
      · cases h
      · rename_i e he
        have key : ∀ (c' : Word) (u' : BitVec 6), IsVector N c' → greedyPass s l (i+1) c' u' = some out → (e.wt.toNat < u.toNat → c' = c ^^^ oneAt i ∧ u' = e.wt) → (u.toNat ≤ e.wt.toNat → c' = c ∧ u' = u) → ∃ (cur : Nat → Word) (w : Nat → BitVec 6), cur i = c ∧ w i = u ∧ (∀ j, i ≤ j → j < N → 
      (w j = 0 → cur (j + 1) = cur j ∧ w (j + 1) = w j) ∧
      (w j ≠ 0 → ∃ e, SlotOf s (cur j ^^^ oneAt j) (some e) ∧
        (e.wt.toNat < (w j).toNat → cur (j + 1) = cur j ^^^ oneAt j ∧ w (j + 1) = e.wt) ∧
        ((w j).toNat ≤ e.wt.toNat → cur (j + 1) = cur j ∧ w (j + 1) = w j))) := by
          intro c' u' hc' hp h1 h2
          obtain ⟨cur, w, a, b, r⟩ := ih (i+1) (by omega) c' u' hc' hp
          refine ⟨fun j => if j = i then c else cur j, fun j => if j = i then u else w j, by simp, by simp, ?_⟩
          intro j hj1 hj2
          by_cases hji : j = i
          · subst hji
            have : ¬ (j + 1 = j) := by omega
            simp only [if_true, this, if_false, a, b]
            refine ⟨fun hh => absurd hh h0, fun _ => ⟨e, (slotOf_iff hv _).2 he, h1, h2⟩⟩
          · have : ¬ (j + 1 = i) := by omega
            simp only [hji, this, if_false]
            exact r j (by omega) hj2
        split at h
        · rename_i hlt
          exact key _ _ (hN ▸ hv) h (fun _ => ⟨rfl, rfl⟩) (fun hh => absurd hlt (not_lt.2 hh))
        · rename_i hlt
          exact key _ _ hc h (fun hh => absurd hh hlt) (fun _ => ⟨rfl, rfl⟩)

/-- If the rule has a run, the machine ends with its last word and weight. -/
theorem trace_run {s : State} {r : Word} (hr : IsVector s.N r) {cur w} (h : GreedyTrace s r cur w) : greedyDecode s r = some (cur s.N, w s.N) := by
  obtain ⟨h0, ⟨e, h1, h2⟩, h3⟩ := h
  simp only [greedyDecode]
  rw [(slotOf_iff hr _).1 h1]
  simp only
  rw [← h2]
  have := trace_tail s.N rfl h3 s.N 0 (by omega) (by rw [h0]; exact hr)
  rw [h0] at this; exact this

/-- If the machine's decoder ends, the rule has a run. -/
theorem trace_of {s : State} {r : Word} (hr : IsVector s.N r) {out} (h : greedyDecode s r = some out) : ∃ cur w, GreedyTrace s r cur w := by
  simp only [greedyDecode] at h
  split at h
  · cases h
  · rename_i e he
    obtain ⟨cur, w, a, b, c⟩ := trace_exists s.N rfl s.N 0 (by omega) r e.wt hr out h
    exact ⟨cur, w, a, ⟨e, (slotOf_iff hr _).2 he, b⟩, fun i hi => c i (by omega) hi⟩

end Sys2Proof.Machine
end

