-- ==== Sys2Proof/Laws/PerInstr.lean ====
section
/-! SUPPORT. Statements about every command, one lemma per constructor of `Instr`. Family `OwnTest`: the word of a command
passes the (match, mask) test of the row of R85 that has its mnemonic, whatever its operands. -/

namespace Sys2Proof.Laws.OwnTest

open Sys2Proof Sys2Proof.Machine

/-- The command's own row of R85 accepts its word. -/
def Statement (i : Instr) : Prop := ∃ row ∈ opcodeMap, row.mnemonic = i.mnemonic ∧ encode i &&& row.mask = row.mtch

theorem setdim (n k : Nat) : Statement (.setdim n k) := by
  refine ⟨opcodeMap[0], by decide, rfl, BitVec.eq_of_getLsbD_eq fun j hj => ?_⟩
  simp only [encode, opcodeMap, List.getElem_cons_zero]
  rw [BitVec.getLsbD_and, formatD_bit]
  interval_cases j <;> simp [-BitVec.getLsbD_eq_getElem]

theorem csrr (csr : Nat) : Statement (.csrr csr) := by
  refine ⟨opcodeMap[1], by decide, rfl, BitVec.eq_of_getLsbD_eq fun j hj => ?_⟩
  simp only [encode, opcodeMap, List.getElem_cons_succ, List.getElem_cons_zero]
  rw [BitVec.getLsbD_and, formatV_bit]
  interval_cases j <;> simp [-BitVec.getLsbD_eq_getElem]

theorem vld (vd : VIdx) (len : Nat) : Statement (.vld vd len) := by
  refine ⟨opcodeMap[2], by decide, rfl, BitVec.eq_of_getLsbD_eq fun j hj => ?_⟩
  simp only [encode, opcodeMap, List.getElem_cons_succ, List.getElem_cons_zero]
  rw [BitVec.getLsbD_and, formatV_bit]
  interval_cases j <;> simp [-BitVec.getLsbD_eq_getElem]

theorem vst (vs : VIdx) : Statement (.vst vs) := by
  refine ⟨opcodeMap[3], by decide, rfl, BitVec.eq_of_getLsbD_eq fun j hj => ?_⟩
  simp only [encode, opcodeMap, List.getElem_cons_succ, List.getElem_cons_zero]
  rw [BitVec.getLsbD_and, formatV_bit]
  interval_cases j <;> simp [-BitVec.getLsbD_eq_getElem]

theorem vlen (vs : VIdx) : Statement (.vlen vs) := by
  refine ⟨opcodeMap[4], by decide, rfl, BitVec.eq_of_getLsbD_eq fun j hj => ?_⟩
  simp only [encode, opcodeMap, List.getElem_cons_succ, List.getElem_cons_zero]
  rw [BitVec.getLsbD_and, formatV_bit]
  interval_cases j <;> simp [-BitVec.getLsbD_eq_getElem]

theorem vxor (vd vs1 vs2 : VIdx) : Statement (.vxor vd vs1 vs2) := by
  refine ⟨opcodeMap[5], by decide, rfl, BitVec.eq_of_getLsbD_eq fun j hj => ?_⟩
  simp only [encode, opcodeMap, List.getElem_cons_succ, List.getElem_cons_zero]
  rw [BitVec.getLsbD_and, formatV_bit]
  interval_cases j <;> simp [-BitVec.getLsbD_eq_getElem]

theorem vflip (vd vs : VIdx) (pos : Nat) : Statement (.vflip vd vs pos) := by
  refine ⟨opcodeMap[6], by decide, rfl, BitVec.eq_of_getLsbD_eq fun j hj => ?_⟩
  simp only [encode, opcodeMap, List.getElem_cons_succ, List.getElem_cons_zero]
  rw [BitVec.getLsbD_and, formatV_bit]
  interval_cases j <;> simp [-BitVec.getLsbD_eq_getElem]

theorem vwt (vs : VIdx) : Statement (.vwt vs) := by
  refine ⟨opcodeMap[7], by decide, rfl, BitVec.eq_of_getLsbD_eq fun j hj => ?_⟩
  simp only [encode, opcodeMap, List.getElem_cons_succ, List.getElem_cons_zero]
  rw [BitVec.getLsbD_and, formatV_bit]
  interval_cases j <;> simp [-BitVec.getLsbD_eq_getElem]

theorem vdot (vs1 vs2 : VIdx) : Statement (.vdot vs1 vs2) := by
  refine ⟨opcodeMap[8], by decide, rfl, BitVec.eq_of_getLsbD_eq fun j hj => ?_⟩
  simp only [encode, opcodeMap, List.getElem_cons_succ, List.getElem_cons_zero]
  rw [BitVec.getLsbD_and, formatV_bit]
  interval_cases j <;> simp [-BitVec.getLsbD_eq_getElem]

theorem gwr (row : Nat) (vs : VIdx) : Statement (.gwr row vs) := by
  refine ⟨opcodeMap[9], by decide, rfl, BitVec.eq_of_getLsbD_eq fun j hj => ?_⟩
  simp only [encode, opcodeMap, List.getElem_cons_succ, List.getElem_cons_zero]
  rw [BitVec.getLsbD_and, formatV_bit]
  interval_cases j <;> simp [-BitVec.getLsbD_eq_getElem]

theorem grd (vd : VIdx) (row : Nat) : Statement (.grd vd row) := by
  refine ⟨opcodeMap[10], by decide, rfl, BitVec.eq_of_getLsbD_eq fun j hj => ?_⟩
  simp only [encode, opcodeMap, List.getElem_cons_succ, List.getElem_cons_zero]
  rw [BitVec.getLsbD_and, formatV_bit]
  interval_cases j <;> simp [-BitVec.getLsbD_eq_getElem]

theorem hwr (row : Nat) (vs : VIdx) : Statement (.hwr row vs) := by
  refine ⟨opcodeMap[11], by decide, rfl, BitVec.eq_of_getLsbD_eq fun j hj => ?_⟩
  simp only [encode, opcodeMap, List.getElem_cons_succ, List.getElem_cons_zero]
  rw [BitVec.getLsbD_and, formatV_bit]
  interval_cases j <;> simp [-BitVec.getLsbD_eq_getElem]

theorem hrd (vd : VIdx) (row : Nat) : Statement (.hrd vd row) := by
  refine ⟨opcodeMap[12], by decide, rfl, BitVec.eq_of_getLsbD_eq fun j hj => ?_⟩
  simp only [encode, opcodeMap, List.getElem_cons_succ, List.getElem_cons_zero]
  rw [BitVec.getLsbD_and, formatV_bit]
  interval_cases j <;> simp [-BitVec.getLsbD_eq_getElem]

theorem enc (vd vs : VIdx) : Statement (.enc vd vs) := by
  refine ⟨opcodeMap[13], by decide, rfl, BitVec.eq_of_getLsbD_eq fun j hj => ?_⟩
  simp only [encode, opcodeMap, List.getElem_cons_succ, List.getElem_cons_zero]
  rw [BitVec.getLsbD_and, formatV_bit]
  interval_cases j <;> simp [-BitVec.getLsbD_eq_getElem]

theorem synd (vd vs : VIdx) : Statement (.synd vd vs) := by
  refine ⟨opcodeMap[14], by decide, rfl, BitVec.eq_of_getLsbD_eq fun j hj => ?_⟩
  simp only [encode, opcodeMap, List.getElem_cons_succ, List.getElem_cons_zero]
  rw [BitVec.getLsbD_and, formatV_bit]
  interval_cases j <;> simp [-BitVec.getLsbD_eq_getElem]

theorem buildh : Statement .buildh := ⟨opcodeMap[15], by decide, rfl, by decide⟩

theorem mchk : Statement .mchk := ⟨opcodeMap[16], by decide, rfl, by decide⟩

theorem tbuild : Statement .tbuild := ⟨opcodeMap[17], by decide, rfl, by decide⟩

theorem tlk (vd vs : VIdx) : Statement (.tlk vd vs) := by
  refine ⟨opcodeMap[18], by decide, rfl, BitVec.eq_of_getLsbD_eq fun j hj => ?_⟩
  simp only [encode, opcodeMap, List.getElem_cons_succ, List.getElem_cons_zero]
  rw [BitVec.getLsbD_and, formatV_bit]
  interval_cases j <;> simp [-BitVec.getLsbD_eq_getElem]

theorem dec (vd vs : VIdx) : Statement (.dec vd vs) := by
  refine ⟨opcodeMap[19], by decide, rfl, BitVec.eq_of_getLsbD_eq fun j hj => ?_⟩
  simp only [encode, opcodeMap, List.getElem_cons_succ, List.getElem_cons_zero]
  rw [BitVec.getLsbD_and, formatV_bit]
  interval_cases j <;> simp [-BitVec.getLsbD_eq_getElem]

theorem deci (vd vs : VIdx) : Statement (.deci vd vs) := by
  refine ⟨opcodeMap[20], by decide, rfl, BitVec.eq_of_getLsbD_eq fun j hj => ?_⟩
  simp only [encode, opcodeMap, List.getElem_cons_succ, List.getElem_cons_zero]
  rw [BitVec.getLsbD_and, formatV_bit]
  interval_cases j <;> simp [-BitVec.getLsbD_eq_getElem]

theorem msg (vd vs : VIdx) : Statement (.msg vd vs) := by
  refine ⟨opcodeMap[21], by decide, rfl, BitVec.eq_of_getLsbD_eq fun j hj => ?_⟩
  simp only [encode, opcodeMap, List.getElem_cons_succ, List.getElem_cons_zero]
  rw [BitVec.getLsbD_and, formatV_bit]
  interval_cases j <;> simp [-BitVec.getLsbD_eq_getElem]

end Sys2Proof.Laws.OwnTest
end

