-- ==== Sys2Proof/Tests/Slice0.lean ====
section
/-! SUPPORT. The model's own tests: words of the spec against `decode`, the checks of `wellFormed`, one step per command on
small states with the values of spec/95_test_vectors.md, and a witness for the hypotheses of every statement that has some. -/

namespace Sys2Proof.Tests

open Sys2Proof Sys2Proof.Machine

/-! ## Decoding: words of spec/95_test_vectors.md, spec/30_encoding.md R92 -/

theorem test_decode_setdim : decode 0x01002010 = .ok (.setdim 32 16) := by decide
theorem test_decode_csrr : decode 0x02000009 = .ok (.csrr 9) := by decide
theorem test_decode_vld : decode 0x104000FF = .ok (.vld 2 255) := by decide
theorem test_decode_vst : decode 0x111C0000 = .ok (.vst 7) := by decide
theorem test_decode_vlen : decode 0x12040000 = .ok (.vlen 1) := by decide
theorem test_decode_vxor : decode 0x13F58000 = .ok (.vxor 7 5 3) := by decide
theorem test_decode_vflip : decode 0x14940002 = .ok (.vflip 4 5 2) := by decide
theorem test_decode_vwt : decode 0x151C0000 = .ok (.vwt 7) := by decide
theorem test_decode_vdot : decode 0x160E8000 = .ok (.vdot 3 5) := by decide
theorem test_decode_gwr : decode 0x20040001 = .ok (.gwr 1 1) := by decide
theorem test_decode_grd : decode 0x21600002 = .ok (.grd 3 2) := by decide
theorem test_decode_hwr : decode 0x22080000 = .ok (.hwr 0 2) := by decide
theorem test_decode_hrd : decode 0x23400001 = .ok (.hrd 2 1) := by decide
theorem test_decode_enc : decode 0x30940000 = .ok (.enc 4 5) := by decide
theorem test_decode_synd : decode 0x31B00000 = .ok (.synd 5 4) := by decide
theorem test_decode_buildh : decode 0x32000000 = .ok .buildh := by decide
theorem test_decode_mchk : decode 0x33000000 = .ok .mchk := by decide
theorem test_decode_tbuild : decode 0x40000000 = .ok .tbuild := by decide
theorem test_decode_tlk : decode 0x41D40000 = .ok (.tlk 6 5) := by decide
theorem test_decode_dec : decode 0x50440000 = .ok (.dec 2 1) := by decide
theorem test_decode_deci : decode 0x518C0000 = .ok (.deci 4 3) := by decide
theorem test_decode_msg : decode 0x52F80000 = .ok (.msg 7 6) := by decide

/-- Vectors E7 to E9: unassigned opcodes. -/
theorem test_decode_unknown : decode 0x00000000 = .error .unknownOpcode ∧ decode 0xFFFFFFFF = .error .unknownOpcode ∧
    decode 0x03000000 = .error .unknownOpcode := by decide

/-- Vectors E10 to E16: a reserved or unused field that is nonzero. -/
theorem test_decode_reserved : decode 0x01010502 = .error .nonzeroReserved ∧ decode 0x32000001 = .error .nonzeroReserved ∧
    decode 0x30680100 = .error .nonzeroReserved ∧ decode 0x11080001 = .error .nonzeroReserved ∧
    decode 0x13654000 = .error .nonzeroReserved ∧ decode 0x10000105 = .error .nonzeroReserved ∧
    decode 0x16E40000 = .error .nonzeroReserved := by decide

theorem test_decodeTableWord : decodeTableWord 32 0x13650000 = some (.vxor 3 1 2) ∧ decodeTableWord 32 0 = none := by decide

/-! ## WellFormed: each check refuses an immediate of nine bits -/

theorem test_wf_setdim_n : (Instr.setdim 256 1).wellFormed = false := by decide
theorem test_wf_setdim_k : (Instr.setdim 5 256).wellFormed = false := by decide
theorem test_wf_csrr : (Instr.csrr 256).wellFormed = false := by decide
theorem test_wf_vld : (Instr.vld 0 256).wellFormed = false := by decide
theorem test_wf_vflip : (Instr.vflip 0 0 256).wellFormed = false := by decide
theorem test_wf_gwr : (Instr.gwr 256 0).wellFormed = false := by decide
theorem test_wf_grd : (Instr.grd 0 256).wellFormed = false := by decide
theorem test_wf_hwr : (Instr.hwr 256 0).wellFormed = false := by decide
theorem test_wf_hrd : (Instr.hrd 0 256).wellFormed = false := by decide

/-! ## Small states -/

/-- After `SETDIM n, k` from reset. -/
def dims (n k : BitVec 6) : State := { State.reset with n := n, k := k }

/-- EX5 (95_test_vectors.md S0) as it stands before BUILDH. -/
def ex5g : State := { dims 5 2 with gmem := [(0, 0x15), (1, 0x1A)] }

/-- EX5 before TBUILD. -/
def ex5h : State := { ex5g with hmem := [(0, 0x05), (1, 0x0A), (2, 0x13)], hv := true }

/-- EX5, the table as vector T1 lists it. -/
def ex5 : State := { ex5h with
  tmem := [(0, ⟨0, 0x00⟩), (1, ⟨1, 0x04⟩), (2, ⟨1, 0x08⟩), (3, ⟨2, 0x03⟩), (4, ⟨1, 0x10⟩), (5, ⟨1, 0x01⟩), (6, ⟨1, 0x02⟩),
    (7, ⟨2, 0x09⟩)]
  tcount := 8
  tb := true }

/-- Vector T4: N = 4, K = 2, both rows of H equal, G zero. -/
def t4 : State := { dims 4 2 with hmem := [(0, 0x3), (1, 0x3)], hv := true }

/-- The outcome is a next state that passes the test. -/
def after (r : Result) (p : State → Bool) : Bool :=
  match r with
  | .next t => p t
  | .fault _ => false
  | .refused _ => false

/-- A success: code 0 and this DOUT. -/
def ok (d : Word) (t : State) : Bool := t.response == some { errcode := 0, dout := d } && t.err == 0

/-- A failure with this code: ERR and the response. -/
def failedWith (c : BitVec 4) (t : State) : Bool := t.response == some { errcode := c, dout := 0 } && t.err == c

/-! ## One step -/

/-- R230, RS1: reset, then ID. -/
theorem test_reset_id : after (step { ex5 with host := [.reset] }) (fun t => t.csr 0 == some 0x47463243 && t.n == 0) = true := by
  decide

theorem test_step_illegal : after (step { ex5 with host := [.command 0x32000001 0] })
    (fun t => failedWith 8 t && t.errcmd == 0x32000001 && t.hv && t.tb) = true := by decide

theorem test_withFetchWord : after (step (State.reset.withFetchWord 32 0x01000502))
    (fun t => ok 0 t && t.n == 5 && t.k == 2) = true := by decide

/-- A1, A8. -/
theorem test_setdim : after (exec (.setdim 32 16) ex5) (fun t => ok 0 t && t.n == 32 && t.k == 16 && !t.hv && !t.tb) = true := by
  decide
theorem test_setdim_sizeLimit : after (exec (.setdim 32 15) ex5) (fun t => failedWith 7 t && t.n == 5 && t.tb) = true := by
  decide

/-- S0: STATUS of EX5 is 0x1F; RS2: a successful CSRR leaves ERR. -/
theorem test_csrr_status : after (exec (.csrr 5) ex5) (ok 0x1F) = true := by decide
theorem test_csrr_keeps_err : after (exec (.csrr 6) { State.reset with err := 1, errcmd := 0x30200000 })
    (fun t => t.err == 1 && t.response == some { errcode := 0, dout := 1 } && t.errcmd == 0x30200000) = true := by decide

/-- A20, A23. -/
theorem test_vld_masks : after (exec (.vld 0 3) { State.reset with din := 0xFFFFFFFF })
    (fun t => ok 0 t && t.V 0 == ⟨3, 7⟩) = true := by decide
theorem test_vld_sizeLimit : after (exec (.vld 2 33) { State.reset with din := 1 })
    (fun t => failedWith 7 t && t.V 2 == ⟨0, 0⟩) = true := by decide

/-- A25, A26. -/
theorem test_vst : after (exec (.vst 1) (State.reset.setV 1 32 0xFFFFFFFF)) (ok 0xFFFFFFFF) = true := by decide
theorem test_vlen : after (exec (.vlen 1) (State.reset.setV 1 32 0xFFFFFFFF)) (ok 0x20) = true := by decide

/-- M1, M4. -/
theorem test_vxor : after (exec (.vxor 3 1 2) ((State.reset.setV 1 5 0x14).setV 2 5 0x01))
    (fun t => ok 0 t && t.V 3 == ⟨5, 0x15⟩) = true := by decide
theorem test_vxor_same : after (exec (.vxor 1 1 1) (State.reset.setV 1 5 0x14)) (fun t => t.V 1 == ⟨5, 0⟩) = true := by decide

/-- M5, M7. -/
theorem test_vflip : after (exec (.vflip 4 5 1) (State.reset.setV 5 2 1)) (fun t => ok 0 t && t.V 4 == ⟨2, 3⟩) = true := by
  decide
theorem test_vflip_empty : after (exec (.vflip 0 0 0) State.reset) (failedWith 9) = true := by decide

/-- M8. -/
theorem test_vwt : after (exec (.vwt 1) (State.reset.setV 1 32 0xFFFFFFFF)) (fun t => ok 0 t && t.w == 32) = true := by decide

/-- M11, M12. -/
theorem test_vdot : after (exec (.vdot 1 2) ((State.reset.setV 1 5 0x15).setV 2 5 0x01)) (fun t => ok 0 t && t.w == 1) = true := by
  decide
theorem test_vdot_mismatch : after (exec (.vdot 3 5) ((State.reset.setV 3 5 0x01).setV 5 2 1)) (failedWith 4) = true := by decide

/-- I1, A30. -/
theorem test_gwr_invalidates : after (exec (.gwr 1 0) (ex5.setV 0 5 0x1A))
    (fun t => ok 0 t && t.status == 0x03 && t.tcount == 0 && t.G 1 == 0x1A) = true := by decide
theorem test_gwr_indexRange : after (exec (.gwr 2 0) (ex5.setV 0 5 0x15)) (fun t => failedWith 9 t && t.status == 0x1F) = true := by
  decide

/-- A33, A35. -/
theorem test_grd : after (exec (.grd 3 0) ex5) (fun t => ok 0 t && t.V 3 == ⟨5, 0x15⟩) = true := by decide
theorem test_grd_indexRange : after (exec (.grd 3 2) ex5) (failedWith 9) = true := by decide

/-- I2. -/
theorem test_hwr : after (exec (.hwr 0 2) (ex5.setV 2 5 0x05))
    (fun t => ok 0 t && t.status == 0x07 && t.tcount == 0 && t.hmem == ex5.hmem) = true := by decide

/-- S2, A37 (the index before the matrix). -/
theorem test_hrd : after (exec (.hrd 2 2) ex5) (fun t => ok 0 t && t.V 2 == ⟨5, 0x13⟩) = true := by decide
theorem test_hrd_order : after (exec (.hrd 3 3) ex5g) (failedWith 9) = true := by decide

/-- ENC table of 2.4. -/
theorem test_enc : after (exec (.enc 3 2) (ex5.setV 2 2 3)) (fun t => ok 0 t && t.V 3 == ⟨5, 0x0F⟩) = true := by decide
theorem test_enc_unconfigured : after (exec (.enc 1 0) { State.reset with cmd := 0x30200000 })
    (fun t => failedWith 1 t && t.errcmd == 0x30200000) = true := by decide

/-- SYND table of 2.4. -/
theorem test_synd : after (exec (.synd 5 4) (ex5.setV 4 5 0x06)) (fun t => ok 0 t && t.V 5 == ⟨3, 7⟩ && !t.z) = true := by decide
theorem test_synd_zero : after (exec (.synd 5 4) (ex5.setV 4 5 0x15)) (fun t => t.V 5 == ⟨3, 0⟩ && t.z) = true := by decide

/-- B1, B6. -/
theorem test_buildh : after (exec .buildh ex5g) (fun t => ok 0 t && t.hmem == [(0, 0x05), (1, 0x0A), (2, 0x13)] && t.hv) = true := by
  decide
theorem test_buildh_form : after (exec .buildh { ex5g with gmem := [(0, 0x16), (1, 0x1A)] }) (fun t => failedWith 5 t && !t.hv) = true := by
  decide

/-- M16, and M18 with its stale ORTH replaced. -/
theorem test_mchk : after (exec .mchk ex5) (fun t => ok 0 t && t.orth) = true := by decide
theorem test_mchk_not : after (exec .mchk { t4 with gmem := [(0, 0x5)], orth := true }) (fun t => ok 0 t && !t.orth) = true := by
  decide

/-- T1, T4. -/
theorem test_tbuild : after (exec .tbuild ex5h) (fun t => ok 0 t && t.tmem == ex5.tmem && t.tcount == 8 && t.tb) = true := by
  decide
theorem test_tbuild_partial : after (exec .tbuild t4)
    (fun t => ok 0 t && t.tmem == [(0, ⟨0, 0⟩), (3, ⟨1, 1⟩)] && t.tcount == 2 && t.status == 0x0D) = true := by decide

/-- The order of R162 for n = 5, w = 2, as the rule lists it. -/
theorem test_patterns : patterns 5 2 = [0x03, 0x05, 0x09, 0x11, 0x06, 0x0A, 0x12, 0x0C, 0x14, 0x18] := by decide

/-- T2, A40. -/
theorem test_tlk : after (exec (.tlk 6 5) (ex5.setV 5 3 7)) (fun t => ok 0 t && t.V 6 == ⟨5, 0x09⟩ && t.w == 2) = true := by decide
theorem test_tlk_empty : after (exec (.tlk 6 5) (ex5g.setV 5 3 0)) (failedWith 6) = true := by decide

/-- DV5, DV7. -/
theorem test_dec : after (exec (.dec 6 4) (ex5.setV 4 5 0x13)) (fun t => ok 0 t && t.V 6 == ⟨5, 0x1A⟩ && t.w == 2) = true := by
  decide
theorem test_dec_no_table : after (exec (.dec 2 1) (ex5h.setV 1 5 0x15)) (fun t => ok 0 t && t.V 2 == ⟨5, 0x15⟩ && t.w == 0) = true := by
  decide

/-- DV4, DV7. -/
theorem test_deci : after (exec (.deci 6 4) (ex5.setV 4 5 0x06)) (fun t => ok 0 t && t.V 6 == ⟨5, 0x0F⟩ && t.w == 0) = true := by
  decide
theorem test_deci_no_table : after (exec (.deci 2 1) (ex5h.setV 1 5 0x15)) (failedWith 6) = true := by decide

/-- DV11. -/
theorem test_msg : after (exec (.msg 6 6) (ex5.setV 6 5 0x1E)) (fun t => ok 0 t && t.V 6 == ⟨2, 2⟩) = true := by decide

/-! ## The small states meet the invariant -/

theorem reset_inv : State.reset.Inv where
  cfg_valid := by decide
  mem_wf := by decide
  vectors := by decide
  dims := by decide
  g_rows := fun j => ⟨by rw [show State.reset.G j = 0#32 from rfl]; simp, fun _ => rfl⟩
  h_rows := fun j => ⟨by rw [show State.reset.H j = 0#32 from rfl]; simp, fun _ => rfl⟩
  h_absent := fun _ => ⟨fun _ => rfl, rfl⟩
  t_absent := fun _ => ⟨fun _ => rfl, rfl⟩
  t_built := by decide
  t_count := by decide
  unconfigured := fun _ => ⟨rfl, rfl, fun _ => rfl⟩
  err_le := by decide

/-- Rows beyond those listed are 0. -/
theorem row_beyond {x y : Word} {j : Nat} (h : 2 ≤ j) : RowMem.read [(0, x), (1, y)] j = 0#32 := by
  simp [RowMem.read, Memory.find, show ¬0 = j by omega, show ¬1 = j by omega]

theorem row_beyond3 {x y z : Word} {j : Nat} (h : 3 ≤ j) : RowMem.read [(0, x), (1, y), (2, z)] j = 0#32 := by
  simp [RowMem.read, Memory.find, show ¬0 = j by omega, show ¬1 = j by omega, show ¬2 = j by omega]

theorem ex5_g_rows (j : Nat) : ex5.G j &&& ~~~mask ex5.N = 0 ∧ (ex5.K ≤ j → ex5.G j = 0) := by
  by_cases h : 2 ≤ j
  · have e : ex5.G j = 0#32 := row_beyond h
    rw [e]
    exact ⟨by simp, fun _ => rfl⟩
  · have : j = 0 ∨ j = 1 := by omega
    rcases this with rfl | rfl <;> decide

theorem ex5_h_rows (j : Nat) : ex5.H j &&& ~~~mask ex5.N = 0 ∧ (ex5.R ≤ j → ex5.H j = 0) := by
  by_cases h : 3 ≤ j
  · have e : ex5.H j = 0#32 := row_beyond3 h
    rw [e]
    exact ⟨by simp, fun _ => rfl⟩
  · have : j = 0 ∨ j = 1 ∨ j = 2 := by omega
    rcases this with rfl | rfl | rfl <;> decide

theorem ex5_inv : ex5.Inv where
  cfg_valid := by decide
  mem_wf := by decide
  vectors := by decide
  dims := by decide
  g_rows := ex5_g_rows
  h_rows := ex5_h_rows
  h_absent := fun h => absurd h (by decide)
  t_absent := fun h => absurd h (by decide)
  t_built := fun _ => by decide
  t_count := by decide
  unconfigured := fun h => absurd h (by decide)
  err_le := by decide

theorem ex5h_inv : ex5h.Inv where
  cfg_valid := by decide
  mem_wf := by decide
  vectors := by decide
  dims := by decide
  g_rows := ex5_g_rows
  h_rows := ex5_h_rows
  h_absent := fun h => absurd h (by decide)
  t_absent := fun _ => ⟨fun _ => rfl, rfl⟩
  t_built := fun h => absurd h (by decide)
  t_count := by decide
  unconfigured := fun h => absurd h (by decide)
  err_le := by decide

theorem ex5g_inv : ex5g.Inv where
  cfg_valid := by decide
  mem_wf := by decide
  vectors := by decide
  dims := by decide
  g_rows := ex5_g_rows
  h_rows := fun j => ⟨by rw [show ex5g.H j = 0#32 from rfl]; simp, fun _ => rfl⟩
  h_absent := fun _ => ⟨fun _ => rfl, rfl⟩
  t_absent := fun _ => ⟨fun _ => rfl, rfl⟩
  t_built := fun h => absurd h (by decide)
  t_count := by decide
  unconfigured := fun h => absurd h (by decide)
  err_le := by decide

/-- EX5 with a word of length 5 in V4. -/
def ex5w (x : Word) : State := ex5.setV 4 5 x

theorem ex5w_inv {x : Word} (h : x &&& ~~~mask 5 = 0) : (ex5w x).Inv :=
  ex5_inv.setV 4 (by decide) ((outside_mask_iff x 5).1 h)

/-- EX5 with a message of length 2 in V2. -/
def ex5m (x : Word) : State := ex5.setV 2 2 x

theorem ex5m_inv {x : Word} (h : x &&& ~~~mask 2 = 0) : (ex5m x).Inv :=
  ex5_inv.setV 2 (by decide) ((outside_mask_iff x 2).1 h)

/-! ## Witnesses: each statement's hypotheses are met, clause by clause, at the ends of their ranges -/

theorem witness_DecodeInvertsEncode :
    (Instr.setdim 255 0).WellFormed ∧ (Instr.vflip 7 0 255).WellFormed ∧ Instr.tbuild.WellFormed := by decide

theorem witness_EncodeInvertsDecode : decode 0x0100FFFE = .ok (.setdim 255 254) ∧ decode 0x53000000 = .error .unknownOpcode := by
  decide

theorem witness_DecodeFollowsOpcodeMap :
    (∃ row ∈ opcodeMap, (0x0100FFFE : Word) &&& row.mask = row.mtch) ∧ decode 0x0100FFFE = .ok (.setdim 255 254) := by decide

theorem witness_StepTakesTheOldestEvent :
    (∃ s : State, ∃ cmd din rest i, s.host = .command cmd din :: rest ∧ decode cmd = .ok i) ∧
    (∃ s : State, ∃ rest, s.host = .reset :: rest) ∧ ∃ s : State, s.host = [] :=
  ⟨⟨{ ex5 with host := [.command 0x01000502 0, .reset] }, 0x01000502, 0, [.reset], .setdim 5 2, rfl, by decide⟩,
    ⟨{ ex5 with host := [.reset] }, [], rfl⟩, ⟨ex5, rfl⟩⟩

/-- Both ways to be illegal: an opcode not assigned, and BUILDH with a nonzero unused bit. -/
theorem witness_IllegalWordsRaiseIllegalCommand :
    (∃ s : State, ∃ rest, s.host = .command 0x03000000 0 :: rest ∧ ∀ row ∈ opcodeMap, (0x03000000 : Word) &&& row.mask ≠ row.mtch) ∧
    (∃ s : State, ∃ rest, s.host = .command 0x32000001 0 :: rest ∧ ∀ row ∈ opcodeMap, (0x32000001 : Word) &&& row.mask ≠ row.mtch) ∧
    (∀ row ∈ opcodeMap, row.mtch.extractLsb' 24 8 ≠ (0x53000000 : Word).extractLsb' 24 8) :=
  ⟨⟨{ ex5 with host := [.command 0x03000000 0] }, [], rfl, by decide⟩,
    ⟨{ ex5 with host := [.command 0x32000001 0] }, [], rfl, by decide⟩, by decide⟩

theorem witness_ResetEventGivesTheResetState : ∃ s : State, ∃ rest, s.host = .reset :: rest ∧ s.cfg.Valid :=
  ⟨{ ex5 with host := [.reset] }, [], rfl, by decide⟩

/-- A failure, a success, a successful CSRR. -/
theorem witness_FailureChangesOnlyErrAndErrcmd :
    (∃ t r, exec (.enc 1 0) State.reset = .next t ∧ t.response = some r ∧ r.errcode ≠ 0) ∧
    (∃ t r, exec .mchk ex5 = .next t ∧ t.response = some r ∧ r.errcode = 0) ∧
    ∃ t r, exec (.csrr 5) ex5 = .next t ∧ t.response = some r ∧ r.errcode = 0 :=
  ⟨⟨_, _, rfl, rfl, by decide⟩, ⟨_, _, rfl, rfl, rfl⟩, ⟨_, _, rfl, rfl, rfl⟩⟩

theorem witness_CodesTwoAndThreeNeverAppear :
    ∃ s t : State, s.err ≠ 2 ∧ s.err ≠ 3 ∧ (∀ r, s.response = some r → r.errcode ≠ 2 ∧ r.errcode ≠ 3) ∧ step s = .next t :=
  ⟨{ ex5 with host := [.command 0xFFFFFFFF 0] }, _, by decide, by decide, (by intro r h; cases h), rfl⟩

/-- One command and state for each of the nine clauses of R211, in its order. -/
theorem witness_FirstFailureInOrderIsReported :
    (∃ s : State, ∃ rest, s.host = .command 0x03000000 0 :: rest ∧ ∀ i, decode 0x03000000 ≠ .ok i) ∧
    ((Instr.csrr 10).reservedCsr) ∧
    (¬(Instr.setdim 40 50).reservedCsr ∧ (Instr.setdim 40 50).badDims) ∧
    (ex5.Inv ∧ ¬(Instr.setdim 18 1).badDims ∧ (Instr.setdim 18 1).tooLarge ex5 ∧ (Instr.vld 0 33).tooLarge ex5) ∧
    (State.reset.Inv ∧ (Instr.gwr 9 0).needsDims ∧ ¬State.reset.DIMV) ∧
    (ex5g.Inv ∧ ex5g.DIMV ∧ (Instr.hrd 0 3).badIndex ex5g ∧ (Instr.gwr 2 0).badIndex ex5g) ∧
    (ex5g.Inv ∧ ¬(Instr.hrd 0 2).badIndex ex5g ∧ (Instr.hrd 0 2).noMatrix ex5g ∧ Instr.tbuild.noMatrix ex5g) ∧
    (ex5.Inv ∧ ¬(Instr.dec 4 3).noMatrix ex5 ∧ (Instr.dec 4 3).badLength ex5) ∧
    ((ex5g.setV 5 3 7).Inv ∧ ¬(Instr.tlk 6 5).badLength (ex5g.setV 5 3 7) ∧ (Instr.tlk 6 5).noSlot (ex5g.setV 5 3 7)) ∧
    ((ex5.setV 5 3 7).Inv ∧ ¬(Instr.tlk 6 5).badLength (ex5.setV 5 3 7) ∧ ¬(Instr.tlk 6 5).noSlot (ex5.setV 5 3 7)) := by
  refine ⟨⟨{ ex5 with host := [.command 0x03000000 0] }, [], rfl, fun i h => ?_⟩, ?_, ⟨not_false, ?_⟩, ⟨ex5_inv, ?_, ?_, ?_⟩, ⟨reset_inv, trivial, by decide⟩, ⟨ex5g_inv, by decide, ?_, ?_⟩,
    ⟨ex5g_inv, ?_, ?_, ?_⟩, ⟨ex5_inv, ?_, ?_⟩, ⟨ex5g_inv.setV 5 (by decide) ((outside_mask_iff 7 3).1 (by decide)), ?_, ?_⟩,
    ⟨ex5_inv.setV 5 (by decide) ((outside_mask_iff 7 3).1 (by decide)), ?_, ?_⟩⟩
  · rw [show decode 0x03000000 = .error .unknownOpcode by decide] at h
    cases h
  all_goals
    simp only [Instr.reservedCsr, Instr.badDims, Instr.tooLarge, Instr.badIndex, Instr.noMatrix, Instr.badLength, Instr.noSlot]
    decide

/-- A row of G, a row of H and a slot that change, and a slot that gains a leader. -/
theorem witness_MatrixAndTableWriters :
    (∃ t, exec (.gwr 1 4) (ex5w 0x15) = .next t ∧ t.G 1 ≠ (ex5w 0x15).G 1 ∧ t.H 0 ≠ (ex5w 0x15).H 0 ∧ t.T 7 ≠ (ex5w 0x15).T 7) ∧
    ∃ t, exec .tbuild ex5h = .next t ∧ t.T 7 ≠ ex5h.T 7 ∧ t.T 7 ≠ none :=
  ⟨⟨_, rfl, by decide, by decide, by decide⟩, ⟨_, rfl, by decide, by decide⟩⟩

theorem witness_RegisterAndFlagWriters :
    (∃ t, exec (.tlk 6 5) (ex5.setV 5 3 7) = .next t ∧ t.w ≠ (ex5.setV 5 3 7).w) ∧
    (∃ t, exec (.synd 5 4) (ex5w 0x15) = .next t ∧ t.z ≠ (ex5w 0x15).z) ∧
    (∃ t, exec .mchk ex5 = .next t ∧ t.orth ≠ ex5.orth) ∧
    (∃ t, exec (.setdim 32 16) ex5 = .next t ∧ t.n ≠ ex5.n ∧ t.hv = false ∧ ex5.hv = true ∧ t.tb = false ∧ ex5.tb = true) ∧
    (∃ t, exec .buildh ex5g = .next t ∧ t.hv = true ∧ ex5g.hv = false) ∧
    ∃ t, exec .tbuild ex5h = .next t ∧ t.tb = true ∧ ex5h.tb = false :=
  ⟨⟨_, rfl, by decide⟩, ⟨_, rfl, by decide⟩, ⟨_, rfl, by decide⟩, ⟨_, rfl, by decide, rfl, rfl, rfl, rfl⟩, ⟨_, rfl, rfl, rfl⟩,
    ⟨_, rfl, rfl, rfl⟩⟩

theorem witness_VectorRegisterWriters : ∃ t, exec (.vflip 7 4 4) (ex5w 0x15) = .next t ∧ t.V 7 ≠ (ex5w 0x15).V 7 :=
  ⟨_, rfl, by decide⟩

theorem witness_OnlyVldReadsDin : (∀ vd len, Instr.vst 0 ≠ .vld vd len) ∧ ∃ t, exec (.vst 0) ex5 = .next t :=
  ⟨fun _ _ => by simp, _, rfl⟩

theorem witness_ConfigurationAndPendingEventsKept :
    (∃ t, step { ex5 with host := [.command 0x33000000 0, .reset] } = .next t) ∧ ∃ t, exec .mchk ex5 = .next t :=
  ⟨⟨_, rfl⟩, ⟨_, rfl⟩⟩

/-- The smallest and the largest instance of R6. -/
theorem witness_InvariantHoldsAfterReset : Config.Valid { nmax := 2, rmax := 1 } ∧ Config.Valid { nmax := 32, rmax := 24 } := by
  decide

theorem witness_EveryStepKeepsTheInvariant : ∃ s t : State, s.Inv ∧ step s = .next t := ⟨ex5, _, ex5_inv, rfl⟩

theorem witness_MemoriesStayInsideTheirSize :
    ex5.Inv ∧ (1, 0x1A) ∈ ex5.gmem ∧ (2, 0x13) ∈ ex5.hmem ∧ (7, { wt := 2, pat := 0x09 }) ∈ ex5.tmem := ⟨ex5_inv, by decide⟩

/-- n = k, k = 0; n − k just above RMAX and n just above NMAX; n = NMAX with n − k = RMAX, and the smallest code. -/
theorem witness_SetdimSetsDimensionsAndClears :
    (¬(0 < 5 ∧ 5 < 5) ∧ ¬(0 < 0 ∧ 0 < 5)) ∧ (ex5.cfg.rmax < 32 - 15 ∧ ex5.cfg.nmax < 33) ∧
    (ex5.cfg.Valid ∧ 0 < 16 ∧ 16 < 32 ∧ 32 ≤ ex5.cfg.nmax ∧ 32 - 16 ≤ ex5.cfg.rmax ∧ 2 ≤ ex5.cfg.nmax ∧ 2 - 1 ≤ ex5.cfg.rmax) := by
  decide

theorem witness_CsrrReturnsTheRegister : (0x09 < 0x0A ∧ 0x09 ≤ 0x09 ∧ 0x00 ≤ 0x09 ∧ ex5.cfg.Valid) ∧
    ∃ t, (∀ c, Instr.mchk ≠ .csrr c) ∧ exec .mchk ex5 = .next t ∧ t.succeeded :=
  ⟨by decide, _, fun _ => by simp, rfl, _, rfl⟩

theorem witness_VldLoadsTheMaskedDataWord :
    ex5.cfg.nmax < 33 ∧ ex5.cfg.Valid ∧ 32 ≤ ex5.cfg.nmax ∧ 0 ≤ ex5.cfg.nmax := by decide

theorem witness_VxorAddsTwoVectors : (ex5.V 0).len ≠ ((ex5w 0x15).V 4).len ∧ (ex5.V 0).len = (ex5.V 1).len := by decide

/-- The position just outside, the empty vector, the last position inside. -/
theorem witness_VflipFlipsOnePosition :
    ((ex5w 0).V 4).len.toNat ≤ 5 ∧ (ex5.V 0).len.toNat ≤ 0 ∧ 4 < ((ex5w 0).V 4).len.toNat := by decide

theorem witness_VdotReducesTheAnd : ((ex5w 0).V 0).len ≠ ((ex5w 0).V 4).len ∧ (ex5.V 0).len = (ex5.V 1).len := by decide

theorem witness_GwrWritesOneRowAndInvalidates :
    ¬State.reset.DIMV ∧ (ex5.DIMV ∧ ex5.K ≤ 2) ∧ (ex5.DIMV ∧ 1 < ex5.K ∧ (ex5.V 0).len.toNat ≠ ex5.N) ∧
    ((ex5w 0x15).DIMV ∧ 1 < (ex5w 0x15).K ∧ ((ex5w 0x15).V 4).len.toNat = (ex5w 0x15).N) := by decide

theorem witness_GrdReadsOneRow : ¬State.reset.DIMV ∧ (ex5.DIMV ∧ ex5.K ≤ 2) ∧ ex5.DIMV ∧ 1 < ex5.K := by decide

theorem witness_HwrWritesOneRowAndEmptiesTheTable :
    ¬State.reset.DIMV ∧ (ex5.DIMV ∧ ex5.N - ex5.K ≤ 3) ∧ (ex5.DIMV ∧ 2 < ex5.N - ex5.K ∧ (ex5.V 0).len.toNat ≠ ex5.N) ∧
    ((ex5w 0x15).DIMV ∧ 2 < (ex5w 0x15).N - (ex5w 0x15).K ∧ ((ex5w 0x15).V 4).len.toNat = (ex5w 0x15).N) := by decide

theorem witness_HrdReadsOneRow :
    ¬State.reset.DIMV ∧ (ex5.DIMV ∧ ex5.N - ex5.K ≤ 3) ∧ (ex5g.DIMV ∧ 2 < ex5g.N - ex5g.K ∧ ex5g.hv = false) ∧
    (ex5.DIMV ∧ 2 < ex5.N - ex5.K ∧ ex5.hv = true) := by decide

theorem witness_EncMultipliesTheMessageByG :
    ¬State.reset.DIMV ∧ (ex5.DIMV ∧ (ex5.V 2).len.toNat ≠ ex5.K) ∧ (ex5m 3).DIMV ∧ ((ex5m 3).V 2).len.toNat = (ex5m 3).K := by
  decide

theorem witness_SyndComputesTheSyndrome :
    ¬State.reset.DIMV ∧ (ex5g.DIMV ∧ ex5g.hv = false) ∧ (ex5.DIMV ∧ ex5.hv = true ∧ (ex5.V 0).len.toNat ≠ ex5.N) ∧
    ((ex5w 0x06).Inv ∧ (ex5w 0x06).DIMV ∧ (ex5w 0x06).hv = true ∧ ((ex5w 0x06).V 4).len.toNat = (ex5w 0x06).N) :=
  ⟨by decide, by decide, by decide, ex5w_inv (by decide), by decide⟩

/-- B6 is the second clause. -/
theorem witness_BuildhDerivesTheParityCheckMatrix :
    ¬State.reset.DIMV ∧
    (∃ s : State, s.DIMV ∧ ∃ j, j < s.K ∧ s.G j &&& mask s.K ≠ 1#32 <<< j) ∧
    (ex5g.DIMV ∧ ∀ j, j < ex5g.K → ex5g.G j &&& mask ex5g.K = 1#32 <<< j) :=
  ⟨by decide, ⟨{ ex5g with gmem := [(0, 0x16), (1, 0x1A)] }, by decide, 0, by decide⟩, by decide⟩

theorem witness_MchkTestsOrthogonality :
    ¬State.reset.DIMV ∧ (ex5g.DIMV ∧ ex5g.hv = false) ∧ ex5.Inv ∧ ex5.DIMV ∧ ex5.hv = true :=
  ⟨by decide, by decide, ex5_inv, by decide⟩

theorem witness_TbuildStoresTheCosetLeaders :
    ¬State.reset.DIMV ∧ (ex5g.DIMV ∧ ex5g.hv = false) ∧ ex5h.Inv ∧ ex5h.DIMV ∧ ex5h.hv = true ∧
    7 < 2 ^ (ex5h.N - ex5h.K) ∧ 2 ^ (ex5h.N - ex5h.K) ≤ 8 :=
  ⟨by decide, by decide, ex5h_inv, by decide⟩

theorem witness_TlkLooksUpTheLeader :
    ¬State.reset.DIMV ∧ (ex5.DIMV ∧ (ex5.V 0).len.toNat ≠ ex5.N - ex5.K) ∧
    ((ex5h.setV 5 3 7).DIMV ∧ ((ex5h.setV 5 3 7).V 5).len.toNat = ex5h.N - ex5h.K ∧ (ex5h.setV 5 3 7).T 7 = none) ∧
    ((ex5.setV 5 3 7).DIMV ∧ ((ex5.setV 5 3 7).V 5).len.toNat = ex5.N - ex5.K ∧
      (ex5.setV 5 3 7).T ((ex5.setV 5 3 7).V 5).bits.toNat = some { wt := 2, pat := 0x09 }) := by decide

/-- The received word 0x06 has syndrome 7, a codeword has syndrome 0. -/
theorem ex5w_syndrome {x y : Word} (h : x &&& ~~~mask 5 = 0) (e : syndrome (ex5w x).hmem x (ex5w x).R = y) :
    IsSyndrome (ex5w x).N ((ex5w x).N - (ex5w x).K) (ex5w x).H ((ex5w x).V 4).bits y :=
  ((ex5w x).isSyndrome_iff ((outside_mask_iff x 5).1 h)).2 e

theorem witness_DecAddsTheLeader :
    ¬State.reset.DIMV ∧ (ex5g.DIMV ∧ ex5g.hv = false) ∧ (ex5.DIMV ∧ ex5.hv = true ∧ (ex5.V 0).len.toNat ≠ ex5.N) ∧
    ((ex5w 0x15).Inv ∧ (ex5w 0x15).DIMV ∧ (ex5w 0x15).hv = true ∧ ((ex5w 0x15).V 4).len.toNat = (ex5w 0x15).N ∧
      IsSyndrome (ex5w 0x15).N ((ex5w 0x15).N - (ex5w 0x15).K) (ex5w 0x15).H ((ex5w 0x15).V 4).bits 0) ∧
    ((ex5w 0x06).Inv ∧
      IsSyndrome (ex5w 0x06).N ((ex5w 0x06).N - (ex5w 0x06).K) (ex5w 0x06).H ((ex5w 0x06).V 4).bits 7 ∧
      (7 : Word) ≠ 0 ∧ (ex5w 0x06).T (7 : Word).toNat = some { wt := 2, pat := 0x09 }) ∧
    ((ex5h.setV 4 5 0x06).Inv ∧
      IsSyndrome (ex5h.setV 4 5 0x06).N ((ex5h.setV 4 5 0x06).N - (ex5h.setV 4 5 0x06).K) (ex5h.setV 4 5 0x06).H
        ((ex5h.setV 4 5 0x06).V 4).bits 7 ∧ (ex5h.setV 4 5 0x06).T (7 : Word).toNat = none) :=
  ⟨by decide, by decide, by decide,
    ⟨ex5w_inv (by decide), by decide, rfl, by decide, ex5w_syndrome (by decide) (by decide)⟩,
    ⟨ex5w_inv (by decide), ex5w_syndrome (by decide) (by decide), by decide, by decide⟩,
    ⟨ex5h_inv.setV 4 (by decide) ((outside_mask_iff 0x06 5).1 (by decide)),
      ((ex5h.setV 4 5 0x06).isSyndrome_iff ((outside_mask_iff 0x06 5).1 (by decide))).2 (by decide), by decide⟩⟩

/-- A run exists on EX5 (vector DV4); none exists without a table. -/
theorem witness_DeciMakesOneGreedyPass :
    ¬State.reset.DIMV ∧ (ex5g.DIMV ∧ ex5g.hv = false) ∧ (ex5.DIMV ∧ ex5.hv = true ∧ (ex5.V 0).len.toNat ≠ ex5.N) ∧
    ((ex5w 0x06).Inv ∧ (ex5w 0x06).DIMV ∧ (ex5w 0x06).hv = true ∧ ((ex5w 0x06).V 4).len.toNat = (ex5w 0x06).N ∧
      ∃ cur w, GreedyTrace (ex5w 0x06) ((ex5w 0x06).V 4).bits cur w) ∧
    ((ex5h.setV 4 5 0x06).Inv ∧ ¬∃ cur w, GreedyTrace (ex5h.setV 4 5 0x06) ((ex5h.setV 4 5 0x06).V 4).bits cur w) :=
  ⟨by decide, by decide, by decide,
    ⟨ex5w_inv (by decide), by decide, rfl, by decide,
      trace_of ((outside_mask_iff 0x06 5).1 (by decide)) (show greedyDecode (ex5w 0x06) _ = some (0x0F, 0) by decide)⟩,
    ⟨ex5h_inv.setV 4 (by decide) ((outside_mask_iff 0x06 5).1 (by decide)), fun ⟨_, _, h⟩ => by
      obtain ⟨-, ⟨_, ⟨_, -, h⟩, -⟩, -⟩ := h
      cases h⟩⟩

theorem witness_MsgTruncatesToTheMessage :
    ¬State.reset.DIMV ∧ (ex5.DIMV ∧ (ex5.V 0).len.toNat ≠ ex5.N) ∧ (ex5w 0x1E).DIMV ∧
    ((ex5w 0x1E).V 4).len.toNat = (ex5w 0x1E).N := by decide

/-- The empty list, the only list of the largest weight. -/
theorem witness_CombinationsAreLexicographic : 0 ≤ 0 ∧ 32 ≤ 32 ∧ combinations 3 3 = [[0, 1, 2]] ∧ (combinations 3 2)[0]? = some [0, 1] := by
  decide

theorem witness_TcountIsTwoToTheRank : ∃ t, ex5h.Inv ∧ ex5h.DIMV ∧ ex5h.hv = true ∧ exec .tbuild ex5h = .next t :=
  ⟨_, ex5h_inv, by decide, rfl, rfl⟩

/-- The hypotheses of the three statements about the state after BUILDH. -/
theorem witness_BuildhGivesATotalTable : ∃ t, ex5g.Inv ∧ exec .buildh ex5g = .next t ∧ t.succeeded :=
  ⟨_, ex5g_inv, rfl, _, rfl⟩

theorem witness_BuildhPairIsOrthogonal : ∃ t, ex5.Inv ∧ exec .buildh ex5 = .next t ∧ t.succeeded :=
  ⟨_, ex5_inv, rfl, _, rfl⟩

theorem witness_ZeroSyndromeIffCodeword :
    ∃ t, ex5g.Inv ∧ exec .buildh ex5g = .next t ∧ t.succeeded ∧ IsVector t.N 0x15 ∧ IsVector t.N 0x06 :=
  ⟨_, ex5g_inv, rfl, ⟨_, rfl⟩, (outside_mask_iff 0x15 5).1 (by decide), (outside_mask_iff 0x06 5).1 (by decide)⟩

theorem witness_EncodedMessagesHaveZeroSyndrome :
    (ex5m 3).Inv ∧ (ex5m 3).DIMV ∧ (ex5m 3).hv = true ∧ ((ex5m 3).V 2).len.toNat = (ex5m 3).K ∧
    IsOrthogonal (ex5m 3).N (ex5m 3).K ((ex5m 3).N - (ex5m 3).K) (ex5m 3).G (ex5m 3).H := by
  refine ⟨ex5m_inv (by decide), by decide, rfl, by decide, fun j i hj hi => ?_⟩
  have hj' : j < 2 := hj
  have hi' : i < 3 := hi
  interval_cases j <;> interval_cases i <;> decide

theorem witness_SyndromesAddUp :
    ((ex5w 0x15).setV 3 5 0x06).Inv ∧ ((ex5w 0x15).setV 3 5 0x06).DIMV ∧ ((ex5w 0x15).setV 3 5 0x06).hv = true ∧
    (((ex5w 0x15).setV 3 5 0x06).V 3).len.toNat = 5 ∧ (((ex5w 0x15).setV 3 5 0x06).V 4).len.toNat = 5 ∧
    4 < ((ex5w 0x15).setV 3 5 0x06).N :=
  ⟨(ex5w_inv (by decide)).setV 3 (by decide) ((outside_mask_iff 0x06 5).1 (by decide)), by decide⟩

theorem ex5_standard : IsStandard ex5.K ex5.G := (standardForm_iff ex5.gmem (by decide)).1 (by decide)

theorem witness_MessageIsAPrefixOfItsCodeword :
    (ex5m 3).Inv ∧ (ex5m 3).DIMV ∧ IsStandard (ex5m 3).K (ex5m 3).G ∧ ((ex5m 3).V 2).len.toNat = (ex5m 3).K :=
  ⟨ex5m_inv (by decide), by decide, ex5_standard, by decide⟩

theorem witness_EncodeDecodeRoundTrip :
    (ex5m 1).Inv ∧ (ex5m 1).DIMV ∧ IsStandard (ex5m 1).K (ex5m 1).G ∧ ((ex5m 1).V 2).len.toNat = (ex5m 1).K :=
  ⟨ex5m_inv (by decide), by decide, ex5_standard, by decide⟩

theorem witness_DecodersNeverMissASlot :
    (ex5w 0x13).Inv ∧ (ex5w 0x13).tb = true ∧ ((ex5w 0x13).V 4).len.toNat = (ex5w 0x13).N :=
  ⟨ex5w_inv (by decide), rfl, by decide⟩

theorem witness_DecReturnsTheNearestCodeword :
    (ex5w 0x13).Inv ∧ (ex5w 0x13).tb = true ∧ ((ex5w 0x13).V 4).len.toNat = (ex5w 0x13).N ∧ IsVector (ex5w 0x13).N 0x1A ∧
    IsSyndrome (ex5w 0x13).N ((ex5w 0x13).N - (ex5w 0x13).K) (ex5w 0x13).H 0x1A 0 :=
  ⟨ex5w_inv (by decide), rfl, by decide, (outside_mask_iff 0x1A 5).1 (by decide),
    ((ex5w 0x13).isSyndrome_iff ((outside_mask_iff 0x1A 5).1 (by decide))).2 (by decide)⟩

theorem witness_GreedyDecoderAgreesWithTableDecoder :
    (ex5w 0x06).Inv ∧ (ex5w 0x06).tb = true ∧ ((ex5w 0x06).V 4).len.toNat = (ex5w 0x06).N :=
  ⟨ex5w_inv (by decide), rfl, by decide⟩

theorem witness_CodewordsDecodeToThemselves :
    (ex5w 0x0F).Inv ∧ (ex5w 0x0F).DIMV ∧ (ex5w 0x0F).hv = true ∧ ((ex5w 0x0F).V 4).len.toNat = (ex5w 0x0F).N ∧
    IsSyndrome (ex5w 0x0F).N ((ex5w 0x0F).N - (ex5w 0x0F).K) (ex5w 0x0F).H ((ex5w 0x0F).V 4).bits 0 ∧ (ex5w 0x0F).tb = true :=
  ⟨ex5w_inv (by decide), by decide, rfl, by decide, ex5w_syndrome (by decide) (by decide), rfl⟩

/-- DV3 with c = 0x0F, at the last position. -/
theorem witness_SingleErrorsAreCorrected :
    (ex5w 0x1F).Inv ∧ (ex5w 0x1F).tb = true ∧
    (∀ j, j < (ex5w 0x1F).N → ∃ i, i < (ex5w 0x1F).N - (ex5w 0x1F).K ∧ bit ((ex5w 0x1F).H i) j = true) ∧
    (∀ j k, j < k → k < (ex5w 0x1F).N →
      ∃ i, i < (ex5w 0x1F).N - (ex5w 0x1F).K ∧ bit ((ex5w 0x1F).H i) j ≠ bit ((ex5w 0x1F).H i) k) ∧
    IsVector (ex5w 0x1F).N 0x0F ∧ IsSyndrome (ex5w 0x1F).N ((ex5w 0x1F).N - (ex5w 0x1F).K) (ex5w 0x1F).H 0x0F 0 ∧
    4 < (ex5w 0x1F).N ∧ ((ex5w 0x1F).V 4).len.toNat = (ex5w 0x1F).N ∧
    (∀ i, i < 32 → bit ((ex5w 0x1F).V 4).bits i = (bit 0x0F i != decide (i = 4))) := by
  refine ⟨ex5w_inv (by decide), rfl, by decide, fun j k hjk hk => ?_, (outside_mask_iff 0x0F 5).1 (by decide),
    ((ex5w 0x1F).isSyndrome_iff ((outside_mask_iff 0x0F 5).1 (by decide))).2 (by decide), by decide, by decide, by decide⟩
  have hk' : k < 5 := hk
  interval_cases k <;> interval_cases j <;> decide

/-- GWR and SETDIM on EX5; HWR and BUILDH on EX5, then a word and a syndrome to look up. -/
theorem witness_StaleDataCannotBeUsed :
    (∃ t, exec (.gwr 0 4) (ex5w 0x15) = .next t ∧ t.succeeded ∧ t.DIMV) ∧
    (∃ t, exec (.setdim 5 2) ex5 = .next t ∧ t.succeeded ∧ t.DIMV ∧ 2 < t.N - t.K) ∧
    (∃ t, (ex5w 0x05).Inv ∧ exec (.hwr 0 4) (ex5w 0x05) = .next t ∧ t.succeeded ∧ (t.V 4).len.toNat = t.N ∧
      ∃ x, IsSyndrome t.N (t.N - t.K) t.H (t.V 4).bits x ∧ x ≠ 0) ∧
    ∃ t, (ex5.setV 5 3 0).Inv ∧ exec .buildh (ex5.setV 5 3 0) = .next t ∧ t.succeeded ∧ (t.V 5).len.toNat = t.N - t.K :=
  ⟨⟨_, rfl, ⟨_, rfl⟩, by decide⟩, ⟨_, rfl, ⟨_, rfl⟩, by decide⟩,
    ⟨_, ex5w_inv (by decide), rfl, ⟨_, rfl⟩, by decide, 4,
      by
        refine (State.isSyndrome_iff _ ?_).2 ?_
        · exact (outside_mask_iff 0x05 5).1 (by decide)
        · decide,
      by decide⟩,
    ⟨_, ex5_inv.setV 5 (by decide) (IsVector.zero 3), rfl, ⟨_, rfl⟩, by decide⟩⟩

theorem witness_RowsReadBackAsWritten :
    (∃ t, exec (.gwr 1 4) (ex5w 0x15) = .next t ∧ t.succeeded) ∧ ∃ t, exec (.hwr 2 4) (ex5w 0x15) = .next t ∧ t.succeeded :=
  ⟨⟨_, rfl, _, rfl⟩, ⟨_, rfl, _, rfl⟩⟩

/-- The messages 3 and 1. -/
theorem witness_EncodedMessagesAddUp :
    ((ex5m 3).setV 3 2 1).Inv ∧ ((ex5m 3).setV 3 2 1).DIMV ∧
    (((ex5m 3).setV 3 2 1).V 2).len.toNat = ((ex5m 3).setV 3 2 1).K ∧ (((ex5m 3).setV 3 2 1).V 3).len.toNat = ((ex5m 3).setV 3 2 1).K :=
  ⟨(ex5m_inv (by decide)).setV 3 (by decide) ((outside_mask_iff 1 2).1 (by decide)), by decide⟩

theorem ex5_orthogonal : IsOrthogonal ex5.N ex5.K (ex5.N - ex5.K) ex5.G ex5.H := fun j i hj hi => by
  have hj' : j < 2 := hj
  have hi' : i < 3 := hi
  interval_cases j <;> interval_cases i <;> decide

/-- Independence, tried on every nonempty combination of the rows. -/
theorem independentRows_of_all (g : RowMem) (k : Nat) (h : ∀ x, x < 2 ^ k → encodeMessage g (BitVec.ofNat 32 x) k = 0 → BitVec.ofNat 32 x = (0 : Word)) :
    IndependentRows k g.read := fun m hm hp => by
  have e := h m.toNat hm.toNat_lt
  rw [BitVec.ofNat_toNat, BitVec.setWidth_eq] at e
  exact e ((isProduct_iff g m 0 k).1 hp)

theorem witness_ConsequencesOfEncodeAndSyndrome :
    ex5.Inv ∧ 4 < ex5.N ∧ (ones 0x10 = 1 ∧ bit 0x10 4 = true) ∧ (IsStandard ex5.K ex5.G ∧ IsVector ex5.K 3) ∧
    (IsOrthogonal ex5.N ex5.K (ex5.N - ex5.K) ex5.G ex5.H ∧ IndependentRows ex5.K ex5.G ∧
      IndependentRows (ex5.N - ex5.K) ex5.H ∧ IsVector ex5.N 0x1A ∧ syndrome ex5.hmem 0x1A ex5.R = 0) ∧
    ∃ t, exec .buildh ex5 = .next t ∧ t.succeeded :=
  ⟨ex5_inv, by decide, by decide, ⟨ex5_standard, (outside_mask_iff 3 2).1 (by decide)⟩,
    ⟨ex5_orthogonal, independentRows_of_all ex5.gmem 2 (by decide), independentRows_of_all ex5.hmem 3 (by decide),
      (outside_mask_iff 0x1A 5).1 (by decide), by decide⟩, _, rfl, _, rfl⟩

end Sys2Proof.Tests
end

/-! SUPPORT. What one step can do, said once, and that a command leaves the interface fields alone
(spec/00_scope.md R5; spec/30_encoding.md R86, R87; spec/70_reset_and_hazards.md R230, R239). -/

namespace Sys2Proof.Machine

variable {s t u : State} {i : Instr}

/-! ### A step by the host's oldest event -/

theorem step_of_nothing_pending (h : s.host = []) : step s = .next s := by simp only [step, h]

theorem step_of_command {cmd din : Word} {rest : List HostEvent} (h : s.host = .command cmd din :: rest) :
    step s = perform (s.accept cmd din rest) := by simp only [step, h]

theorem step_of_reset {rest : List HostEvent} (h : s.host = .reset :: rest) : step s = .next (s.resetEvent rest) := by
  simp only [step, h]

theorem perform_of_decode_ok (h : decode s.cmd = .ok i) : perform s = exec i s := by simp only [perform, h]

theorem perform_of_decode_error {r : Reject} (h : decode s.cmd = .error r) :
    perform s = .next (s.failed .illegalCommand) := by simp only [perform, h, State.raise_eq]

/-- R86, R87: an accepted word is performed as the command it decodes to, or is no command and raises IllegalCommand. -/
theorem perform_cases (s : State) :
    (∃ i, decode s.cmd = .ok i ∧ perform s = exec i s) ∨
    (∃ r, decode s.cmd = .error r ∧ perform s = .next (s.failed .illegalCommand)) := by
  cases h : decode s.cmd with
  | ok i => exact .inl ⟨i, rfl, perform_of_decode_ok h⟩
  | error r => exact .inr ⟨r, rfl, perform_of_decode_error h⟩

@[simp] theorem State.resetEvent_cfg (s : State) (rest : List HostEvent) : (s.resetEvent rest).cfg = s.cfg := rfl
@[simp] theorem State.resetEvent_host (s : State) (rest : List HostEvent) : (s.resetEvent rest).host = rest := rfl

/-! ### The interface fields -/

/-- No effect writes an interface field: each is made of named updates that leave them. -/
theorem Effect.keeps_interface (h : Effect s u i) :
    u.cfg = s.cfg ∧ u.host = s.host ∧ u.cmd = s.cmd ∧ u.din = s.din := by
  cases i with
  | csrr c => exact h.elim
  | vst _ | vlen _ | vwt _ => obtain rfl := h; simp
  | setdim _ _ | vld _ _ | vxor _ _ _ | vflip _ _ _ | vdot _ _ => obtain ⟨-, rfl⟩ := h; simp
  | grd _ _ | enc _ _ | buildh | mchk | tbuild | msg _ _ => obtain ⟨-, -, rfl⟩ := h; simp
  | gwr _ _ | hwr _ _ | hrd _ _ | synd _ _ => obtain ⟨-, -, -, rfl⟩ := h; simp
  | tlk vd vs => obtain ⟨-, -, e, -, rfl⟩ := h; simp
  | dec vd vs => obtain ⟨-, -, -, ⟨-, rfl⟩ | ⟨-, e, -, rfl⟩⟩ := h <;> simp
  | deci vd vs => obtain ⟨-, -, -, r, -, rfl⟩ := h; simp

/-- A command, failed or successful, leaves the configuration, the host's events and the words presented. -/
theorem exec_keeps_interface (h : exec i s = .next t) :
    t.cfg = s.cfg ∧ t.host = s.host ∧ t.cmd = s.cmd ∧ t.din = s.din := by
  rcases exec_cases i s with ⟨f, h'⟩ | ⟨c, d, -, -, h'⟩ | ⟨u, d, hu, h'⟩ <;> obtain rfl := next_inj (h'.symm.trans h)
  · simp
  · simp
  · simpa using hu.keeps_interface

theorem perform_keeps_cfg_host (h : perform s = .next t) : t.cfg = s.cfg ∧ t.host = s.host := by
  rcases perform_cases s with ⟨i, -, h'⟩ | ⟨r, -, h'⟩
  · obtain ⟨hcfg, hhost, -, -⟩ := exec_keeps_interface (h'.symm.trans h)
    exact ⟨hcfg, hhost⟩
  · obtain rfl := next_inj (h'.symm.trans h)
    simp

/-- R5, R239: a step leaves the configuration and takes the oldest event, whichever it is. -/
theorem step_keeps_cfg_takes_event (h : step s = .next t) : t.cfg = s.cfg ∧ t.host = s.host.tail := by
  match hs : s.host with
  | [] =>
    obtain rfl := next_inj ((step_of_nothing_pending hs).symm.trans h)
    simp [hs]
  | .command cmd din :: rest => simpa using perform_keeps_cfg_host ((step_of_command hs).symm.trans h)
  | .reset :: rest =>
    obtain rfl := next_inj ((step_of_reset hs).symm.trans h)
    simp

end Sys2Proof.Machine

/-! The statements about a step: R5, R20, R86, R225, R230, R239. -/

namespace Sys2Proof.Proofs

open Sys2Proof Sys2Proof.Machine

/-- Settles O16: by the oldest event for a step, by the way a command ends for `exec`. -/
theorem configurationAndPendingEventsKept : Obligations.ConfigurationAndPendingEventsKept :=
  ⟨fun _ _ => step_keeps_cfg_takes_event, fun _ _ _ => exec_keeps_interface⟩

/-- Settles O5: one equation of `step` per kind of event, and that of `perform` for a word that decodes. -/
theorem stepTakesTheOldestEvent : Obligations.StepTakesTheOldestEvent := fun s =>
  ⟨fun cmd din rest _ hs hi => (step_of_command hs).trans (perform_of_decode_ok (s := s.accept cmd din rest) hi),
    fun _ => step_of_reset, step_of_nothing_pending⟩

end Sys2Proof.Proofs

/-! SUPPORT. How the invariant of R42 passes through the effect of each command, through an answer, a failure and the two host
events (spec/10_state.md R42, R45; spec/60_exceptions.md R210). -/

namespace Sys2Proof.Machine

variable {s t u : State} {i : Instr}

/-! ### Reset (R45) -/

/-- The reset state is its own invalidation, so only the configuration and the zero registers are left to check. -/
theorem State.resetOf_inv {c : Config} (hc : c.Valid) : (State.resetOf c).Inv :=
  State.invalidateH_inv (s := State.resetOf c) hc RowMem.wf_zero (fun i => by simp) (.inl ⟨rfl, rfl⟩)
    (fun j => by simp) (fun _ _ => rfl) (Nat.zero_le 9)

theorem State.resetEvent_inv (hc : s.cfg.Valid) (rest : List HostEvent) : (s.resetEvent rest).Inv :=
  (State.resetOf_inv hc).of_same rfl rfl rfl rfl rfl rfl rfl rfl rfl rfl (Nat.zero_le 9)

/-! ### Updates that write no field the invariant speaks of, but ERR -/

theorem Failure.code_le (f : Failure) : f.code.toNat ≤ 9 := by cases f <;> decide

theorem State.Inv.setW (h : s.Inv) (x : BitVec 6) : (s.setW x).Inv :=
  h.of_same rfl rfl rfl rfl rfl rfl rfl rfl rfl rfl h.err_le

theorem State.Inv.setZ (h : s.Inv) (b : Bool) : (s.setZ b).Inv :=
  h.of_same rfl rfl rfl rfl rfl rfl rfl rfl rfl rfl h.err_le

theorem State.Inv.setOrth (h : s.Inv) (b : Bool) : (s.setOrth b).Inv :=
  h.of_same rfl rfl rfl rfl rfl rfl rfl rfl rfl rfl h.err_le

theorem State.Inv.accept (h : s.Inv) (cmd din : Word) (rest : List HostEvent) : (s.accept cmd din rest).Inv :=
  h.of_same rfl rfl rfl rfl rfl rfl rfl rfl rfl rfl h.err_le

theorem State.Inv.failed (h : s.Inv) (f : Failure) : (s.failed f).Inv :=
  h.of_same rfl rfl rfl rfl rfl rfl rfl rfl rfl rfl f.code_le

theorem State.Inv.answered (h : s.Inv) (d : Word) : (s.answered d).Inv :=
  h.of_same rfl rfl rfl rfl rfl rfl rfl rfl rfl rfl (Nat.zero_le 9)

theorem State.Inv.answeredKeepingErr (h : s.Inv) (d : Word) : (s.answeredKeepingErr d).Inv :=
  h.of_same rfl rfl rfl rfl rfl rfl rfl rfl rfl rfl h.err_le

/-! ### Vector registers -/

/-- A length given as a number fits the length tag. -/
theorem State.Inv.setV_ofNat (h : s.Inv) (q : VIdx) {L : Nat} {x : Word} (hL : L ≤ s.cfg.nmax) (hx : IsVector L x) :
    (s.setV q (BitVec.ofNat 6 L) x).Inv := by
  have hn := h.nmax_le
  have e : (BitVec.ofNat 6 L).toNat = L := by rw [BitVec.toNat_ofNat]; omega
  exact h.setV q (e.symm ▸ hL) (e.symm ▸ hx)

/-- A word of length N may go to any register of a configured core. -/
theorem State.Inv.setV_word (h : s.Inv) (hd : s.DIMV) (q : VIdx) {x : Word} (hx : IsVector s.N x) :
    (s.setV q s.n x).Inv := h.setV q (h.bounds hd).1 hx

/-! ### Dimensions, matrices and the table -/

theorem State.Inv.gmem_wf (h : s.Inv) : s.gmem.wf := h.mem_wf.1

theorem State.Inv.hmem_wf (h : s.Inv) : s.hmem.wf := h.mem_wf.2.1

theorem State.Inv.tmem_wf (h : s.Inv) : s.tmem.wf := h.mem_wf.2.2

theorem State.N_ne_zero (hd : s.DIMV) : s.N ≠ 0 := Nat.ne_of_gt (lt_trans hd.1 hd.2)

/-- SETDIM within the bounds of R101. -/
theorem State.Inv.newDims (h : s.Inv) {n k : Nat} (hk : 0 < k) (hkn : k < n) (hn : n ≤ s.cfg.nmax)
    (hr : n - k ≤ s.cfg.rmax) : (s.setDims n k).zeroG.invalidateH.Inv := by
  have hmax := h.nmax_le
  have hN : (s.setDims n k).zeroG.N = n := show (BitVec.ofNat 6 n).toNat = n by rw [BitVec.toNat_ofNat]; omega
  have hK : (s.setDims n k).zeroG.K = k := show (BitVec.ofNat 6 k).toNat = k by rw [BitVec.toNat_ofNat]; omega
  refine State.invalidateH_inv h.cfg_valid RowMem.wf_zero h.vectors (.inr ?_) (fun j => by simp) (fun _ _ => rfl) h.err_le
  rw [hN, hK]
  exact ⟨hk, hkn, hn, hr⟩

/-- A new row of G below K, once H is invalidated (R106). -/
theorem State.Inv.newG (h : s.Inv) (hd : s.DIMV) {row : Nat} {x : Word} (hrow : row < s.K) (hx : IsVector s.N x) :
    (s.setG row x).invalidateH.Inv := by
  refine State.invalidateH_inv h.cfg_valid (RowMem.wf_write h.gmem_wf row x) h.vectors h.dims (fun j => ?_)
    (fun h0 => absurd h0 (State.N_ne_zero hd)) h.err_le
  rw [State.setG_G]
  split_ifs with hj
  · exact ⟨(outside_mask_iff _ _).2 hx, fun hge => absurd hrow (not_lt.2 (hj ▸ hge))⟩
  · exact h.g_rows j

/-- Row i of [Pᵗ | I] has length N. -/
theorem parityCheckRow_isVector (g : RowMem) {n k i : Nat} (hi : k + i < n) : IsVector n (parityCheckRow g k i) :=
  fun j hj => by
    rw [parityCheckRow_bit, if_neg (by omega)]
    simp only [decide_eq_false_iff_not]
    omega

/-- HWR: one new row of H below R (R108). -/
theorem State.Inv.newHRow (h : s.Inv) (hd : s.DIMV) {row : Nat} {x : Word} (hrow : row < s.R) (hx : IsVector s.N x) :
    (s.setH row x).invalidateT.Inv :=
  h.newH hd (RowMem.wf_write h.hmem_wf row x) fun j => by
    rw [RowMem.read_write]
    split_ifs with hj
    · exact ⟨hx, fun hge => absurd hrow (not_lt.2 (hj ▸ hge))⟩
    · exact ⟨h.h_vec j, (h.h_rows j).2⟩

/-- BUILDH: the rows of [Pᵗ | I] below R, the others as they were (R151). -/
theorem State.Inv.derivedH (h : s.Inv) (hd : s.DIMV) :
    (s.invalidateT.setHmem (buildParityCheck s.gmem s.K s.hmem s.R)).Inv :=
  h.newH hd (buildParityCheck_wf h.hmem_wf s.K s.R) fun j => by
    rw [buildParityCheck_read]
    split_ifs with hj
    · exact ⟨parityCheckRow_isVector _ (by rw [State.R] at hj; omega), fun hge => absurd hj (not_lt.2 hge)⟩
    · exact ⟨h.h_vec j, (h.h_rows j).2⟩

/-- The count of the built table fits TCOUNT, since R is at most 24. -/
theorem State.Inv.count_toNat (h : s.Inv) :
    (BitVec.ofNat 25 (buildTable s.N s.R s.hmem).count).toNat = (buildTable s.N s.R s.hmem).table.length := by
  rw [← buildTable_count s.hmem h.N_le, BitVec.toNat_ofNat]
  apply Nat.mod_eq_of_lt
  calc (buildTable s.N s.R s.hmem).count ≤ 2 ^ s.R := buildTable_count_le s.hmem h.N_le
    _ < 2 ^ 25 := Nat.pow_lt_pow_right (by decide) (Nat.lt_succ_of_le h.R_le)

/-- TBUILD: the table of the present N, K and H (R164). -/
theorem State.Inv.builtTable (h : s.Inv) (hd : s.DIMV) (hv : s.hv = true) :
    (s.setTable (buildTable s.N s.R s.hmem).table (buildTable s.N s.R s.hmem).count).Inv where
  cfg_valid := h.cfg_valid
  mem_wf := ⟨h.gmem_wf, h.hmem_wf, buildTable_wf s.hmem h.N_le⟩
  vectors := h.vectors
  dims := h.dims
  g_rows := h.g_rows
  h_rows := h.h_rows
  h_absent := fun h0 => absurd (hv.symm.trans h0) (by decide)
  t_absent := fun h0 => absurd h0 (by simp)
  t_built := fun _ => ⟨hv, rfl⟩
  t_count := h.count_toNat
  unconfigured := fun h0 => absurd h0 (State.N_ne_zero hd)
  err_le := h.err_le

/-! ### What the decoders read -/

/-- An assigned slot is one of the built table's: its index has R bits and its pattern N. -/
theorem State.Inv.assigned (h : s.Inv) {x : Nat} {e : Leader} (he : s.T x = some e) :
    x < 2 ^ s.R ∧ IsVector s.N e.pat := by
  have htb : s.tb = true := by
    by_contra hne
    have := (h.t_absent (Bool.eq_false_of_not_eq_true hne)).1 x
    exact absurd (he.symm.trans this) (by simp)
  rw [State.T, (h.t_built htb).2] at he
  exact ⟨buildTable_index_lt h.N_le he, (buildTable_some h.N_le he).1⟩

/-- The pass of R182 flips positions below N only. -/
theorem greedyPass_isVector {left j : Nat} {cur : Word} {w : BitVec 6} {r : Word × BitVec 6} (hj : j + left ≤ s.N)
    (hc : IsVector s.N cur) (h : greedyPass s left j cur w = some r) : IsVector s.N r.1 := by
  induction left generalizing j cur w with
  | zero =>
    obtain rfl := Option.some.inj h
    exact hc
  | succ left ih =>
    have hflip : IsVector s.N (cur ^^^ oneAt j) := hc.xor (IsVector.oneAt (by omega))
    simp only [greedyPass] at h
    split at h
    · obtain rfl := Option.some.inj h
      exact hc
    · split at h
      · exact absurd h (by simp)
      · split at h
        · exact ih (by omega) hflip h
        · exact ih (by omega) hc h

theorem greedyDecode_isVector {x : Word} {r : Word × BitVec 6} (hx : IsVector s.N x) (h : greedyDecode s x = some r) :
    IsVector s.N r.1 := by
  simp only [greedyDecode] at h
  split at h
  · exact absurd h (by simp)
  · exact greedyPass_isVector (by omega) hx h

/-! ### Commands and steps -/

/-- R42: each command's effect keeps the invariant. -/
theorem Effect.inv (he : Effect s u i) (h : s.Inv) : u.Inv := by
  cases i with
  | setdim n k =>
    obtain ⟨⟨hk, hkn, hn, hr⟩, rfl⟩ := he
    exact h.newDims hk hkn hn hr
  | csrr c => exact he.elim
  | vld vd len =>
    obtain ⟨hlen, rfl⟩ := he
    exact h.setV_ofNat vd hlen (IsVector.and_mask len s.din)
  | vst _ | vlen _ =>
    obtain rfl := he
    exact h
  | vxor vd vs1 vs2 =>
    obtain ⟨hlen, rfl⟩ := he
    have h2 : IsVector (s.lenOf vs1) (s.bitsOf vs2) := hlen ▸ h.v_vec vs2
    exact h.setV vd (h.vectors vs1).1 ((h.v_vec vs1).xor h2)
  | vflip vd vs pos =>
    obtain ⟨hpos, rfl⟩ := he
    exact h.setV vd (h.vectors vs).1 ((h.v_vec vs).xor (IsVector.oneAt hpos))
  | vwt vs =>
    obtain rfl := he
    exact h.setW _
  | vdot vs1 vs2 =>
    obtain ⟨-, rfl⟩ := he
    exact h.setW _
  | gwr row vs =>
    obtain ⟨hd, hrow, hlen, rfl⟩ := he
    exact h.newG hd hrow (h.word_vec hlen)
  | grd vd row =>
    obtain ⟨hd, -, rfl⟩ := he
    exact h.setV_word hd vd (h.g_vec row)
  | hwr row vs =>
    obtain ⟨hd, hrow, hlen, rfl⟩ := he
    exact h.newHRow hd hrow (h.word_vec hlen)
  | hrd vd row =>
    obtain ⟨hd, -, -, rfl⟩ := he
    exact h.setV_word hd vd (h.h_vec row)
  | enc vd vs =>
    obtain ⟨hd, -, rfl⟩ := he
    exact h.setV_word hd vd (encodeMessage_isVector h.g_vec _ _)
  | synd vd vs =>
    obtain ⟨hd, -, -, rfl⟩ := he
    have hR : s.R ≤ s.cfg.nmax := le_trans (Nat.sub_le _ _) (h.bounds hd).1
    exact (h.setV_ofNat vd hR (syndrome_isVector _ _ _)).setZ _
  | buildh =>
    obtain ⟨hd, -, rfl⟩ := he
    exact h.derivedH hd
  | mchk =>
    obtain ⟨-, -, rfl⟩ := he
    exact h.setOrth _
  | tbuild =>
    obtain ⟨hd, hv, rfl⟩ := he
    exact h.builtTable hd hv
  | tlk vd vs =>
    obtain ⟨hd, -, e, hslot, rfl⟩ := he
    exact (h.setV_word hd vd (h.assigned hslot).2).setW _
  | dec vd vs =>
    obtain ⟨hd, -, hlen, ⟨-, rfl⟩ | ⟨-, e, hslot, rfl⟩⟩ := he
    · exact (h.setV_word hd vd (h.word_vec hlen)).setW _
    · exact (h.setV_word hd vd ((h.word_vec hlen).xor (h.assigned hslot).2)).setW _
  | deci vd vs =>
    obtain ⟨hd, -, hlen, r, hr, rfl⟩ := he
    exact (h.setV_word hd vd (greedyDecode_isVector (h.word_vec hlen) hr)).setW _
  | msg vd vs =>
    obtain ⟨hd, -, rfl⟩ := he
    have hK : s.K ≤ s.cfg.nmax := le_trans (le_of_lt hd.2) (h.bounds hd).1
    exact h.setV vd hK (IsVector.and_mask s.K _)

/-- R42 "after every command, successful or failed". -/
theorem exec_inv (h : s.Inv) (he : exec i s = .next t) : t.Inv := by
  rcases exec_cases i s with ⟨f, h'⟩ | ⟨c, d, -, -, h'⟩ | ⟨u, d, hu, h'⟩ <;> obtain rfl := next_inj (h'.symm.trans he)
  · exact h.failed f
  · exact h.answeredKeepingErr d
  · exact (hu.inv h).answered d

theorem perform_inv (h : s.Inv) (he : perform s = .next t) : t.Inv := by
  rcases perform_cases s with ⟨i, -, h'⟩ | ⟨r, -, h'⟩
  · exact exec_inv h (h'.symm.trans he)
  · obtain rfl := next_inj (h'.symm.trans he)
    exact h.failed .illegalCommand

theorem step_inv (h : s.Inv) (he : step s = .next t) : t.Inv := by
  match hs : s.host with
  | [] =>
    obtain rfl := next_inj ((step_of_nothing_pending hs).symm.trans he)
    exact h
  | .command cmd din :: rest => exact perform_inv (h.accept cmd din rest) ((step_of_command hs).symm.trans he)
  | .reset :: rest =>
    obtain rfl := next_inj ((step_of_reset hs).symm.trans he)
    exact State.resetEvent_inv h.cfg_valid rest

/-! ### The size of the memories (R20, R60) -/

theorem State.Inv.gmem_index_lt (h : s.Inv) {e : Nat × Word} (he : e ∈ s.gmem) : e.1 < s.K := by
  obtain ⟨hread, hne⟩ := RowMem.read_of_mem h.gmem_wf he
  by_contra hge
  exact hne (hread.symm.trans ((h.g_rows e.1).2 (not_lt.1 hge)))

theorem State.Inv.hmem_index_lt (h : s.Inv) {e : Nat × Word} (he : e ∈ s.hmem) : e.1 < s.R := by
  obtain ⟨hread, hne⟩ := RowMem.read_of_mem h.hmem_wf he
  by_contra hge
  exact hne (hread.symm.trans ((h.h_rows e.1).2 (not_lt.1 hge)))

theorem State.Inv.tmem_index_lt (h : s.Inv) {e : Nat × Leader} (he : e ∈ s.tmem) : e.1 < 2 ^ s.R :=
  (h.assigned (Memory.find_of_mem h.tmem_wf.1 he)).1

theorem State.Inv.K_le_nmax_pred (h : s.Inv) : s.K ≤ s.cfg.nmax - 1 := by
  rcases h.dims with ⟨-, hk⟩ | ⟨-, hkn, hn, -⟩ <;> omega

theorem State.Inv.R_le_rmax (h : s.Inv) : s.R ≤ s.cfg.rmax := by
  rw [State.R]
  rcases h.dims with ⟨hn, -⟩ | ⟨-, -, -, hr⟩ <;> omega

end Sys2Proof.Machine

/-! The statements about the invariant: R20, R42, R45, R60. -/

namespace Sys2Proof.Proofs

open Sys2Proof Sys2Proof.Machine

/-- Settles O18: a failure writes ERR only, and each command's effect keeps the invariant. -/
theorem everyStepKeepsTheInvariant : Obligations.EveryStepKeepsTheInvariant := fun _ _ => step_inv

/-- Settles O17: the reference configuration meets R6. -/
theorem invariantHoldsAfterReset : Obligations.InvariantHoldsAfterReset :=
  ⟨fun _ => State.resetOf_inv, State.resetOf_inv (by decide)⟩

/-- Settles O19: a listed row is not 0 and a listed slot is assigned, so its index is below K, R or 2^R. -/
theorem memoriesStayInsideTheirSize : Obligations.MemoriesStayInsideTheirSize := fun s h =>
  ⟨fun _ he => lt_of_lt_of_le (h.gmem_index_lt he) h.K_le_nmax_pred,
    fun _ he => lt_of_lt_of_le (h.hmem_index_lt he) h.R_le_rmax,
    fun _ he => ⟨h.tmem_index_lt he,
      lt_of_lt_of_le (h.tmem_index_lt he) (Nat.pow_le_pow_right (by decide) h.R_le_rmax)⟩⟩

end Sys2Proof.Proofs

/-! SUPPORT. What each command can change, said once for every command (spec/10_state.md R21, R23, R24, R31, R40, R41;
spec/20_memory.md R60, R63). -/

namespace Sys2Proof

/-- The destination vd of the eleven commands that write a vector register (R21). -/
def Instr.dest : Instr → Option VIdx
  | .vld vd _ | .vxor vd _ _ | .vflip vd _ _ | .grd vd _ | .hrd vd _ | .enc vd _ | .synd vd _ | .tlk vd _ | .dec vd _
  | .deci vd _ | .msg vd _ => some vd
  | _ => none

/-- The commands that write W (R24). -/
def Instr.writesW (i : Instr) : Prop :=
  (∃ vs, i = .vwt vs) ∨ (∃ a b, i = .vdot a b) ∨ (∃ vd vs, i = .tlk vd vs) ∨ (∃ vd vs, i = .dec vd vs) ∨
    ∃ vd vs, i = .deci vd vs

/-- The commands that write G, and with it invalidate H and the table (R41). -/
def Instr.writesG (i : Instr) : Prop := (∃ n k, i = .setdim n k) ∨ ∃ row vs, i = .gwr row vs

/-- The commands that write H and make it present, and empty the table (R41). -/
def Instr.writesH (i : Instr) : Prop := i = .buildh ∨ ∃ row vs, i = .hwr row vs

namespace Machine

variable {s t u : State} {i : Instr}

/-- Command i may change s into t: each piece of state is as it was, or i is one of its writers and does what the rule of that
writer says. -/
structure Footprint (i : Instr) (s t : State) : Prop where
  /-- R21. -/
  v : ∀ q, t.V q = s.V q ∨ i.dest = some q
  /-- R24. -/
  w : t.w = s.w ∨ i.writesW
  /-- R23, Z. -/
  z : t.z = s.z ∨ ∃ vd vs, i = .synd vd vs
  /-- R23, ORTH. -/
  orth : t.orth = s.orth ∨ i = .mchk
  /-- R31. -/
  dims : (t.n = s.n ∧ t.k = s.k) ∨ ∃ n k, i = .setdim n k
  /-- R60. -/
  g : t.gmem = s.gmem ∨ i.writesG
  /-- R23, R41: H is discarded or made present. -/
  h : (t.hmem = s.hmem ∧ t.hv = s.hv) ∨ (t.hv = false ∧ i.writesG) ∨ (t.hv = true ∧ i.writesH)
  /-- R23, R41, R63: the table is emptied or built. -/
  tbl : (t.tmem = s.tmem ∧ t.tb = s.tb) ∨ (t.tmem = SlotMem.empty ∧ t.tb = false ∧ (i.writesG ∨ i.writesH)) ∨
    (t.tb = true ∧ i = .tbuild)

theorem State.setV_V_eq_or (vd : VIdx) (L : BitVec 6) (x : Word) (q : VIdx) :
    (s.setV vd L x).V q = s.V q ∨ vd = q := by
  by_cases h : vd = q
  · exact .inr h
  · exact .inl (s.setV_V_other vd L x q h)

/-- A state that is as it was is inside every footprint. -/
theorem Footprint.refl (i : Instr) (s : State) : Footprint i s s := by constructor <;> simp

/-- A command that writes its vd and nothing else. -/
theorem Footprint.setV {vd : VIdx} (h : i.dest = some vd) (L : BitVec 6) (x : Word) : Footprint i s (s.setV vd L x) :=
  { Footprint.refl i s with v := fun q => (s.setV_V_eq_or vd L x q).imp_right fun e => h.trans (congrArg some e) }

/-- A command that writes W as well. -/
theorem Footprint.setW (f : Footprint i s t) (h : i.writesW) (x : BitVec 6) : Footprint i s (t.setW x) :=
  { f with w := .inr h }

/-- The effect of each command stays inside its footprint. -/
theorem Effect.footprint (e : Effect s u i) : Footprint i s u := by
  have same := Footprint.refl i s
  cases i with
  | csrr c => exact e.elim
  | vst _ | vlen _ =>
    obtain rfl := e
    exact same
  | setdim n k =>
    obtain ⟨-, rfl⟩ := e
    have hi : (Instr.setdim n k).writesG := .inl ⟨n, k, rfl⟩
    exact { same with
      dims := .inr ⟨n, k, rfl⟩, g := .inr hi, h := .inr (.inl ⟨rfl, hi⟩), tbl := .inr (.inl ⟨rfl, rfl, .inl hi⟩) }
  | gwr row vs =>
    obtain ⟨-, -, -, rfl⟩ := e
    have hi : (Instr.gwr row vs).writesG := .inr ⟨row, vs, rfl⟩
    exact { same with g := .inr hi, h := .inr (.inl ⟨rfl, hi⟩), tbl := .inr (.inl ⟨rfl, rfl, .inl hi⟩) }
  | hwr row vs =>
    obtain ⟨-, -, -, rfl⟩ := e
    have hi : (Instr.hwr row vs).writesH := .inr ⟨row, vs, rfl⟩
    exact { same with h := .inr (.inr ⟨rfl, hi⟩), tbl := .inr (.inl ⟨rfl, rfl, .inr hi⟩) }
  | buildh =>
    obtain ⟨-, -, rfl⟩ := e
    have hi : Instr.buildh.writesH := .inl rfl
    exact { same with h := .inr (.inr ⟨rfl, hi⟩), tbl := .inr (.inl ⟨rfl, rfl, .inr hi⟩) }
  | tbuild =>
    obtain ⟨-, -, rfl⟩ := e
    exact { same with tbl := .inr (.inr ⟨rfl, rfl⟩) }
  | mchk =>
    obtain ⟨-, -, rfl⟩ := e
    exact { same with orth := .inr rfl }
  | vwt vs =>
    obtain rfl := e
    exact same.setW (.inl ⟨vs, rfl⟩) _
  | vdot vs1 vs2 =>
    obtain ⟨-, rfl⟩ := e
    exact same.setW (.inr (.inl ⟨vs1, vs2, rfl⟩)) _
  | vld _ _ | vxor _ _ _ | vflip _ _ _ =>
    obtain ⟨-, rfl⟩ := e
    exact .setV rfl _ _
  | grd _ _ | enc _ _ | msg _ _ =>
    obtain ⟨-, -, rfl⟩ := e
    exact .setV rfl _ _
  | hrd _ _ =>
    obtain ⟨-, -, -, rfl⟩ := e
    exact .setV rfl _ _
  | synd vd vs =>
    obtain ⟨-, -, -, rfl⟩ := e
    exact { Footprint.setV rfl _ _ with z := .inr ⟨vd, vs, rfl⟩ }
  | tlk vd vs =>
    obtain ⟨-, -, _, -, rfl⟩ := e
    exact (Footprint.setV rfl _ _).setW (.inr (.inr (.inl ⟨vd, vs, rfl⟩))) _
  | dec vd vs =>
    have hi : (Instr.dec vd vs).writesW := .inr (.inr (.inr (.inl ⟨vd, vs, rfl⟩)))
    obtain ⟨-, -, -, ⟨-, rfl⟩ | ⟨-, _, -, rfl⟩⟩ := e
    · exact (Footprint.setV rfl _ _).setW hi _
    · exact (Footprint.setV rfl _ _).setW hi _
  | deci vd vs =>
    obtain ⟨-, -, -, _, -, rfl⟩ := e
    exact (Footprint.setV rfl _ _).setW (.inr (.inr (.inr (.inr ⟨vd, vs, rfl⟩)))) _

/-- A command, failed or successful, stays inside its footprint: ending it writes ERR, ERRCMD and the response only. -/
theorem exec_footprint (h : exec i s = .next t) : Footprint i s t := by
  rcases exec_cases i s with ⟨f, h'⟩ | ⟨c, d, -, -, h'⟩ | ⟨u, d, hu, h'⟩ <;> obtain rfl := next_inj (h'.symm.trans h)
  · exact { Footprint.refl i s with }
  · exact { Footprint.refl i s with }
  · exact { hu.footprint with }

/-! ### The footprint of G, H and the table, read at one index -/

theorem Footprint.writesG_of_G_ne (f : Footprint i s t) {j : Nat} (h : t.G j ≠ s.G j) : i.writesG :=
  f.g.resolve_left fun e => h (by simp only [State.G, e])

theorem Footprint.writes_of_H_ne (f : Footprint i s t) {j : Nat} (h : t.H j ≠ s.H j) : i.writesG ∨ i.writesH := by
  rcases f.h with ⟨e, -⟩ | ⟨-, hi⟩ | ⟨-, hi⟩
  · exact absurd (by simp only [State.H, e]) h
  · exact .inl hi
  · exact .inr hi

theorem Footprint.writes_of_T_ne (f : Footprint i s t) {x : Nat} (h : t.T x ≠ s.T x) :
    (t.T x = none ∧ (i.writesG ∨ i.writesH)) ∨ i = .tbuild := by
  rcases f.tbl with ⟨e, -⟩ | ⟨e, -, hi⟩ | ⟨-, hi⟩
  · exact absurd (by simp only [State.T, e]) h
  · exact .inl ⟨by rw [State.T, e]; exact SlotMem.read_empty x, hi⟩
  · exact .inr hi

end Machine

/-- The commands that have a destination, one by one (R21). -/
theorem Instr.dest_eq_some {i : Instr} {q : VIdx} (h : i.dest = some q) :
    (∃ len, i = .vld q len) ∨ (∃ a b, i = .vxor q a b) ∨ (∃ a pos, i = .vflip q a pos) ∨ (∃ row, i = .grd q row) ∨
    (∃ row, i = .hrd q row) ∨ (∃ a, i = .enc q a) ∨ (∃ a, i = .synd q a) ∨ (∃ a, i = .tlk q a) ∨
    (∃ a, i = .dec q a) ∨ (∃ a, i = .deci q a) ∨ ∃ a, i = .msg q a := by
  cases i <;> simp_all [Instr.dest]

/-- The commands that write a matrix, in the order of R40. -/
theorem Instr.writes_matrix_cases {i : Instr} (h : i.writesG ∨ i.writesH) :
    (∃ n k, i = .setdim n k) ∨ (∃ row vs, i = .gwr row vs) ∨ (∃ row vs, i = .hwr row vs) ∨ i = .buildh := by
  rcases h with (h | h) | (h | h)
  · exact .inl h
  · exact .inr (.inl h)
  · exact .inr (.inr (.inr h))
  · exact .inr (.inr (.inl h))

end Sys2Proof

/-! The statements about which command changes what: R21, R23, R24, R31, R40, R41, R60, R63. -/

namespace Sys2Proof.Proofs

open Sys2Proof Sys2Proof.Machine

/-- Settles O12: read off the command's footprint at the row or slot that changed. -/
theorem matrixAndTableWriters : Obligations.MatrixAndTableWriters := fun i s t h => by
  have f := exec_footprint h
  refine ⟨fun ⟨_, hj⟩ => f.writesG_of_G_ne hj, fun ⟨_, hj⟩ => Instr.writes_matrix_cases (f.writes_of_H_ne hj),
    fun ⟨_, hx⟩ => ?_, fun ⟨_, hx, hsome⟩ => (f.writes_of_T_ne hx).resolve_left fun hnone => hsome hnone.1⟩
  rcases f.writes_of_T_ne hx with ⟨-, hi⟩ | hi
  · simpa only [or_assoc] using Or.inl (Instr.writes_matrix_cases hi)
  · exact .inr (.inr (.inr (.inr hi)))

/-- Settles O13: read off the command's footprint, HV and TB by the value they end with. -/
theorem registerAndFlagWriters : Obligations.RegisterAndFlagWriters := fun i s t h => by
  have f := exec_footprint h
  refine ⟨f.w.resolve_left, f.z.resolve_left, f.orth.resolve_left,
    fun hne => f.dims.resolve_left fun e => hne.elim (· e.1) (· e.2), fun ht hs => ?_, fun ht hs => ?_, fun ht hs => ?_,
    fun ht hs => ?_⟩
  · rcases f.h with ⟨-, e⟩ | ⟨e, -⟩ | ⟨-, hi⟩
    · simp [e, hs] at ht
    · simp [e] at ht
    · exact hi
  · rcases f.h with ⟨-, e⟩ | ⟨-, hi⟩ | ⟨e, -⟩
    · simp [e, hs] at ht
    · exact hi
    · simp [e] at ht
  · rcases f.tbl with ⟨-, e⟩ | ⟨-, e, -⟩ | ⟨-, hi⟩
    · simp [e, hs] at ht
    · simp [e] at ht
    · exact hi
  · rcases f.tbl with ⟨-, e⟩ | ⟨-, -, hi⟩ | ⟨e, -⟩
    · simp [e, hs] at ht
    · exact Instr.writes_matrix_cases hi
    · simp [e] at ht

/-- Settles O14: the footprint leaves every register but vd. -/
theorem vectorRegisterWriters : Obligations.VectorRegisterWriters := fun _ _ _ q h hne =>
  Instr.dest_eq_some (((exec_footprint h).v q).resolve_left hne)

end Sys2Proof.Proofs

/-! SUPPORT. The failures that keep a stale H or table from being read: InvalidMatrix while H is absent, DecodeError while the
table is empty; and what a change of G or H discards (spec/10_state.md R41; spec/20_memory.md R69, R72;
spec/60_exceptions.md R205, R206, R211). -/

namespace Sys2Proof.Machine

variable {s t : State} {i : Instr} {vd vs : VIdx}

/-- A command that ends with failure f fails with the code of f (R201, R210). -/
theorem fails_of_exec {f : Failure} (h : exec i s = .next (s.failed f)) : Fails i s f.code := h

/-! ### The commands that read H, while it is absent (R205) -/

/-- With the dimensions and the index in order, InvalidMatrix is reported before anything else is looked at (R211). BUILDH raises
it for another reason: it reads G. -/
theorem exec_of_noMatrix (hd : s.DIMV) (hi : ¬i.badIndex s) (hb : i ≠ .buildh) (h : i.noMatrix s) :
    exec i s = .next (s.failed .invalidMatrix) := by
  cases i with
  | hrd vd row =>
    have hrow : s.isHRow row := not_le.1 hi
    have hv : s.hv = false := h
    simp only [exec, execHrd]
    rw [if_neg (not_not.2 hd), if_neg (not_not.2 hrow), if_pos hv, State.raise_eq]
  | synd _ _ | mchk | tbuild | dec _ _ | deci _ _ =>
    have hv : s.hv = false := h
    simp only [exec, execSynd, execMchk, execTbuild, execDec, execDeci]
    rw [if_neg (not_not.2 hd), if_pos hv, State.raise_eq]
  | buildh => exact absurd rfl hb
  | _ => exact h.elim

/-! ### The commands that read a slot, while the table is empty (R206) -/

theorem exec_tlk_missing (hd : s.DIMV) (hlen : (s.V vs).len.toNat = s.N - s.K) (hT : s.T (s.V vs).bits.toNat = none) :
    exec (.tlk vd vs) s = .next (s.failed .decodeError) := by
  have hlen' : s.isSyndrome vs := hlen
  have hT' : s.T (s.bitsOf vs).toNat = none := hT
  simp only [exec, execTlk]
  rw [if_neg (not_not.2 hd), if_neg (not_not.2 hlen'), hT']
  rfl

/-- The initial lookup of the greedy decoder is made whatever the syndrome (R182). -/
theorem greedyDecode_of_slot_missing {x : Word} (h : s.slotOf x = none) : greedyDecode s x = none := by
  simp only [greedyDecode, h]

/-! ### What a successful change of a matrix leaves behind (R41) -/

/-- SETDIM and GWR discard H and empty the table. -/
theorem discarded_of_writesG (hi : i.writesG) (h : exec i s = .next t) (ht : t.succeeded) :
    t.hv = false ∧ ∀ x, t.T x = none := by
  rcases hi with ⟨n, k, rfl⟩ | ⟨row, vs, rfl⟩
  · obtain ⟨_, _, ⟨-, rfl⟩, rfl⟩ := effect_of_succeeded (by simp) h ht
    simp
  · obtain ⟨_, _, ⟨-, -, -, rfl⟩, rfl⟩ := effect_of_succeeded (by simp) h ht
    simp

/-- BUILDH and HWR need the dimensions, make H present and empty the table. -/
theorem emptied_of_writesH (hi : i.writesH) (h : exec i s = .next t) (ht : t.succeeded) :
    t.DIMV ∧ t.hv = true ∧ ∀ x, t.T x = none := by
  rcases hi with rfl | ⟨row, vs, rfl⟩
  · obtain ⟨_, _, ⟨hd, -, rfl⟩, rfl⟩ := effect_of_succeeded (by simp) h ht
    exact ⟨hd, by simp⟩
  · obtain ⟨_, _, ⟨hd, -, -, rfl⟩, rfl⟩ := effect_of_succeeded (by simp) h ht
    exact ⟨hd, by simp⟩

/-! ### A row as a vector (R69) -/

/-- A register that passes the length test of GWR and HWR is its bits with the length tag N. -/
theorem State.V_of_isWord (h : s.isWord vs) : s.V vs = { len := s.n, bits := s.bitsOf vs } := by
  have hlen : (s.V vs).len = s.n := BitVec.eq_of_toNat_eq h
  rw [← hlen]
  rfl

end Sys2Proof.Machine

/-! The statements about the matrices and the table as memories: R41, R69, R72, R233. -/

namespace Sys2Proof.Proofs

open Sys2Proof Sys2Proof.Machine

/-- Settles O56: a change of G leaves H absent and the table empty, a change of H leaves the table empty, and each read of what
is gone is a failure. -/
theorem staleDataCannotBeUsed : Obligations.StaleDataCannotBeUsed := by
  refine ⟨fun s t i hi h ht hd => ?_, fun s t i hs hi h ht => ?_⟩
  · obtain ⟨hv, hT⟩ := discarded_of_writesG hi.symm h ht
    have absent {j : Instr} (hj : ¬j.badIndex t) (hb : j ≠ .buildh) (hm : j.noMatrix t) : Fails j t 5 :=
      fails_of_exec (exec_of_noMatrix hd hj hb hm)
    exact ⟨absent not_false nofun hv, absent not_false nofun hv,
      fun _ _ => ⟨absent not_false nofun hv, absent not_false nofun hv, absent not_false nofun hv⟩,
      fun _ _ hrow => absent (not_le.2 hrow) nofun hv,
      fun _ _ hlen => fails_of_exec (exec_tlk_missing hd hlen (hT _))⟩
  · obtain ⟨hd, hv, hT⟩ := emptied_of_writesH hi.symm h ht
    refine ⟨fun _ _ hlen => fails_of_exec (exec_tlk_missing hd hlen (hT _)), fun vd vs hlen => ⟨?_, fun x hx hne => ?_⟩⟩
    · exact fails_of_exec (exec_deci_missing hd hv hlen (greedyDecode_of_slot_missing (hT _)))
    · have hword := (exec_inv hs h).word_vec hlen
      have hsyn : syndrome t.hmem (t.V vs).bits t.R ≠ 0 := (t.isSyndrome_iff hword).1 hx ▸ hne
      exact fails_of_exec (exec_dec_missing hd hv hlen hsyn (hT _))

/-- Settles O57: the row written is what the row reads, and the length test of the write fixes the length tag. -/
theorem rowsReadBackAsWritten : Obligations.RowsReadBackAsWritten := by
  refine fun s t row vs vd => ⟨fun h ht => ?_, fun h ht => ?_⟩
  · obtain ⟨_, _, ⟨hd, hrow, hlen, rfl⟩, rfl⟩ := effect_of_succeeded (by simp) h ht
    refine ⟨_, exec_grd hd hrow, answered_succeeded 0, ?_⟩
    simp [State.V_of_isWord hlen, State.setG_G]
  · obtain ⟨_, _, ⟨hd, hrow, hlen, rfl⟩, rfl⟩ := effect_of_succeeded (by simp) h ht
    refine ⟨_, exec_hrd hd hrow rfl, answered_succeeded 0, ?_⟩
    simp [State.V_of_isWord hlen, State.setH_H]

end Sys2Proof.Proofs

/-! SUPPORT. Decoding read off the opcode map (spec/30_encoding.md R85, R86, R92): the row of R85 of each command, the operands a
word carries for it, and `decode` as the conjunction of the two. -/

namespace Sys2Proof

open Sys2Proof.Machine

/-- The row of R85 of a command. -/
def Instr.row : Instr → OpcodeRow
  | .setdim _ _ => opcodeMap[0]
  | .csrr _ => opcodeMap[1]
  | .vld _ _ => opcodeMap[2]
  | .vst _ => opcodeMap[3]
  | .vlen _ => opcodeMap[4]
  | .vxor _ _ _ => opcodeMap[5]
  | .vflip _ _ _ => opcodeMap[6]
  | .vwt _ => opcodeMap[7]
  | .vdot _ _ => opcodeMap[8]
  | .gwr _ _ => opcodeMap[9]
  | .grd _ _ => opcodeMap[10]
  | .hwr _ _ => opcodeMap[11]
  | .hrd _ _ => opcodeMap[12]
  | .enc _ _ => opcodeMap[13]
  | .synd _ _ => opcodeMap[14]
  | .buildh => opcodeMap[15]
  | .mchk => opcodeMap[16]
  | .tbuild => opcodeMap[17]
  | .tlk _ _ => opcodeMap[18]
  | .dec _ _ => opcodeMap[19]
  | .deci _ _ => opcodeMap[20]
  | .msg _ _ => opcodeMap[21]

/-- The command of i's mnemonic whose operands are the fields of a word, each in the place of R92. -/
def Instr.readFrom (cmd : Word) : Instr → Instr
  | .setdim _ _ => .setdim (fieldImmhi cmd) (fieldImm8 cmd)
  | .csrr _ => .csrr (fieldImm8 cmd)
  | .vld _ _ => .vld (fieldVd cmd) (fieldImm8 cmd)
  | .vst _ => .vst (fieldVs1 cmd)
  | .vlen _ => .vlen (fieldVs1 cmd)
  | .vxor _ _ _ => .vxor (fieldVd cmd) (fieldVs1 cmd) (fieldVs2 cmd)
  | .vflip _ _ _ => .vflip (fieldVd cmd) (fieldVs1 cmd) (fieldImm8 cmd)
  | .vwt _ => .vwt (fieldVs1 cmd)
  | .vdot _ _ => .vdot (fieldVs1 cmd) (fieldVs2 cmd)
  | .gwr _ _ => .gwr (fieldImm8 cmd) (fieldVs1 cmd)
  | .grd _ _ => .grd (fieldVd cmd) (fieldImm8 cmd)
  | .hwr _ _ => .hwr (fieldImm8 cmd) (fieldVs1 cmd)
  | .hrd _ _ => .hrd (fieldVd cmd) (fieldImm8 cmd)
  | .enc _ _ => .enc (fieldVd cmd) (fieldVs1 cmd)
  | .synd _ _ => .synd (fieldVd cmd) (fieldVs1 cmd)
  | .buildh => .buildh
  | .mchk => .mchk
  | .tbuild => .tbuild
  | .tlk _ _ => .tlk (fieldVd cmd) (fieldVs1 cmd)
  | .dec _ _ => .dec (fieldVd cmd) (fieldVs1 cmd)
  | .deci _ _ => .deci (fieldVd cmd) (fieldVs1 cmd)
  | .msg _ _ => .msg (fieldVd cmd) (fieldVs1 cmd)

variable {cmd : Word} {i : Instr} {row other : OpcodeRow}

/-! ### The rows of R85 -/

theorem Instr.row_mem (i : Instr) : i.row ∈ opcodeMap := by cases i <;> exact List.getElem_mem _

theorem Instr.row_mnemonic (i : Instr) : i.row.mnemonic = i.mnemonic := by cases i <;> rfl

/-- Every mask covers the opcode byte (R85). -/
theorem fieldOpcode_mask (h : row ∈ opcodeMap) : fieldOpcode row.mask = 0xFF#8 := by
  revert row; decide

theorem opcodeMap_mnemonic_inj (h : row ∈ opcodeMap) (ho : other ∈ opcodeMap) (e : row.mnemonic = other.mnemonic) : row = other :=
  List.inj_on_of_nodup_map (f := OpcodeRow.mnemonic) (l := opcodeMap) (by simp [opcodeMap]) h ho e

theorem opcodeMap_opcode_inj (h : row ∈ opcodeMap) (ho : other ∈ opcodeMap) (e : fieldOpcode row.mtch = fieldOpcode other.mtch) :
    row = other := by
  have hnodup : (opcodeMap.map fun r => fieldOpcode r.mtch).Nodup := by simp [opcodeMap, fieldOpcode]
  exact List.inj_on_of_nodup_map hnodup h ho e

/-- Every row is the row of some command. -/
theorem exists_row_eq (h : row ∈ opcodeMap) : ∃ i : Instr, i.row = row := by
  simp only [opcodeMap, List.mem_cons, List.not_mem_nil, or_false] at h
  rcases h with rfl | rfl | rfl | rfl | rfl | rfl | rfl | rfl | rfl | rfl | rfl | rfl | rfl | rfl | rfl | rfl | rfl | rfl |
    rfl | rfl | rfl | rfl
  exacts [⟨.setdim 0 0, rfl⟩, ⟨.csrr 0, rfl⟩, ⟨.vld 0 0, rfl⟩, ⟨.vst 0, rfl⟩, ⟨.vlen 0, rfl⟩, ⟨.vxor 0 0 0, rfl⟩,
    ⟨.vflip 0 0 0, rfl⟩, ⟨.vwt 0, rfl⟩, ⟨.vdot 0 0, rfl⟩, ⟨.gwr 0 0, rfl⟩, ⟨.grd 0 0, rfl⟩, ⟨.hwr 0 0, rfl⟩,
    ⟨.hrd 0 0, rfl⟩, ⟨.enc 0 0, rfl⟩, ⟨.synd 0 0, rfl⟩, ⟨.buildh, rfl⟩, ⟨.mchk, rfl⟩, ⟨.tbuild, rfl⟩, ⟨.tlk 0 0, rfl⟩,
    ⟨.dec 0 0, rfl⟩, ⟨.deci 0 0, rfl⟩, ⟨.msg 0 0, rfl⟩]

/-! ### The operands -/

@[simp] theorem Instr.row_readFrom (cmd : Word) (i : Instr) : (i.readFrom cmd).row = i.row := by cases i <;> rfl

@[simp] theorem Instr.readFrom_readFrom (cmd : Word) (i : Instr) : (i.readFrom cmd).readFrom cmd = i.readFrom cmd := by
  cases i <;> rfl

/-! ### `decode` -/

/-- R86: a word with the opcode of i's row is put to the test of that row. -/
theorem decode_eq_accepts (h : fieldOpcode cmd = fieldOpcode i.row.mtch) :
    decode cmd = accepts cmd i.row.mask i.row.mtch (i.readFrom cmd) := by
  unfold decode
  rw [h]
  cases i <;> simp [Instr.row, Instr.readFrom, opcodeMap, fieldOpcode]

/-- R85, R86: a word is the command i iff it passes the test of i's row and carries i's operands. -/
theorem decode_eq_ok_iff : decode cmd = .ok i ↔ cmd &&& i.row.mask = i.row.mtch ∧ i.readFrom cmd = i := by
  constructor
  · intro h
    unfold decode at h
    split at h
    case h_23 => cases h -- no opcode of R85
    all_goals
      obtain ⟨htest, rfl⟩ := accepts_eq_ok_iff.1 h
      exact ⟨htest, rfl⟩
  · rintro ⟨htest, hread⟩
    have hop : fieldOpcode cmd = fieldOpcode i.row.mtch := fieldOpcode_of_and (fieldOpcode_mask i.row_mem) htest
    exact (decode_eq_accepts hop).trans (accepts_eq_ok_iff.2 ⟨htest, hread⟩)

/-- A word that passes the test of i's row is the command of that mnemonic with the word's operands. -/
theorem decode_of_test (h : cmd &&& i.row.mask = i.row.mtch) : decode cmd = .ok (i.readFrom cmd) :=
  decode_eq_ok_iff.2 ⟨by rwa [Instr.row_readFrom], i.readFrom_readFrom cmd⟩

/-! ### The word of a command -/

/-- The word of a command passes the test of its row (R85). -/
theorem encode_test (i : Instr) : encode i &&& i.row.mask = i.row.mtch := by
  have own : Laws.OwnTest.Statement i := by
    cases i with
    | setdim n k => exact Laws.OwnTest.setdim n k
    | csrr csr => exact Laws.OwnTest.csrr csr
    | vld vd len => exact Laws.OwnTest.vld vd len
    | vst vs => exact Laws.OwnTest.vst vs
    | vlen vs => exact Laws.OwnTest.vlen vs
    | vxor vd vs1 vs2 => exact Laws.OwnTest.vxor vd vs1 vs2
    | vflip vd vs pos => exact Laws.OwnTest.vflip vd vs pos
    | vwt vs => exact Laws.OwnTest.vwt vs
    | vdot vs1 vs2 => exact Laws.OwnTest.vdot vs1 vs2
    | gwr row vs => exact Laws.OwnTest.gwr row vs
    | grd vd row => exact Laws.OwnTest.grd vd row
    | hwr row vs => exact Laws.OwnTest.hwr row vs
    | hrd vd row => exact Laws.OwnTest.hrd vd row
    | enc vd vs => exact Laws.OwnTest.enc vd vs
    | synd vd vs => exact Laws.OwnTest.synd vd vs
    | buildh => exact Laws.OwnTest.buildh
    | mchk => exact Laws.OwnTest.mchk
    | tbuild => exact Laws.OwnTest.tbuild
    | tlk vd vs => exact Laws.OwnTest.tlk vd vs
    | dec vd vs => exact Laws.OwnTest.dec vd vs
    | deci vd vs => exact Laws.OwnTest.deci vd vs
    | msg vd vs => exact Laws.OwnTest.msg vd vs
  obtain ⟨row, hrow, hmn, htest⟩ := own
  rwa [opcodeMap_mnemonic_inj hrow i.row_mem (hmn.trans i.row_mnemonic.symm)] at htest

/-- The word of a well-formed command carries its operands (R82, R83, R92). -/
theorem readFrom_encode (h : i.WellFormed) : i.readFrom (encode i) = i := by
  cases i with
  | setdim n k =>
    obtain ⟨hn, hk⟩ : n < 256 ∧ k < 256 := by simpa [Instr.WellFormed, Instr.wellFormed] using h
    simp [Instr.readFrom, encode, fieldImmhi_formatD, fieldImm8_formatD, hn, hk]
  | csrr x | vld _ x | vflip _ _ x | gwr x _ | grd _ x | hwr x _ | hrd _ x =>
    have hx : x < 256 := of_decide_eq_true h
    simp [Instr.readFrom, encode, fieldVd_formatV, fieldVs1_formatV, fieldImm8_formatV, hx]
  | _ => simp [Instr.readFrom, encode, fieldVd_formatV, fieldVs1_formatV, fieldVs2_formatV]

theorem wellFormed_readFrom (cmd : Word) (i : Instr) : (i.readFrom cmd).WellFormed := by
  cases i <;> simp [Instr.readFrom, Instr.WellFormed, Instr.wellFormed, fieldImm8_lt, fieldImmhi_lt]

/-! ### A word put together from its fields -/

/-- A field that the mask covers: a word that passes the test has the field of the match (R85). -/
theorem field_of_test {mask mtch : Word} {start len : Nat} {x : BitVec len} (h : cmd &&& mask = mtch)
    (hx : mask.extractLsb' start len = BitVec.allOnes len ∧ mtch.extractLsb' start len = x) :
    cmd.extractLsb' start len = x := by
  obtain ⟨hmask, hmtch⟩ := hx
  rw [← hmtch, ← h, BitVec.extractLsb'_and, hmask, BitVec.and_allOnes]

/-- The bits that `fieldImm8` reads as a number. -/
theorem extract_eq_ofNat_fieldImm8 (cmd : Word) : cmd.extractLsb' 0 8 = BitVec.ofNat 8 (fieldImm8 cmd) :=
  BitVec.eq_of_toNat_eq (by simp [fieldImm8])

/-- The bits that `fieldImmhi` reads as a number. -/
theorem extract_eq_ofNat_fieldImmhi (cmd : Word) : cmd.extractLsb' 8 8 = BitVec.ofNat 8 (fieldImmhi cmd) :=
  BitVec.eq_of_toNat_eq (by simp [fieldImmhi])

/-- A word with these six fields is the word of format V that has them (R82). -/
theorem formatV_eq_of_fields {op : BitVec 8} {vd vs1 vs2 : VIdx} {imm : Nat} (hop : cmd.extractLsb' 24 8 = op)
    (hvd : cmd.extractLsb' 21 3 = BitVec.ofFin vd) (hvs1 : cmd.extractLsb' 18 3 = BitVec.ofFin vs1)
    (hvs2 : cmd.extractLsb' 15 3 = BitVec.ofFin vs2) (hrsv : cmd.extractLsb' 8 7 = 0#7)
    (himm : cmd.extractLsb' 0 8 = BitVec.ofNat 8 imm) : formatV op vd vs1 vs2 imm = cmd := by
  unfold formatV
  rw [← hop, ← hvd, ← hvs1, ← hvs2, ← himm, ← hrsv]
  simp only [BitVec.extractLsb'_append_extractLsb'_eq_extractLsb']
  exact BitVec.extractLsb'_eq_self

/-- A word with these four fields is the word of format D that has them (R83). -/
theorem formatD_eq_of_fields {op : BitVec 8} {hi lo : Nat} (hop : cmd.extractLsb' 24 8 = op)
    (hrsvd : cmd.extractLsb' 16 8 = 0#8) (hhi : cmd.extractLsb' 8 8 = BitVec.ofNat 8 hi)
    (hlo : cmd.extractLsb' 0 8 = BitVec.ofNat 8 lo) : formatD op hi lo = cmd := by
  unfold formatD
  rw [← hop, ← hrsvd, ← hhi, ← hlo]
  simp only [BitVec.extractLsb'_append_extractLsb'_eq_extractLsb']
  exact BitVec.extractLsb'_eq_self

/-- Each field of a word that passes the test of i's row is an operand, or is covered by the mask and has its value in the
match: the word is the word of its command (R85, R92). -/
theorem encode_readFrom (h : cmd &&& i.row.mask = i.row.mtch) : encode (i.readFrom cmd) = cmd := by
  have himm := extract_eq_ofNat_fieldImm8 cmd
  have fixed {start len : Nat} {x : BitVec len} := field_of_test (start := start) (x := x) h
  cases i <;> simp only [Instr.row, opcodeMap, List.getElem_cons_zero, List.getElem_cons_succ] at fixed
  case setdim =>
    exact formatD_eq_of_fields (fixed (by decide)) (fixed (by decide)) (extract_eq_ofNat_fieldImmhi cmd) himm
  case csrr =>
    exact formatV_eq_of_fields (fixed (by decide)) (fixed (by decide)) (fixed (by decide)) (fixed (by decide))
      (fixed (by decide)) himm
  case vld | grd | hrd =>
    exact formatV_eq_of_fields (fixed (by decide)) rfl (fixed (by decide)) (fixed (by decide)) (fixed (by decide)) himm
  case vst | vlen | vwt =>
    exact formatV_eq_of_fields (fixed (by decide)) (fixed (by decide)) rfl (fixed (by decide)) (fixed (by decide))
      (fixed (by decide))
  case vxor =>
    exact formatV_eq_of_fields (fixed (by decide)) rfl rfl rfl (fixed (by decide)) (fixed (by decide))
  case vflip =>
    exact formatV_eq_of_fields (fixed (by decide)) rfl rfl (fixed (by decide)) (fixed (by decide)) himm
  case vdot =>
    exact formatV_eq_of_fields (fixed (by decide)) (fixed (by decide)) rfl rfl (fixed (by decide)) (fixed (by decide))
  case gwr | hwr =>
    exact formatV_eq_of_fields (fixed (by decide)) (fixed (by decide)) rfl (fixed (by decide)) (fixed (by decide)) himm
  case enc | synd | tlk | dec | deci | msg =>
    exact formatV_eq_of_fields (fixed (by decide)) rfl rfl (fixed (by decide)) (fixed (by decide)) (fixed (by decide))
  case buildh | mchk | tbuild =>
    exact formatV_eq_of_fields (fixed (by decide)) (fixed (by decide)) (fixed (by decide)) (fixed (by decide))
      (fixed (by decide)) (fixed (by decide))

end Sys2Proof

/-! The statements about the encoding: R80 to R88, R92. -/

namespace Sys2Proof.Proofs

open Sys2Proof Sys2Proof.Machine

/-- Settles O1: the word of a command passes the test of its row and carries its operands. -/
theorem decodeInvertsEncode : Obligations.DecodeInvertsEncode := fun i h =>
  decode_eq_ok_iff.2 ⟨encode_test i, readFrom_encode h⟩

/-- Settles O2: every field of a word that passes the test is an operand or fixed by the mask. -/
theorem encodeInvertsDecode : Obligations.EncodeInvertsDecode := fun cmd i h => by
  obtain ⟨htest, hread⟩ := decode_eq_ok_iff.1 h
  exact ⟨hread ▸ wellFormed_readFrom cmd i, hread ▸ encode_readFrom htest⟩

/-- Settles O3: a mnemonic has one row, and a word that passes a test has the opcode of that row. -/
theorem decodeFollowsOpcodeMap : Obligations.DecodeFollowsOpcodeMap := by
  refine ⟨fun cmd row hrow => ⟨fun htest => ?_, fun ⟨i, hi, hmn⟩ => ?_⟩, fun cmd i hi => ?_⟩
  · obtain ⟨i, rfl⟩ := exists_row_eq hrow
    exact ⟨_, decode_of_test htest, by rw [← Instr.row_mnemonic, Instr.row_readFrom]⟩
  · obtain rfl := opcodeMap_mnemonic_inj i.row_mem hrow (i.row_mnemonic.trans hmn)
    exact (decode_eq_ok_iff.1 hi).1
  · obtain ⟨htest, -⟩ := decode_eq_ok_iff.1 hi
    refine ⟨i.row, i.row_mem, i.row_mnemonic.symm, fun other hother hpass => opcodeMap_opcode_inj hother i.row_mem ?_⟩
    rw [← fieldOpcode_of_and (fieldOpcode_mask hother) hpass, ← fieldOpcode_of_and (fieldOpcode_mask i.row_mem) htest]

/-- Settles O6: a word that passes no test decodes to no command, and a word that passes one has that row's opcode. -/
theorem illegalWordsRaiseIllegalCommand : Obligations.IllegalWordsRaiseIllegalCommand := by
  refine ⟨fun s cmd din rest hs hfail => ?_, fun cmd hop row hrow hpass => ?_, by decide⟩
  · rw [step_of_command hs]
    rcases perform_cases (s.accept cmd din rest) with ⟨i, hi, -⟩ | ⟨r, -, hraise⟩
    · exact absurd (decode_eq_ok_iff.1 hi).1 (hfail i.row i.row_mem)
    · exact hraise
  · exact hop row hrow (fieldOpcode_of_and (fieldOpcode_mask hrow) hpass).symm

/-- Settles O4: `decode` computes each of the words. -/
theorem specWordsDecodeAsPrinted : Obligations.SpecWordsDecodeAsPrinted := by
  unfold Obligations.SpecWordsDecodeAsPrinted
  decide

end Sys2Proof.Proofs

/-! SUPPORT. No command but VLD reads DIN (spec/30_encoding.md R80; spec/70_reset_and_hazards.md R238): with another DIN it takes
the same branch and does the same. -/

namespace Sys2Proof.Machine

/-- The state with another DIN. -/
def State.withDin (s : State) (d : Word) : State := { s with din := d }

/-- The outcome with another DIN. -/
def withDinOutcome (d : Word) : Result → Result
  | .next t => .next (t.withDin d)
  | .fault r => .fault r
  | .refused r => .refused r

/-! ### Reads that DIN leaves as they were -/

section reads
variable (s : State) (d : Word)

@[simp] theorem State.withDin_N : (s.withDin d).N = s.N := rfl
@[simp] theorem State.withDin_T (x : Nat) : (s.withDin d).T x = s.T x := rfl
@[simp] theorem State.withDin_bitsOf (q : VIdx) : (s.withDin d).bitsOf q = s.bitsOf q := rfl
@[simp] theorem State.withDin_csr (c : Nat) : (s.withDin d).csr c = s.csr c := rfl
@[simp] theorem State.withDin_slotOf (x : Word) : (s.withDin d).slotOf x = s.slotOf x := rfl

@[simp] theorem greedyPass_withDin (left j : Nat) (cur : Word) (w : BitVec 6) :
    greedyPass (s.withDin d) left j cur w = greedyPass s left j cur w := by
  induction left generalizing j cur w with
  | zero => rfl
  | succ left ih => simp only [greedyPass, State.withDin_slotOf, ih]

@[simp] theorem greedyDecode_withDin (x : Word) : greedyDecode (s.withDin d) x = greedyDecode s x := by
  simp only [greedyDecode, State.withDin_slotOf, State.withDin_N, greedyPass_withDin]

end reads

/-- A test that reads no DIN takes the same branch. -/
theorem ite_withDin {c c' : Prop} [Decidable c] [Decidable c'] {d : Word} {a a' b b' : Result} (hc : c' ↔ c)
    (ha : a' = withDinOutcome d a) (hb : b' = withDinOutcome d b) :
    (if c' then a' else b') = withDinOutcome d (if c then a else b) := by
  rw [ha, hb, apply_ite (withDinOutcome d)]
  exact if_congr hc rfl rfl

/-- R238: the outcome of a command other than VLD with another DIN is its outcome, with that DIN. -/
theorem exec_withDin {i : Instr} (hi : ∀ vd len, i ≠ .vld vd len) (s : State) (d : Word) :
    exec i (s.withDin d) = withDinOutcome d (exec i s) := by
  cases i with
  | vld vd len => exact absurd rfl (hi vd len)
  | vst _ | vlen _ | vwt _ => rfl
  | csrr c =>
    simp only [exec, execCsrr, State.withDin_csr]
    split <;> rfl
  | vxor _ _ _ | vflip _ _ _ | vdot _ _ => exact ite_withDin .rfl rfl rfl
  | setdim _ _ | grd _ _ | enc _ _ | buildh | mchk | tbuild | msg _ _ =>
    exact ite_withDin .rfl rfl (ite_withDin .rfl rfl rfl)
  | gwr _ _ | hwr _ _ | hrd _ _ | synd _ _ =>
    exact ite_withDin .rfl rfl (ite_withDin .rfl rfl (ite_withDin .rfl rfl rfl))
  | tlk vd vs =>
    refine ite_withDin .rfl rfl (ite_withDin .rfl rfl ?_)
    simp only [State.withDin_T, State.withDin_bitsOf]
    split <;> rfl
  | dec vd vs =>
    refine ite_withDin .rfl rfl (ite_withDin .rfl rfl (ite_withDin .rfl rfl (ite_withDin .rfl rfl ?_)))
    simp only [State.withDin_slotOf, State.withDin_bitsOf]
    split <;> rfl
  | deci vd vs =>
    refine ite_withDin .rfl rfl (ite_withDin .rfl rfl (ite_withDin .rfl rfl ?_))
    simp only [greedyDecode_withDin, State.withDin_bitsOf]
    split <;> rfl

end Sys2Proof.Machine

/-! The statement about DIN: R80, R238. -/

namespace Sys2Proof.Proofs

open Sys2Proof Sys2Proof.Machine

/-- Settles O15: no test and no effect of a command but VLD reads DIN. -/
theorem onlyVldReadsDin : Obligations.OnlyVldReadsDin := fun _ s _ d hi h =>
  (exec_withDin hi s d).trans (congrArg (withDinOutcome d) h)

end Sys2Proof.Proofs

/-! SUPPORT. The failures of R211 up to the length tests, one law per failure over all the commands that raise it: the first
condition that holds decides how the command ends (spec/60_exceptions.md R201, R202, R204, R207 to R209, R211). -/

namespace Sys2Proof.Machine

variable {s t : State} {i : Instr} {d : Word}

/-- A command that has its effect and answers succeeds (R100). -/
theorem succeeds_of_exec (h : exec i s = .next (t.answered d)) : Succeeds i s d t := h

/-- IllegalCommand of CSRR comes before any other test (R208). -/
theorem fails_of_reservedCsr (h : i.reservedCsr) : Fails i s 8 := by
  cases i with
  | csrr c =>
    obtain ⟨c, rfl⟩ := Nat.exists_eq_add_of_le' h
    rfl
  | _ => exact h.elim

/-- InvalidDimensions of SETDIM comes first (R202). -/
theorem fails_of_badDims (h : i.badDims) : Fails i s 1 := by
  cases i with
  | setdim n k => exact if_pos h
  | _ => exact h.elim

/-- SizeLimit: SETDIM reports it after InvalidDimensions, VLD at once (R207). -/
theorem fails_of_tooLarge (hd : ¬i.badDims) (h : i.tooLarge s) : Fails i s 7 := by
  cases i with
  | setdim n k => exact (if_neg hd).trans (if_pos h)
  | vld vd len => exact if_pos h
  | _ => exact h.elim

/-- A command that needs the dimensions tests them before anything else (R202). -/
theorem fails_of_not_dimv (hn : i.needsDims) (hd : ¬s.DIMV) : Fails i s 1 := by
  cases i with
  | gwr _ _ | grd _ _ | hwr _ _ | hrd _ _ | enc _ _ | synd _ _ | buildh | mchk | tbuild | tlk _ _ | dec _ _ | deci _ _
  | msg _ _ => exact if_pos hd
  | _ => exact hn.elim

/-- IndexRange comes next after the dimensions (R209, R211). -/
theorem fails_of_badIndex (hd : i.needsDims → s.DIMV) (h : i.badIndex s) : Fails i s 9 := by
  cases i with
  | vflip _ vs pos => exact if_pos (not_lt.2 h)
  | gwr row _ | grd _ row | hwr row _ | hrd _ row =>
    exact (if_neg (not_not.2 (hd trivial))).trans (if_pos (not_lt.2 h))
  | _ => exact h.elim

/-- InvalidMatrix comes next, of a command that reads H (R205, R211). -/
theorem fails_of_noMatrix (hd : s.DIMV) (hi : ¬i.badIndex s) (hb : i ≠ .buildh) (h : i.noMatrix s) : Fails i s 5 :=
  exec_of_noMatrix hd hi hb h

/-- InputLengthMismatch comes after the dimensions, the index and the presence of H (R204, R211). -/
theorem fails_of_badLength (hd : i.needsDims → s.DIMV) (hi : ¬i.badIndex s) (hm : ¬i.noMatrix s) (h : i.badLength s) :
    Fails i s 4 := by
  cases i with
  | vxor _ vs1 vs2 | vdot vs1 vs2 => exact if_pos (mt BitVec.eq_of_toNat_eq h)
  | enc _ _ | msg _ _ | tlk _ _ => exact (if_neg (not_not.2 (hd trivial))).trans (if_pos h)
  | gwr row _ | hwr row _ =>
    exact (if_neg (not_not.2 (hd trivial))).trans ((if_neg (not_not.2 (not_le.1 hi))).trans (if_pos h))
  | synd _ _ | dec _ _ | deci _ _ =>
    exact (if_neg (not_not.2 (hd trivial))).trans ((if_neg hm).trans (if_pos h))
  | _ => exact h.elim

end Sys2Proof.Machine

/-! SUPPORT. SETDIM, CSRR and VLD where their conditions hold: what they answer, the values of the registers CSRR reads and the
STATUS register (spec/10_state.md R30 to R38; spec/40_config_and_data_movement.md R101 to R103). -/

namespace Sys2Proof.Machine

variable {s : State}

/-! ### SETDIM (R101) -/

theorem exec_setdim {n k : Nat} (hk : 0 < k) (hkn : k < n) (hn : n ≤ s.cfg.nmax) (hr : n - k ≤ s.cfg.rmax) :
    exec (.setdim n k) s = .next ((s.setDims n k).zeroG.invalidateH.answered 0) :=
  (if_neg (not_not.2 ⟨hk, hkn⟩)).trans (if_neg (not_or.2 ⟨not_lt.2 hn, not_lt.2 hr⟩))

theorem State.setDims_N_eq (s : State) {n : Nat} (k : Nat) (hn : n ≤ 32) : (s.setDims n k).N = n :=
  Nat.mod_eq_of_lt (by omega)

theorem State.setDims_K_eq (s : State) (n : Nat) {k : Nat} (hk : k ≤ 32) : (s.setDims n k).K = k :=
  Nat.mod_eq_of_lt (by omega)

/-- The zero matrix has no one at G[0][0], so it is not in standard form (R17). -/
theorem standardForm_zero {k : Nat} (hk : 0 < k) : standardForm RowMem.zero k = false := by
  refine List.all_eq_false.2 ⟨0, List.mem_range.2 hk, ?_⟩
  simp [oneAt]

/-- With G zero and H and the table discarded, STATUS shows only DIMV, Z and ORTH (R33, R101). -/
theorem status_bit_of_cleared (hd : s.DIMV) (hg : s.gmem = RowMem.zero) (hv : s.hv = false) (tb : s.tb = false) (i : Nat) :
    bit s.status i = (decide (i = 0) || (decide (i = 5) && s.z) || (decide (i = 6) && s.orth)) := by
  have hdimv : s.dimvBit = true := decide_eq_true hd
  have hgsys : s.gsysBit = false := by simp [State.gsysBit, hg, standardForm_zero hd.1]
  have htt : s.ttBit = false := by simp [State.ttBit, tb]
  simp [status_bit, hdimv, hgsys, hv, tb, htt]

/-! ### CSRR (R102) -/

/-- Each of the numbers 0x00 to 0x09 names a register (R90). -/
theorem State.csr_isSome (s : State) {c : Nat} (hc : c ≤ 9) : (s.csr c).isSome := by
  interval_cases c <;> rfl

theorem exec_csrr {c : Nat} {d : Word} (h : s.csr c = some d) : exec (.csrr c) s = .next (s.answeredKeepingErr d) := by
  simp only [exec, execCsrr, h, State.respondKeepingErr_eq]

/-- The three fields of CAP do not overlap (R38). -/
theorem capValue_toNat {c : Config} (hc : c.Valid) : (capValue c).toNat = c.nmax + 2 ^ 8 * c.rmax + 2 ^ 16 * 8 := by
  obtain ⟨-, hn, -, hr⟩ := hc
  have hr : c.rmax ≤ 24 := hr.trans (min_le_right _ _)
  have hlow : c.nmax ||| 2 ^ 8 * c.rmax = 2 ^ 8 * c.rmax + c.nmax := by
    rw [Nat.two_pow_add_eq_or_of_lt (by omega), Nat.lor_comm]
  have hhigh : (2 ^ 8 * c.rmax + c.nmax) ||| 2 ^ 16 * 8 = 2 ^ 16 * 8 + (2 ^ 8 * c.rmax + c.nmax) := by
    rw [Nat.two_pow_add_eq_or_of_lt (i := 16) (by omega), Nat.lor_comm]
  have hn32 : c.nmax % 2 ^ 32 = c.nmax := Nat.mod_eq_of_lt (by omega)
  have hr32 : c.rmax <<< 8 % 2 ^ 32 = 2 ^ 8 * c.rmax := by rw [Nat.shiftLeft_eq]; omega
  calc (capValue c).toNat
      = c.nmax % 2 ^ 32 ||| (c.rmax <<< 8 % 2 ^ 32) ||| 2 ^ 16 * 8 := by simp [capValue, Nat.shiftLeft_eq]
    _ = 2 ^ 16 * 8 + (2 ^ 8 * c.rmax + c.nmax) := by rw [hn32, hr32, hlow, hhigh]
    _ = _ := by omega

/-- STATUS reads the seven flags of R33. -/
theorem isStatus_status (s : State) : IsStatus s s.status := by
  have hg : s.gsysBit = true ↔ s.DIMV ∧ ∀ j, j < s.K → s.G j &&& mask s.K = 1#32 <<< j := by
    simp [State.gsysBit, State.dimvBit, standardForm, State.G, oneAt]
  have ht : s.ttBit = true ↔ s.tb = true ∧ s.tcount.toNat = 2 ^ (s.N - s.K) := by
    simp [State.ttBit, State.R]
  refine ⟨?_, ?_, ?_, ?_, ?_, ?_, ?_, fun i hi => ?_⟩ <;> rw [status_bit]
  · simp [State.dimvBit]
  · simpa using hg
  · simp
  · simp
  · simpa using ht
  · simp
  · simp
  · have hne : ∀ k, k < 7 → i ≠ k := by omega
    simp [hne]

/-- N − K fits a word (R32). -/
theorem State.R_toNat_word (s : State) : (BitVec.ofNat 32 s.R).toNat = s.N - s.K := by
  have hN : s.N < 64 := s.n.isLt
  exact Nat.mod_eq_of_lt (by simp only [State.R]; omega)

/-! ### VLD (R103) -/

theorem exec_vld {vd : VIdx} {len : Nat} (h : len ≤ s.cfg.nmax) :
    exec (.vld vd len) s = .next ((s.setV vd (BitVec.ofNat 6 len) (s.din &&& mask len)).answered 0) :=
  if_neg (not_lt.2 h)

end Sys2Proof.Machine

/-! The statements about configuration and data movement: R101 to R109. -/

namespace Sys2Proof.Proofs

open Sys2Proof Sys2Proof.Machine

/-- Settles O20: the dimensions fit their registers, and a cleared G is not in standard form. -/
theorem setdimSetsDimensionsAndClears : Obligations.SetdimSetsDimensionsAndClears := by
  refine ⟨fun _ _ => rfl, by decide, fun n k s => ⟨fun h => fails_of_badDims h, fun hk hkn h => ?_,
    fun hc hk hkn hn hr => ?_⟩⟩
  · exact fails_of_tooLarge (not_not.2 ⟨hk, hkn⟩) h
  · have hn32 : n ≤ 32 := hn.trans hc.2.1
    have hN := s.setDims_N_eq k hn32
    have hK := s.setDims_K_eq n (hkn.le.trans hn32)
    have hd : (s.setDims n k).DIMV := by rw [State.DIMV, hN, hK]; exact ⟨hk, hkn⟩
    exact ⟨_, succeeds_of_exec (exec_setdim hk hkn hn hr), hN, hK, fun _ => rfl, fun _ => rfl, fun _ => rfl, rfl,
      fun i _ => status_bit_of_cleared (s := (s.setDims n k).zeroG.invalidateH) hd rfl rfl rfl i⟩

/-- Settles O21: the value of each register, one clause per number. -/
theorem csrrReturnsTheRegister : Obligations.CsrrReturnsTheRegister := by
  refine ⟨fun _ => rfl, by decide, fun c s => ⟨fun h => fails_of_reservedCsr h, fun hc hv => ?_,
    fun i t hi h ht => ?_⟩⟩
  · obtain ⟨d, hd⟩ := Option.isSome_iff_exists.1 (s.csr_isSome hc)
    refine ⟨d, exec_csrr hd, ?_⟩
    have width {w : Nat} (hw : w ≤ 32) (x : BitVec w) : (x.setWidth 32).toNat = x.toNat := BitVec.toNat_setWidth_of_le hw
    refine ⟨?_, ?_, ?_, ?_, ?_, ?_, ?_, ?_, ?_, ?_⟩ <;> rintro rfl <;> obtain rfl := Option.some.inj hd
    · rfl
    · exact capValue_toNat hv
    · exact width (by decide) s.n
    · exact width (by decide) s.k
    · exact s.R_toNat_word
    · exact isStatus_status s
    · exact width (by decide) s.err
    · exact width (by decide) s.w
    · exact width (by decide) s.tcount
    · rfl
  · obtain ⟨u, d, -, rfl⟩ := effect_of_succeeded hi h ht
    exact State.answered_err u d

/-- Settles O22: the mask keeps the bits of DIN below the length. -/
theorem vldLoadsTheMaskedDataWord : Obligations.VldLoadsTheMaskedDataWord := by
  refine ⟨fun _ _ => rfl, by decide, fun vd len s => ⟨fun h => ?_, fun hc h => ?_⟩⟩
  · exact fails_of_tooLarge not_false h
  · have hlen : len ≤ 32 := h.trans hc.2.1
    refine ⟨_, _, Nat.mod_eq_of_lt (by omega), fun i hi => ?_, succeeds_of_exec (exec_vld h)⟩
    rw [bit, BitVec.getLsbD_and, getLsbD_mask, Bool.and_comm]
    simp [hi]

/-- Settles O23: the response is the register's bits. -/
theorem vstReturnsTheBits : Obligations.VstReturnsTheBits :=
  ⟨fun _ => rfl, by decide, fun _ _ => succeeds_of_exec rfl⟩

/-- Settles O24: the length tag keeps its value in a word. -/
theorem vlenReturnsTheLength : Obligations.VlenReturnsTheLength :=
  ⟨fun _ => rfl, by decide, fun _ _ => ⟨_, BitVec.toNat_setWidth_of_le (by decide), succeeds_of_exec rfl⟩⟩

/-- Settles O29: the law of a row write, after the three failures in their order. -/
theorem gwrWritesOneRowAndInvalidates : Obligations.GwrWritesOneRowAndInvalidates := by
  refine ⟨fun _ _ => rfl, by decide, fun row vs s => ⟨fun hd => ?_, fun hd h => ?_, fun hd hrow h => ?_,
    fun hd hrow hlen => ?_⟩⟩
  · exact fails_of_not_dimv trivial hd
  · exact fails_of_badIndex (fun _ => hd) h
  · exact fails_of_badLength (fun _ => hd) (not_le.2 hrow) not_false h
  · refine ⟨_, succeeds_of_exec (exec_gwr hd hrow hlen), fun j => ?_, fun _ => rfl, fun _ => rfl, rfl⟩
    rw [State.invalidateH_G, State.setG_G]
    exact if_congr eq_comm rfl rfl

/-- Settles O30: the two failures in their order, then the row. -/
theorem grdReadsOneRow : Obligations.GrdReadsOneRow := by
  refine ⟨fun _ _ => rfl, by decide, fun vd row s => ⟨fun hd => ?_, fun hd h => ?_, fun hd hrow => ?_⟩⟩
  · exact fails_of_not_dimv trivial hd
  · exact fails_of_badIndex (fun _ => hd) h
  · exact succeeds_of_exec (exec_grd hd hrow)

/-- Settles O31: the law of a row write, after the three failures in their order. -/
theorem hwrWritesOneRowAndEmptiesTheTable : Obligations.HwrWritesOneRowAndEmptiesTheTable := by
  refine ⟨fun _ _ => rfl, by decide, fun row vs s => ⟨fun hd => ?_, fun hd h => ?_, fun hd hrow h => ?_,
    fun hd hrow hlen => ?_⟩⟩
  · exact fails_of_not_dimv trivial hd
  · exact fails_of_badIndex (fun _ => hd) h
  · exact fails_of_badLength (fun _ => hd) (not_le.2 hrow) not_false h
  · refine ⟨_, succeeds_of_exec (exec_hwr hd hrow hlen), fun j => ?_, fun _ => rfl, rfl⟩
    rw [State.invalidateT_H, State.setH_H]
    exact if_congr eq_comm rfl rfl

/-- Settles O32: the three failures in their order, then the row. -/
theorem hrdReadsOneRow : Obligations.HrdReadsOneRow := by
  refine ⟨fun _ _ => rfl, by decide, fun vd row s => ⟨fun hd => ?_, fun hd h => ?_, fun hd hrow h => ?_,
    fun hd hrow h => ?_⟩⟩
  · exact fails_of_not_dimv trivial hd
  · exact fails_of_badIndex (fun _ => hd) h
  · exact fails_of_noMatrix hd (not_le.2 hrow) nofun h
  · exact succeeds_of_exec (exec_hrd hd hrow h)

end Sys2Proof.Proofs

/-! SUPPORT. The matrix-algebra commands where their conditions hold, in the forms the statements use (spec/41_matrix_algebra.md
R121 to R132). -/

namespace Sys2Proof.Machine

variable {s : State}

/-! ### The result register W (R24, R121) -/

/-- A weight is at most 32, so W holds all of it (R128). -/
theorem weight_toNat (x : Word) : (BitVec.ofNat 6 (weight x)).toNat = ones x := by
  rw [weight_eq_ones, BitVec.toNat_ofNat, Nat.mod_eq_of_lt]
  exact Nat.lt_of_le_of_lt (ones_le x) (by decide)

/-- A bit written to W reads back as 0 or 1 (R129). -/
theorem ofNat_bit_toNat (b : Bool) : (BitVec.ofNat 6 b.toNat).toNat = b.toNat := by cases b <;> rfl

theorem exec_vdot {vs1 vs2 : VIdx} (h : (s.V vs1).len = (s.V vs2).len) :
    exec (.vdot vs1 vs2) s =
      .next ((s.setW (BitVec.ofNat 6 (dot (s.V vs1).bits (s.V vs2).bits).toNat)).answered 0) :=
  if_neg (not_not.2 (congrArg BitVec.toNat h))

/-! ### A flipped position (R127) -/

/-- Adding a one-hot word changes that position and no other. -/
theorem bit_xor_oneAt (x : Word) (pos : Nat) {i : Nat} (hi : i < 32) :
    bit (x ^^^ oneAt pos) i = if i = pos then !bit x i else bit x i := by
  rw [bit, BitVec.getLsbD_xor, getLsbD_oneAt]
  by_cases h : i = pos
  · subst h; simp [hi]
  · simp [h, Ne.symm h]

/-! ### ORTH (R125) -/

/-- The machine's entry dot(G[j], H[i]) is the sum of R125, because the rows of H have length N. -/
theorem State.Inv.isOrthogonal_iff (h : s.Inv) :
    IsOrthogonal s.N s.K (s.N - s.K) s.G s.H ↔ orthogonal s.gmem s.hmem s.K s.R = true := by
  rw [orthogonal_iff]
  refine forall₂_congr fun j i => forall₂_congr fun _ _ => ?_
  rw [dot_eq_sumMod2_of_isVector (h.h_vec i)]
  rfl

end Sys2Proof.Machine

/-! The statements about the matrix-algebra commands one by one: R126 to R132. -/

namespace Sys2Proof.Proofs

open Sys2Proof Sys2Proof.Machine

/-- Settles O25: the length test, then the sum position by position. -/
theorem vxorAddsTwoVectors : Obligations.VxorAddsTwoVectors := by
  refine ⟨fun _ _ _ => rfl, by decide, fun vd vs1 vs2 s => ⟨fun h => ?_, fun h => ?_⟩⟩
  · exact fails_of_badLength nofun not_false not_false h
  · exact ⟨_, fun _ _ => BitVec.getLsbD_xor, succeeds_of_exec (exec_vxor (congrArg BitVec.toNat h))⟩

/-- Settles O26: the position test, then the sum with a one-hot word. -/
theorem vflipFlipsOnePosition : Obligations.VflipFlipsOnePosition := by
  refine ⟨fun _ _ _ => rfl, by decide, fun vd vs pos s => ⟨fun h => ?_, fun h => ?_⟩⟩
  · exact fails_of_badIndex nofun h
  · exact ⟨_, fun i hi => bit_xor_oneAt _ pos hi, succeeds_of_exec (exec_vflip h)⟩

/-- Settles O27: VWT has no condition, and the weight fits W. -/
theorem vwtCountsTheOnes : Obligations.VwtCountsTheOnes :=
  ⟨fun _ => rfl, by decide, fun _ _ => ⟨_, weight_toNat _, succeeds_of_exec rfl⟩⟩

/-- Settles O28: the length test, then the parity of the AND as a sum. -/
theorem vdotReducesTheAnd : Obligations.VdotReducesTheAnd := by
  refine ⟨fun _ _ => rfl, by decide, fun vs1 vs2 s => ⟨fun h => ?_, fun h => ?_⟩⟩
  · exact fails_of_badLength nofun not_false not_false h
  · refine ⟨_, ?_, succeeds_of_exec (exec_vdot h)⟩
    rw [ofNat_bit_toNat, dot_eq_sumMod2]

/-- Settles O33: the two failures in their order, then the machine's codeword, which is the product of R122. -/
theorem encMultipliesTheMessageByG : Obligations.EncMultipliesTheMessageByG := by
  refine ⟨fun _ _ => rfl, by decide, fun vd vs s => ⟨fun hd => ?_, fun hd h => ?_, fun hd h => ?_⟩⟩
  · exact fails_of_not_dimv trivial hd
  · exact fails_of_badLength (fun _ => hd) not_false not_false h
  · exact ⟨_, (isProduct_iff s.gmem _ _ s.K).2 rfl, succeeds_of_exec (exec_enc hd h)⟩

/-- Settles O34: the three failures in their order, then the machine's syndrome, which is the sum of R123 because the word has
length N. -/
theorem syndComputesTheSyndrome : Obligations.SyndComputesTheSyndrome := by
  refine ⟨fun _ _ => rfl, by decide, fun vd vs s => ⟨fun hd => ?_, fun hd hv => ?_, fun hd hv h => ?_,
    fun hs hd hv h => ?_⟩⟩
  · exact fails_of_not_dimv trivial hd
  · exact fails_of_noMatrix hd not_false nofun hv
  · exact fails_of_badLength (fun _ => hd) not_false (by simp [Instr.noMatrix, hv]) h
  · exact ⟨_, _, hs.R_toNat, s.isSyndrome_syndrome (hs.word_vec h), succeeds_of_exec (exec_synd hd hv h)⟩

/-- Settles O36: the two failures in their order, then the test of every entry. -/
theorem mchkTestsOrthogonality : Obligations.MchkTestsOrthogonality := by
  refine ⟨rfl, by decide, fun s => ⟨fun hd => ?_, fun hd hv => ?_, fun hs hd hv => ?_⟩⟩
  · exact fails_of_not_dimv trivial hd
  · exact fails_of_noMatrix hd not_false nofun hv
  · exact ⟨_, hs.isOrthogonal_iff.symm, succeeds_of_exec (exec_mchk hd hv)⟩

end Sys2Proof.Proofs

/-! SUPPORT. The consequences of R133 on the pure functions: an identity block in a matrix, G·Hᵗ = 0 as the syndrome of every
codeword, the pair BUILDH makes, and weight-1 patterns (spec/41_matrix_algebra.md R133; spec/42_parity_check.md R150, R152). -/

namespace Sys2Proof.Machine

/-! ### A matrix with an identity block (R17, R150) -/

section identityBlock

variable {k : Nat} {g : Nat → Word} {m c : Word} {p : Nat → Nat}

/-- Where the columns p 0, …, p (k−1) of the rows of g are the identity, a product shows the message at those positions. -/
theorem IsProduct.bit_of_identityBlock (h : IsProduct k g m c) (hp : ∀ i, i < k → p i < 32)
    (hg : ∀ j i, j < k → i < k → bit (g j) (p i) = decide (i = j)) {i : Nat} (hi : i < k) : bit c (p i) = bit m i := by
  rw [h _ (hp i hi), sumMod2_single k i]
  · simp [hi, hg i i hi hi]
  · intro j hj hne
    simp [hg j i hj hi, hne.symm]

theorem independentRows_of_identityBlock (hp : ∀ i, i < k → p i < 32)
    (hg : ∀ j i, j < k → i < k → bit (g j) (p i) = decide (i = j)) : IndependentRows k g := fun m hm h =>
  word_ext fun i _ => by
    rcases lt_or_ge i k with hi | hi
    · simpa using (h.bit_of_identityBlock hp hg hi).symm
    · simpa using hm i hi

end identityBlock

/-- R133 item 4: for a standard-form G the message is the first k positions of its codeword. -/
theorem encodeMessage_and_mask {g : RowMem} {k : Nat} (hk : k ≤ 32) (hg : IsStandard k g.read) {m : Word}
    (hm : IsVector k m) : encodeMessage g m k &&& mask k = m :=
  word_ext fun i hi => by
    rw [BitVec.getLsbD_and, getLsbD_mask]
    rcases lt_or_ge i k with hik | hik
    · have e := ((isProduct_iff g m _ k).2 rfl).bit_of_identityBlock (p := id) (fun i _ => by rw [id]; omega) hg hik
      simpa [hik, hi] using e
    · have e := hm i hik
      simp [show ¬i < k by omega, e]

/-! ### G·Hᵗ = 0 and the syndrome of a codeword (R133 item 5) -/

theorem syndrome_row_of_orthogonal {g h : RowMem} {k r j : Nat} (ho : orthogonal g h k r = true) (hj : j < k) :
    syndrome h (g.read j) r = 0 :=
  word_ext fun i _ => by
    rw [← bit, syndrome_bit]
    rcases lt_or_ge i r with hi | hi
    · simp [dot_comm, (orthogonal_iff g h k r).1 ho j i hj hi]
    · simp [show ¬i < r by omega]

/-- A sum of rows of zero syndrome has zero syndrome. -/
theorem syndrome_encodeMessage {g h : RowMem} {k r : Nat} (m : Word) (hrow : ∀ j, j < k → syndrome h (g.read j) r = 0) :
    syndrome h (encodeMessage g m k) r = 0 := by
  induction k with
  | zero => exact syndrome_zero h r
  | succ k ih =>
    have ih := ih fun j hj => hrow j (by omega)
    rw [encodeMessage]
    split_ifs
    · rw [syndrome_xor, ih, hrow k (by omega)]
      exact BitVec.xor_self
    · exact ih

/-! ### The pair that BUILDH makes (R150) -/

/-- Row i of [Pᵗ | I] is column k+i of G, and a one at position k+i, which that column does not reach. -/
theorem parityCheckRow_eq_xor (g : RowMem) (k i : Nat) :
    parityCheckRow g k i = transposeRow g (k + i) k ^^^ oneAt (k + i) :=
  word_ext fun j _ => by
    have e := transposeRow_bit g (k + i) k j
    rw [bit] at e
    rw [parityCheckRow, BitVec.getLsbD_or, BitVec.getLsbD_xor, e, getLsbD_oneAt]
    by_cases h : k + i = j
    · simp [show ¬j < k by omega]
    · simp [h]

/-- Against a row of a standard-form G, column c of G gives back the row's own bit at c. -/
theorem dot_transposeRow {g : RowMem} {k j : Nat} (hk : k ≤ 32) (hg : IsStandard k g.read) (hj : j < k) (c : Nat) :
    dot (g.read j) (transposeRow g c k) = bit (g.read j) c := by
  have hcol (t : Nat) : bit (transposeRow g c k) t = (decide (t < k ∧ t < 32) && bit (g.read t) c) :=
    transposeRow_bit g c k t
  have hvec : IsVector k (transposeRow g c k) := fun t ht => by simp [hcol, show ¬t < k by omega]
  rw [dot_eq_sumMod2_of_isVector hvec, sumMod2_single k j]
  · rw [hg j j hj hj, hcol]
    simp [hj, show j < 32 by omega]
  · intro t ht hne
    rw [hg j t hj ht, decide_eq_false hne, Bool.false_and]

theorem dot_parityCheckRow {g : RowMem} {k j i : Nat} (hg : IsStandard k g.read) (hj : j < k) (hi : k + i < 32) :
    dot (g.read j) (parityCheckRow g k i) = false := by
  rw [parityCheckRow_eq_xor, dot_xor_right, dot_transposeRow (by omega) hg hj, dot_oneAt _ hi, Bool.xor_self]

theorem orthogonal_buildParityCheck {g h : RowMem} {k r : Nat} (hkr : k + r ≤ 32) (hg : IsStandard k g.read) :
    orthogonal g (buildParityCheck g k h r) k r = true :=
  (orthogonal_iff _ _ _ _).2 fun j i hj hi => by
    rw [buildParityCheck_read, if_pos hi, dot_parityCheckRow hg hj (by omega)]

theorem independentRows_of_isStandard {g : Nat → Word} {k : Nat} (hk : k ≤ 32) (hg : IsStandard k g) :
    IndependentRows k g :=
  independentRows_of_identityBlock (p := id) (fun i _ => by rw [id]; omega) hg

theorem independentRows_buildParityCheck {g h : RowMem} {k r : Nat} (hkr : k + r ≤ 32) :
    IndependentRows r (buildParityCheck g k h r).read :=
  independentRows_of_identityBlock (p := (k + ·)) (fun i hi => by omega) fun j i hj hi => by
    rw [buildParityCheck_read, if_pos hj, parityCheckRow_bit, if_neg (by omega)]
    exact decide_eq_decide.2 (by omega)

/-! ### Weight-1 patterns (R133 item 2) -/

theorem eq_oneAt_of_ones_eq_one {p : Word} {i : Nat} (hp : ones p = 1) (hi : bit p i = true) : p = oneAt i := by
  have h32 : i < 32 := lt_of_not_ge fun h => by simp [bit, getLsbD_ge p h] at hi
  have e : ones (p ^^^ oneAt i) = 0 := by rw [ones_xor_oneAt h32, if_pos hi, hp]
  exact BitVec.xor_eq_zero_iff.1 ((ones_eq_zero_iff _).1 e)

end Sys2Proof.Machine

/-! SUPPORT. Words as vectors over GF(2), matrices of packed rows as Mathlib's matrices, and the converse half of R133 item 5 by
dimension: the codewords of k independent rows fill the kernel of n−k independent rows. -/

namespace Sys2Proof.Machine

open Matrix

/-- A bit as an element of GF(2). -/
def gf2 (b : Bool) : ZMod 2 := if b then 1 else 0

/-- A word as a vector of length n over GF(2) (R9, R120). -/
def toVec (n : Nat) (x : Word) : Fin n → ZMod 2 := fun j => gf2 (bit x j)

/-- The word of a vector over GF(2). -/
def ofVec {n : Nat} (y : Fin n → ZMod 2) : Word := (BitVec.ofFnLE fun j => decide (y j = 1)).setWidth 32

/-- The first r of the packed rows as a matrix with n columns over GF(2) (R11). -/
def toMatrix (r n : Nat) (h : Nat → Word) : Matrix (Fin r) (Fin n) (ZMod 2) :=
  Matrix.of fun i j => gf2 (bit (h i) j)

@[simp] theorem gf2_false : gf2 false = 0 := rfl

theorem gf2_inj {a b : Bool} : gf2 a = gf2 b ↔ a = b := by cases a <;> cases b <;> decide

theorem gf2_xor (a b : Bool) : gf2 (a ^^ b) = gf2 a + gf2 b := by cases a <;> cases b <;> decide

theorem gf2_and (a b : Bool) : gf2 (a && b) = gf2 a * gf2 b := by cases a <;> cases b <;> decide

theorem gf2_decide_eq_one (y : ZMod 2) : gf2 (decide (y = 1)) = y := by revert y; decide

/-- A sum of bits mod 2 is their sum in GF(2). -/
theorem gf2_sumMod2 (n : Nat) (f : Nat → Bool) : gf2 (sumMod2 n f) = ∑ j : Fin n, gf2 (f j) := by
  induction n with
  | zero => simp
  | succ n ih => simp [sumMod2_succ, gf2_xor, ih, Fin.sum_univ_castSucc]

theorem toVec_apply (n : Nat) (x : Word) (j : Fin n) : toVec n x j = gf2 (bit x j) := rfl

theorem toVec_zero (n : Nat) : toVec n 0 = 0 := funext fun j => by simp [toVec_apply, bit]

theorem toVec_inj {n : Nat} {x y : Word} (hx : IsVector n x) (hy : IsVector n y) : toVec n x = toVec n y ↔ x = y := by
  refine ⟨fun h => word_ext fun i _ => ?_, congrArg _⟩
  rcases lt_or_ge i n with hi | hi
  · exact gf2_inj.1 (congrFun h ⟨i, hi⟩)
  · exact (hx i hi).trans (hy i hi).symm

theorem bit_ofVec {n : Nat} (hn : n ≤ 32) (y : Fin n → ZMod 2) (i : Nat) :
    bit (ofVec y) i = if h : i < n then decide (y ⟨i, h⟩ = 1) else false := by
  rw [ofVec, bit, BitVec.getLsbD_setWidth, BitVec.getLsbD_ofFnLE]
  split_ifs with h
  · simp [show i < 32 by omega]
  · exact Bool.and_false _

/-- Every vector over GF(2) is that of a word. -/
theorem exists_toVec_eq {n : Nat} (hn : n ≤ 32) (y : Fin n → ZMod 2) : ∃ x, IsVector n x ∧ toVec n x = y := by
  refine ⟨ofVec y, fun i hi => ?_, funext fun j => ?_⟩
  · rw [bit_ofVec hn, dif_neg (by omega)]
  · rw [toVec_apply, bit_ofVec hn, dif_pos j.isLt, gf2_decide_eq_one]

/-- The syndrome is H times the word (R123). -/
theorem toMatrix_mulVec_toVec (h : RowMem) {n r : Nat} (hr : r ≤ 32) {v : Word} (hv : IsVector n v) :
    toMatrix r n h.read *ᵥ toVec n v = toVec r (syndrome h v r) := funext fun i => by
  have hi : (i : Nat) < r ∧ (i : Nat) < 32 := ⟨i.isLt, by omega⟩
  rw [toVec_apply, syndrome_bit, decide_eq_true hi, Bool.true_and, dot_eq_sumMod2_of_isVector hv, gf2_sumMod2]
  simp only [gf2_and]
  rfl

/-- The codeword is the message times G (R122). -/
theorem toVec_vecMul_toMatrix (g : RowMem) (n k : Nat) (m : Word) :
    toVec k m ᵥ* toMatrix k n g.read = toVec n (encodeMessage g m k) := funext fun i => by
  rw [toVec_apply, encodeMessage_bit, gf2_sumMod2]
  simp only [gf2_and]
  rfl

theorem linearIndependent_of_independentRows {g : RowMem} {n k : Nat} (hk : k ≤ 32) (hg : ∀ j, IsVector n (g.read j))
    (h : IndependentRows k g.read) : LinearIndependent (ZMod 2) (toMatrix k n g.read).row := by
  rw [← vecMul_injective_iff, ← coe_vecMulLinear, ← LinearMap.ker_eq_bot, LinearMap.ker_eq_bot']
  intro y hy
  obtain ⟨m, hm, rfl⟩ := exists_toVec_eq hk y
  have hzero : encodeMessage g m k = 0 := by
    rwa [vecMulLinear_apply, toVec_vecMul_toMatrix, ← toVec_zero,
      toVec_inj (encodeMessage_isVector hg m k) (IsVector.zero n)] at hy
  rw [h m hm ((isProduct_iff g m 0 k).2 hzero), toVec_zero]

/-- With G·Hᵗ = 0 the codewords lie in the kernel of H. -/
theorem range_toMatrix_le_ker {g h : RowMem} {n k r : Nat} (hk : k ≤ 32) (hr : r ≤ 32) (hg : ∀ j, IsVector n (g.read j))
    (ho : orthogonal g h k r = true) :
    LinearMap.range (toMatrix k n g.read).vecMulLinear ≤ LinearMap.ker (toMatrix r n h.read).mulVecLin := by
  rintro _ ⟨y, rfl⟩
  obtain ⟨m, -, rfl⟩ := exists_toVec_eq hk y
  have h0 : syndrome h (encodeMessage g m k) r = 0 :=
    syndrome_encodeMessage m fun j hj => syndrome_row_of_orthogonal ho hj
  rw [LinearMap.mem_ker, vecMulLinear_apply, toVec_vecMul_toMatrix, mulVecLin_apply,
    toMatrix_mulVec_toVec h hr (encodeMessage_isVector hg m k), h0, toVec_zero]

theorem finrank_range_toMatrix {g : RowMem} {n k : Nat} (hk : k ≤ 32) (hg : ∀ j, IsVector n (g.read j))
    (ig : IndependentRows k g.read) :
    Module.finrank (ZMod 2) (LinearMap.range (toMatrix k n g.read).vecMulLinear) = k := by
  have lg := linearIndependent_of_independentRows hk hg ig
  rw [LinearMap.finrank_range_of_inj (vecMul_injective_iff.2 lg), Module.finrank_fin_fun]

theorem finrank_ker_toMatrix {h : RowMem} {n r : Nat} (hr : r ≤ 32) (hh : ∀ i, IsVector n (h.read i))
    (ih : IndependentRows r h.read) : Module.finrank (ZMod 2) (LinearMap.ker (toMatrix r n h.read).mulVecLin) = n - r := by
  have hrank : (toMatrix r n h.read).rank = r := by
    rw [(linearIndependent_of_independentRows hr hh ih).rank_matrix, Fintype.card_fin]
  have hsum := (toMatrix r n h.read).mulVecLin.finrank_range_add_finrank_ker
  rw [← Matrix.rank, hrank, Module.finrank_fin_fun] at hsum
  omega

/-- R133 item 5, the converse half: the codewords are a subspace of the words of zero syndrome, and both have dimension k. -/
theorem exists_encodeMessage_eq {g h : RowMem} {k r : Nat} (hkr : k + r ≤ 32) (hg : ∀ j, IsVector (k + r) (g.read j))
    (hh : ∀ i, IsVector (k + r) (h.read i)) (ho : orthogonal g h k r = true) (ig : IndependentRows k g.read)
    (ih : IndependentRows r h.read) {v : Word} (hv : IsVector (k + r) v) (h0 : syndrome h v r = 0) :
    ∃ m, IsVector k m ∧ encodeMessage g m k = v := by
  have hk : k ≤ 32 := by omega
  have hr : r ≤ 32 := by omega
  have hdim : k = k + r - r := by omega
  have hmem : toVec (k + r) v ∈ LinearMap.ker (toMatrix r (k + r) h.read).mulVecLin := by
    rw [LinearMap.mem_ker, mulVecLin_apply, toMatrix_mulVec_toVec h hr hv, h0, toVec_zero]
  rw [← Submodule.eq_of_le_of_finrank_eq (range_toMatrix_le_ker hk hr hg ho)
    ((finrank_range_toMatrix hk hg ig).trans (hdim.trans (finrank_ker_toMatrix hr hh ih).symm))] at hmem
  obtain ⟨y, hy⟩ := hmem
  obtain ⟨m, hm, rfl⟩ := exists_toVec_eq hk y
  rw [vecMulLinear_apply, toVec_vecMul_toMatrix, toVec_inj (encodeMessage_isVector hg m k) hv] at hy
  exact ⟨m, hm, hy⟩

end Sys2Proof.Machine

/-! SUPPORT. R133 on the state: what the invariant gives of the dimensions and of G and H, the pair BUILDH leaves, and a register
as a message (spec/41_matrix_algebra.md R130 to R133; spec/42_parity_check.md R151, R152). -/

namespace Sys2Proof.Machine

variable {s t : State}

/-! ### G and H of a state -/

theorem State.Inv.K_add_R (h : s.Inv) : s.K + s.R = s.N := by
  rw [State.R]
  rcases h.dims with ⟨hN, hK⟩ | ⟨-, hKN, -⟩ <;> omega

/-- R133 item 5: with G·Hᵗ = 0 every codeword has zero syndrome. -/
theorem State.Inv.syndrome_encodeMessage (h : s.Inv) (ho : IsOrthogonal s.N s.K (s.N - s.K) s.G s.H) (m : Word) :
    syndrome s.hmem (encodeMessage s.gmem m s.K) s.R = 0 :=
  Machine.syndrome_encodeMessage m fun _ hj => syndrome_row_of_orthogonal (h.isOrthogonal_iff.1 ho) hj

/-- R133 item 5, the converse half. -/
theorem State.Inv.exists_encodeMessage_eq (h : s.Inv) (ho : IsOrthogonal s.N s.K (s.N - s.K) s.G s.H)
    (ig : IndependentRows s.K s.G) (ih : IndependentRows (s.N - s.K) s.H) {v : Word} (hv : IsVector s.N v)
    (h0 : syndrome s.hmem v s.R = 0) : ∃ m, IsVector s.K m ∧ encodeMessage s.gmem m s.K = v := by
  have hsum := h.K_add_R
  exact Machine.exists_encodeMessage_eq (hsum ▸ h.N_le) (fun j => hsum ▸ h.g_vec j) (fun i => hsum ▸ h.h_vec i)
    (h.isOrthogonal_iff.1 ho) ig ih (hsum ▸ hv) h0

/-- What BUILDH leaves (R152 item 1, R133 item 5): an orthogonal pair, both with independent rows. -/
theorem State.Inv.buildh_pair (h : s.Inv) (he : exec .buildh s = .next t) (ht : t.succeeded) :
    IsOrthogonal t.N t.K (t.N - t.K) t.G t.H ∧ IndependentRows t.K t.G ∧ IndependentRows (t.N - t.K) t.H := by
  have hinv : t.Inv := exec_inv h he
  have hsum : s.K + s.R ≤ 32 := h.K_add_R ▸ h.N_le
  obtain ⟨_, _, ⟨-, hstd, rfl⟩, rfl⟩ := effect_of_succeeded (by simp) he ht
  have hg := (standardForm_iff s.gmem h.K_le).1 hstd
  exact ⟨hinv.isOrthogonal_iff.2 (orthogonal_buildParityCheck hsum hg), independentRows_of_isStandard h.K_le hg,
    independentRows_buildParityCheck hsum⟩

/-- R133 item 2, with the bounds of a state: column i of the N−K rows of H. -/
theorem State.Inv.column_bit (h : s.Inv) (i j : Nat) :
    bit (column s.hmem i s.R) j = (decide (j < s.N - s.K) && bit (s.H j) i) := by
  have hR := h.R_le
  have hj : (j < s.R ∧ j < 32) ↔ j < s.R := and_iff_left_of_imp fun hj => by omega
  rw [Machine.column_bit, decide_eq_decide.2 hj]
  rfl

/-- A register that passes the length test of ENC is its bits with the length tag K. -/
theorem State.V_of_isMessage {vs : VIdx} (h : s.isMessage vs) : s.V vs = { len := s.k, bits := s.bitsOf vs } := by
  have hlen : (s.V vs).len = s.k := BitVec.eq_of_toNat_eq h
  rw [← hlen]
  rfl

end Sys2Proof.Machine

/-! The statements about encoding and syndromes together: R133. -/

namespace Sys2Proof.Proofs

open Sys2Proof Sys2Proof.Machine

/-- Settles O46: the pair BUILDH leaves is orthogonal with independent rows, so zero syndrome and codeword are the same. -/
theorem zeroSyndromeIffCodeword : Obligations.ZeroSyndromeIffCodeword := fun s t hs h ht v hv => by
  have hinv : t.Inv := exec_inv hs h
  obtain ⟨ho, ig, ih⟩ := hs.buildh_pair h ht
  rw [t.isSyndrome_iff hv]
  constructor
  · intro h0
    obtain ⟨m, hm, he⟩ := hinv.exists_encodeMessage_eq ho ig ih hv h0
    exact ⟨m, hm, (isProduct_iff t.gmem m v t.K).2 he⟩
  · rintro ⟨m, -, he⟩
    rw [← (isProduct_iff t.gmem m v t.K).1 he, hinv.syndrome_encodeMessage ho]

/-- Settles O47: SYND reads the codeword that ENC wrote, whose syndrome is zero. -/
theorem encodedMessagesHaveZeroSyndrome : Obligations.EncodedMessagesHaveZeroSyndrome := fun s vt vs vd hs hd hv hlen ho => by
  have h0 := hs.syndrome_encodeMessage ho (s.V vs).bits
  refine ⟨_, _, exec_enc hd hlen, answered_succeeded 0, exec_synd hd hv (by simp; rfl), answered_succeeded 0, ?_, ?_⟩
  · simp [h0, zeroFlag]
  · simp [h0]

/-- Settles O48: SYND reads the sum that VXOR or VFLIP wrote, and the syndrome is additive. -/
theorem syndromesAddUp : Obligations.SyndromesAddUp := fun s a b hs hd hv ha hb => by
  refine ⟨fun c d => ?_, fun c d pos hpos => ?_⟩
  · refine ⟨_, _, _, _, exec_synd hd hv ha, exec_synd hd hv hb, exec_vxor (ha.trans hb.symm),
      exec_synd hd hv (by simpa using ha), ?_⟩
    simp [syndrome_xor]
  · refine ⟨_, _, _, exec_synd hd hv ha, exec_vflip (ha ▸ hpos), exec_synd hd hv (by simpa using ha), fun i hi => ?_⟩
    have hpos32 : pos < 32 := lt_of_lt_of_le hpos hs.N_le
    have hcol : bit (column s.hmem pos s.R) i = bit (s.H i) pos := by rw [hs.column_bit, decide_eq_true hi, Bool.true_and]
    simp [syndrome_flip _ _ hpos32, hcol]

/-- Settles O49: MSG masks the codeword that ENC wrote, which for a standard-form G leaves the message. -/
theorem messageIsAPrefixOfItsCodeword : Obligations.MessageIsAPrefixOfItsCodeword := fun s vt vs vd hs hd hg hlen => by
  have hm : IsVector s.K (s.bitsOf vs) := hlen ▸ hs.v_vec vs
  refine ⟨_, _, exec_enc hd hlen, answered_succeeded 0, exec_msg hd (by simp; rfl), answered_succeeded 0, ?_⟩
  have e : encodeMessage s.gmem (s.bitsOf vs) s.K &&& mask s.K = s.bitsOf vs := encodeMessage_and_mask hs.K_le hg hm
  simp [State.V_of_isMessage hlen, e]

/-- Settles O58: ENC reads the sum of the messages that VXOR wrote, and encoding is additive. -/
theorem encodedMessagesAddUp : Obligations.EncodedMessagesAddUp := fun s a b c d hs hd ha hb => by
  refine ⟨_, _, _, _, exec_enc hd ha, answered_succeeded 0, exec_enc hd hb, answered_succeeded 0,
    exec_vxor (ha.trans hb.symm), answered_succeeded 0, exec_enc hd (by simpa using ha), answered_succeeded 0, ?_⟩
  simp [encodeMessage_xor]

/-- Settles O59: the five items of R133 and its remark on BUILDH, one law each. -/
theorem consequencesOfEncodeAndSyndrome : Obligations.ConsequencesOfEncodeAndSyndrome := fun s hs => by
  refine ⟨fun a b => syndrome_xor s.hmem a b s.R, fun i hi => ?_, fun a b => encodeMessage_xor s.gmem a b s.K,
    fun hg m hm => encodeMessage_and_mask hs.K_le hg hm,
    fun ho => ⟨fun m _ => hs.syndrome_encodeMessage ho m, fun ig ih v hv h0 => hs.exists_encodeMessage_eq ho ig ih hv h0⟩,
    fun t h ht => hs.buildh_pair h ht⟩
  have hi32 : i < 32 := lt_of_lt_of_le hi hs.N_le
  refine ⟨hs.column_bit i, fun v => syndrome_flip s.hmem v hi32 s.R, fun p hp hbit => ?_⟩
  rw [eq_oneAt_of_ones_eq_one hp hbit, syndrome_oneAt s.hmem hi32]

end Sys2Proof.Proofs

/-! SUPPORT. BUILDH and the table of its H: what a successful BUILDH leaves, the pattern x << k whose syndrome is x, and the
table in which every slot is assigned (spec/42_parity_check.md R150 to R152; spec/43_coset_leader_table.md R168 items 3, 7). -/

namespace Sys2Proof.Machine

variable {s t : State}

/-! ### The command (R151) -/

/-- BUILDH reports InvalidMatrix when a row of G fails the test of standard form (R151, R205). -/
theorem fails_buildh_of_not_standardForm (hd : s.DIMV) (hg : standardForm s.gmem s.K = false) : Fails .buildh s 5 :=
  (if_neg (not_not.2 hd)).trans (if_pos hg)

/-- The test of R151 on the packed rows. -/
theorem State.standardForm_iff_rows (s : State) :
    standardForm s.gmem s.K = true ↔ ∀ j, j < s.K → s.G j &&& mask s.K = 1#32 <<< j := by
  simp [standardForm, State.G, oneAt]

/-- What a successful BUILDH leaves, but for the answer: the rows of [Pᵗ | I] below R and the empty table. -/
theorem eq_of_buildh_succeeded (he : exec .buildh s = .next t) (ht : t.succeeded) :
    s.DIMV ∧ ∃ d, t = (s.invalidateT.setHmem (buildParityCheck s.gmem s.K s.hmem s.R)).answered d := by
  obtain ⟨_, d, ⟨hd, -, rfl⟩, rfl⟩ := effect_of_succeeded (by simp) he ht
  exact ⟨hd, d, rfl⟩

/-- Row i of the H that BUILDH writes (R151). -/
theorem State.derivedH_H (s : State) (i : Nat) : (s.invalidateT.setHmem (buildParityCheck s.gmem s.K s.hmem s.R)).H i =
    if i < s.R then parityCheckRow s.gmem s.K i else s.H i :=
  buildParityCheck_read s.gmem s.K s.hmem s.R i

/-! ### The pattern x << k (R152 item 3) -/

section shiftedPattern

variable {k r : Nat} {x : Word}

theorem bit_shiftLeft_add (x : Word) {k i : Nat} (hi : k + i < 32) : bit (x <<< k) (k + i) = bit x i := by
  rw [bit, BitVec.getLsbD_shiftLeft, Nat.add_sub_cancel_left]
  simp [hi]

theorem isVector_shiftLeft (hx : IsVector r x) (k : Nat) : IsVector (k + r) (x <<< k) := fun i hi => by
  have hbit : bit x (i - k) = false := hx (i - k) (by omega)
  simp only [bit, BitVec.getLsbD_shiftLeft]
  simp [hbit]

/-- A shift moves the ones of a word up and makes no new one. -/
theorem ones_shiftLeft_le (x : Word) (k : Nat) : ones (x <<< k) ≤ ones x := by
  have hsub : (Finset.range 32).filter (fun i => bit (x <<< k) i = true) ⊆
      ((Finset.range 32).filter (fun i => bit x i = true)).image (k + ·) := by
    intro i hi
    simp only [Finset.mem_filter, Finset.mem_range, bit, BitVec.getLsbD_shiftLeft, Bool.and_eq_true, Bool.not_eq_true',
      decide_eq_false_iff_not] at hi
    obtain ⟨hi32, ⟨-, hki⟩, hbit⟩ := hi
    refine Finset.mem_image.2 ⟨i - k, ?_, by omega⟩
    exact Finset.mem_filter.2 ⟨Finset.mem_range.2 (by omega), hbit⟩
  exact (Finset.card_le_card hsub).trans Finset.card_image_le

/-- A vector of length k meets x << k in no position. -/
theorem dot_shiftLeft_of_isVector {a : Word} (ha : IsVector k a) (x : Word) : dot a (x <<< k) = false := by
  rw [dot_eq_sumMod2, ← sumMod2_false 32]
  refine sumMod2_congr fun j _ => ?_
  rcases lt_or_ge j k with hj | hj
  · simp [bit, hj]
  · rw [ha j hj, Bool.false_and]

theorem transposeRow_isVector (g : RowMem) (c k : Nat) : IsVector k (transposeRow g c k) := fun j hj => by
  simp [transposeRow_bit, not_lt.2 hj]

/-- Of x << k, row i of [Pᵗ | I] sees bit i of x: Pᵗ stops below k. -/
theorem dot_parityCheckRow_shiftLeft (g : RowMem) (x : Word) {k i : Nat} (hi : k + i < 32) :
    dot (parityCheckRow g k i) (x <<< k) = bit x i := by
  rw [parityCheckRow_eq_xor, dot_comm, dot_xor_right, dot_comm, dot_shiftLeft_of_isVector (transposeRow_isVector g _ k),
    dot_oneAt _ hi, bit_shiftLeft_add x hi, Bool.false_xor]

/-- R152 item 3: with the H of BUILDH the syndrome of x << k is x. -/
theorem syndrome_buildParityCheck_shiftLeft (g h : RowMem) (hkr : k + r ≤ 32) (hx : IsVector r x) :
    syndrome (buildParityCheck g k h r) (x <<< k) r = x := word_ext fun i hi32 => by
  rw [← bit, syndrome_bit]
  rcases lt_or_ge i r with hi | hi
  · rw [buildParityCheck_read, if_pos hi, dot_parityCheckRow_shiftLeft g x (by omega)]
    simp [hi, hi32]
  · rw [← bit, hx i hi]
    simp [not_lt.2 hi]

end shiftedPattern

/-! ### The table (R163, R168) -/

/-- A slot below 2^r is assigned, and its leader is no heavier than x << k, hence than r (R152 item 3, R168 item 7). -/
theorem buildTable_buildParityCheck_assigned (g h : RowMem) {k r : Nat} (hkr : k + r ≤ 32) {x : Nat} (hx : x < 2 ^ r) :
    ∃ l, (buildTable (k + r) r (buildParityCheck g k h r)).table.read x = some l ∧ l.wt.toNat ≤ r := by
  have hx32 : x < 2 ^ 32 := hx.trans_le (Nat.pow_le_pow_right (by decide) (by omega))
  have hnat : (BitVec.ofNat 32 x).toNat = x := Nat.mod_eq_of_lt hx32
  have hxr : IsVector r (BitVec.ofNat 32 x) := isVector_of_toNat_lt (by rwa [hnat])
  have hp : IsVector (k + r) (BitVec.ofNat 32 x <<< k) := isVector_shiftLeft hxr k
  have hsyn : (syndrome (buildParityCheck g k h r) (BitVec.ofNat 32 x <<< k) r).toNat = x := by
    rw [syndrome_buildParityCheck_shiftLeft g h hkr hxr, hnat]
  obtain ⟨l, hl⟩ := buildTable_assigned (r := r) (buildParityCheck g k h r) hkr hp
  rw [hsyn] at hl
  obtain ⟨-, -, hwt, hmin⟩ := buildTable_some hkr hl
  refine ⟨l, hl, ?_⟩
  calc l.wt.toNat = ones l.pat := hwt
    _ ≤ ones (BitVec.ofNat 32 x <<< k) := by rcases hmin _ hp hsyn with hlt | ⟨heq, -⟩ <;> omega
    _ ≤ ones (BitVec.ofNat 32 x) := ones_shiftLeft_le _ k
    _ ≤ r := ones_le_of_isVector hxr

/-- When every slot below 2^r is assigned, the count is 2^r. -/
theorem buildTable_count_of_assigned {n r : Nat} {h : RowMem} (hn : n ≤ 32)
    (hall : ∀ x, x < 2 ^ r → ∃ l, (buildTable n r h).table.read x = some l) : (buildTable n r h).count = 2 ^ r := by
  refine le_antisymm (buildTable_count_le h hn) ?_
  have hsub : Finset.range (2 ^ r) ⊆ ((buildTable n r h).table.map Prod.fst).toFinset := by
    intro x hx
    obtain ⟨l, hl⟩ := hall x (Finset.mem_range.1 hx)
    exact List.mem_toFinset.2 (List.mem_map.2 ⟨(x, l), Memory.mem_of_find hl, rfl⟩)
  calc 2 ^ r = (Finset.range (2 ^ r)).card := (Finset.card_range _).symm
    _ ≤ ((buildTable n r h).table.map Prod.fst).toFinset.card := Finset.card_le_card hsub
    _ ≤ ((buildTable n r h).table.map Prod.fst).length := List.toFinset_card_le _
    _ = (buildTable n r h).count := by rw [List.length_map, buildTable_count h hn]

/-- After BUILDH the builder assigns every slot, none with a leader heavier than N − K. -/
theorem State.Inv.buildh_assigned (h : s.Inv) (he : exec .buildh s = .next t) (ht : t.succeeded) {x : Nat} (hx : x < 2 ^ t.R) :
    ∃ l, (buildTable t.N t.R t.hmem).table.read x = some l ∧ l.wt.toNat ≤ t.R := by
  have hsum := h.K_add_R
  obtain ⟨-, _, rfl⟩ := eq_of_buildh_succeeded he ht
  have key := buildTable_buildParityCheck_assigned s.gmem s.hmem (r := s.R) (hsum ▸ h.N_le) hx
  rwa [hsum] at key

/-- TCOUNT after TBUILD is the number of slots when every slot is assigned. -/
theorem State.Inv.tcount_of_assigned (h : s.Inv)
    (hall : ∀ x, x < 2 ^ s.R → ∃ l, (buildTable s.N s.R s.hmem).table.read x = some l) :
    (BitVec.ofNat 25 (buildTable s.N s.R s.hmem).count).toNat = 2 ^ s.R := by
  rw [h.count_toNat, ← buildTable_count s.hmem h.N_le, buildTable_count_of_assigned h.N_le hall]

end Sys2Proof.Machine

/-! The statements about BUILDH and what follows it: R150 to R152, R168. -/

namespace Sys2Proof.Proofs

open Sys2Proof Sys2Proof.Machine

/-- Settles O35: the two failures in their order, then the rows of [Pᵗ | I] bit by bit. -/
theorem buildhDerivesTheParityCheckMatrix : Obligations.BuildhDerivesTheParityCheckMatrix := by
  refine ⟨rfl, by decide, fun s => ⟨fun hd => ?_, fun hd ⟨j, hj, hne⟩ => ?_, fun hd hg => ?_⟩⟩
  · exact fails_of_not_dimv trivial hd
  · refine fails_buildh_of_not_standardForm hd (Bool.eq_false_of_not_eq_true fun hg => ?_)
    exact hne (s.standardForm_iff_rows.1 hg j hj)
  · have habove {i : Nat} (hi : s.R ≤ i) := (s.derivedH_H i).trans (if_neg (not_lt.2 hi))
    refine ⟨_, succeeds_of_exec (exec_buildh hd (s.standardForm_iff_rows.2 hg)), fun i (hi : i < s.R) => ?_,
      fun i hi => habove hi, fun hs i hi => (habove hi).trans ((hs.h_rows i).2 hi), fun _ => rfl, rfl⟩
    rw [State.derivedH_H, if_pos hi]
    refine ⟨fun j hj hj32 => ?_, fun c hc => ?_⟩
    · rw [parityCheckRow_bit, if_pos hj, decide_eq_true hj32, Bool.true_and]
      rfl
    · rw [parityCheckRow_bit, if_neg (by omega)]
      exact decide_eq_decide.2 (by omega)

/-- Settles O44: each syndrome x is that of the pattern x << K, whose weight is at most N − K. -/
theorem buildhGivesATotalTable : Obligations.BuildhGivesATotalTable := fun s t hs he ht => by
  have hinv : t.Inv := exec_inv hs he
  have hslot {x : Nat} (hx : x < 2 ^ t.R) := hs.buildh_assigned he ht hx
  have hcount := hinv.tcount_of_assigned fun x hx => (hslot hx).imp fun _ hl => hl.1
  obtain ⟨hd, _, rfl⟩ := eq_of_buildh_succeeded he ht
  refine ⟨_, exec_tbuild hd rfl, answered_succeeded 0, hcount, ?_, fun x hx => hslot hx⟩
  obtain ⟨-, -, -, -, htt, -⟩ := isStatus_status (State.answered (State.setTable _ _ _) 0)
  exact htt.2 ⟨rfl, hcount⟩

/-- Settles O45: MCHK finds the pair that BUILDH leaves, which is orthogonal. -/
theorem buildhPairIsOrthogonal : Obligations.BuildhPairIsOrthogonal := fun s t hs he ht => by
  have hinv : t.Inv := exec_inv hs he
  obtain ⟨ho, -, -⟩ := hs.buildh_pair he ht
  have horth : orthogonal t.gmem t.hmem t.K t.R = true := hinv.isOrthogonal_iff.1 ho
  obtain ⟨hd, _, rfl⟩ := eq_of_buildh_succeeded he ht
  exact ⟨_, exec_mchk hd rfl, answered_succeeded 0, horth⟩

end Sys2Proof.Proofs

/-! SUPPORT. The enumeration of R162 as lists: lexicographic order, first and last list, and the step of R162's procedure from
each list to the next (spec/43_coset_leader_table.md R162). -/

namespace Sys2Proof.Machine

/-! ### The order, the first list and the last -/

/-- The lists that start with lo come before those that start higher. -/
theorem combinationsFrom_lt (m lo w : Nat) : (combinationsFrom m lo w).Pairwise (· < ·) := by
  induction m generalizing lo w with
  | zero => cases w <;> simp [combinationsFrom]
  | succ m ih =>
    cases w with
    | zero => simp [combinationsFrom]
    | succ w =>
      rw [combinationsFrom, List.pairwise_append, List.pairwise_map]
      refine ⟨(ih (lo + 1) w).imp fun hcd => List.Lex.cons hcd, ih (lo + 1) (w + 1), fun c hc d hd => ?_⟩
      obtain ⟨e, -, rfl⟩ := List.mem_map.1 hc
      obtain ⟨hlen, -, hd⟩ := mem_combinationsFrom.1 hd
      cases d with
      | nil => simp at hlen
      | cons a d => exact List.Lex.rel (hd a (by simp)).1

theorem combinationsFrom_eq_nil {m w : Nat} (lo : Nat) (h : m < w) : combinationsFrom m lo w = [] := by
  rw [← List.length_eq_zero_iff, length_combinationsFrom, Nat.choose_eq_zero_of_lt h]

/-- The w positions from lo on, as a first position and the rest. -/
theorem map_range_succ_add (lo w : Nat) :
    (List.range (w + 1)).map (lo + ·) = lo :: (List.range w).map (lo + 1 + ·) := by
  simp [List.range_succ_eq_map, Nat.add_left_comm, Nat.add_comm]

theorem head?_combinationsFrom {m w : Nat} (lo : Nat) (h : w ≤ m) :
    (combinationsFrom m lo w).head? = some ((List.range w).map (lo + ·)) := by
  induction m generalizing lo w with
  | zero =>
    obtain rfl : w = 0 := by omega
    rfl
  | succ m ih =>
    cases w with
    | zero => rfl
    | succ w =>
      rw [combinationsFrom, List.head?_append, List.head?_map, ih (lo + 1) (by omega), map_range_succ_add]
      rfl

theorem getLast?_combinationsFrom {m w : Nat} (lo : Nat) (h : w ≤ m) :
    (combinationsFrom m lo w).getLast? = some ((List.range w).map (lo + (m - w) + ·)) := by
  induction m generalizing lo w with
  | zero =>
    obtain rfl : w = 0 := by omega
    rfl
  | succ m ih =>
    cases w with
    | zero => rfl
    | succ w =>
      rw [combinationsFrom, List.getLast?_append, List.getLast?_map]
      rcases Nat.lt_or_ge m (w + 1) with hw | hw
      · obtain rfl : w = m := by omega
        rw [combinationsFrom_eq_nil _ hw, ih (lo + 1) le_rfl, Nat.sub_self, Nat.sub_self, map_range_succ_add]
        rfl
      · rw [ih (lo + 1) hw, show lo + 1 + (m - (w + 1)) = lo + (m + 1 - (w + 1)) by omega]
        rfl

/-! ### The procedure next (R162) -/

/-- The search in a longer list: the entries after the first one are searched before it. -/
theorem lastMovable_cons {a n w : Nat} {d : List Nat} (h : w + 1 ≤ n) (t : Nat) :
    lastMovable (a :: d) n (w + 1) (t + 1) =
      ((lastMovable d n w t).map (· + 1)).or (if a = n - (w + 1) then none else some 0) := by
  induction t with
  | zero => simp [lastMovable]
  | succ t ih =>
    have hlimit : n - (w + 1) + (t + 1) = n - w + t := by omega
    rw [lastMovable, ih, lastMovable, List.getD_cons_succ, hlimit]
    split_ifs <;> rfl

/-- next moves an entry after the first one where it can, and otherwise the first one, which then starts a run. -/
theorem nextCombination_cons {a n w : Nat} {d : List Nat} (h : w + 1 ≤ n) :
    nextCombination (a :: d) n (w + 1) =
      ((nextCombination d n w).map (a :: ·)).or
        (if a = n - (w + 1) then none else some ((List.range (w + 1)).map (a + 1 + ·))) := by
  rw [nextCombination, lastMovable_cons h, nextCombination]
  cases lastMovable d n w w with
  | none => split_ifs <;> simp
  | some u => simp

/-- The step within a concatenation: past the end of the first list comes the head of the second. -/
theorem getElem?_append_succ {α : Type} {l₁ : List α} {t : Nat} (ht : t < l₁.length) (l₂ : List α) :
    (l₁ ++ l₂)[t + 1]? = l₁[t + 1]?.or l₂.head? := by
  rw [List.getElem?_append]
  split_ifs with h
  · rw [List.getElem?_eq_getElem h]
    rfl
  · rw [List.getElem?_eq_none (not_lt.1 h), show t + 1 - l₁.length = 0 by omega, List.head?_eq_getElem?]
    rfl

/-- The head of the lists that do not contain lo is the run next starts at lo + 1, unless lo has to stay. -/
theorem head?_combinationsFrom_succ {m lo w : Nat} (h : w ≤ m) : (combinationsFrom m (lo + 1) (w + 1)).head? =
    if lo = lo + (m + 1) - (w + 1) then none else some ((List.range (w + 1)).map (lo + 1 + ·)) := by
  split_ifs with hlo
  · rw [combinationsFrom_eq_nil (lo + 1) (by omega)]
    rfl
  · exact head?_combinationsFrom (lo + 1) (by omega)

/-- Each list is followed by its successor under next, and the last one, which has none, by nothing. -/
theorem combinationsFrom_getElem?_succ {m lo w t : Nat} {c : List Nat} (h : (combinationsFrom m lo w)[t]? = some c) :
    (combinationsFrom m lo w)[t + 1]? = nextCombination c (lo + m) w := by
  induction m generalizing lo w t c with
  | zero =>
    cases w with
    | zero => rfl
    | succ w => exact absurd h (by simp [combinationsFrom])
  | succ m ih =>
    cases w with
    | zero => rfl
    | succ w =>
      have hn : lo + 1 + m = lo + (m + 1) := by omega
      rw [combinationsFrom] at h ⊢
      rcases Nat.lt_or_ge t ((combinationsFrom m (lo + 1) w).map (lo :: ·)).length with ht | ht
      · rw [List.getElem?_append_left ht, List.getElem?_map, Option.map_eq_some_iff] at h
        obtain ⟨d, hd, rfl⟩ := h
        have hw : w ≤ m := not_lt.1 fun hlt => by simp [combinationsFrom_eq_nil (lo + 1) hlt] at hd
        rw [getElem?_append_succ ht, List.getElem?_map, ih hd, hn, head?_combinationsFrom_succ hw,
          nextCombination_cons (by omega)]
      · rw [List.getElem?_append_right ht] at h
        rw [List.getElem?_append_right (by omega), Nat.sub_add_comm ht, ih h, hn]

end Sys2Proof.Machine

/-! SUPPORT. The built table as a whole: how many slots are assigned, which ones, and what they hold
(spec/43_coset_leader_table.md R160, R162 to R164, R168 item 2). -/

namespace Sys2Proof.Machine

open Matrix

/-- A canonical table lists as many slots as are assigned. -/
theorem SlotMem.length_eq_card {t : SlotMem} (ht : t.wf) {M : Nat} (hM : ∀ x l, t.read x = some l → x < M) :
    t.length = ((Finset.range M).filter (fun x => (t.read x).isSome = true)).card := by
  have hnd : (t.map Prod.fst).Nodup := List.pairwise_map.2 (ht.1.imp fun hlt => Nat.ne_of_lt hlt)
  have hkeys : (Finset.range M).filter (fun x => (t.read x).isSome = true) = (t.map Prod.fst).toFinset := by
    ext x
    rw [Finset.mem_filter, Finset.mem_range, Option.isSome_iff_exists, List.mem_toFinset, List.mem_map]
    constructor
    · rintro ⟨-, l, hl⟩
      exact ⟨(x, l), Memory.mem_of_find hl, rfl⟩
    · rintro ⟨⟨_, l⟩, hm, rfl⟩
      have hl : t.read _ = some l := Memory.find_of_mem ht.1 hm
      exact ⟨hM _ l hl, l, hl⟩
  rw [hkeys, List.toFinset_card_of_nodup hnd, List.length_map]

/-- The assigned slots of a table (R63). -/
def SlotMem.assigned (t : SlotMem) : Set Nat := {x | (t.read x).isSome = true}

theorem SlotMem.mem_assigned_iff {t : SlotMem} {x : Nat} : x ∈ t.assigned ↔ (t.read x).isSome = true := .rfl

section builtTable

variable {n r x : Nat} {h : RowMem}

/-- A slot is assigned iff it is the syndrome of some pattern (R168 item 2). -/
theorem buildTable_isSome_iff (hn : n ≤ 32) : ((buildTable n r h).table.read x).isSome = true ↔
    ∃ p, IsVector n p ∧ (syndrome h p r).toNat = x := by
  rw [Option.isSome_iff_exists]
  constructor
  · rintro ⟨l, hl⟩
    obtain ⟨hp, hx, -⟩ := buildTable_some hn hl
    exact ⟨l.pat, hp, hx⟩
  · rintro ⟨p, hp, rfl⟩
    exact buildTable_assigned h hn hp

theorem buildTable_length_eq_card (hn : n ≤ 32) : (buildTable n r h).table.length =
    ((Finset.range (2 ^ r)).filter (fun x => ((buildTable n r h).table.read x).isSome = true)).card :=
  SlotMem.length_eq_card (buildTable_wf h hn) fun _ _ => buildTable_index_lt hn

/-- A slot index below 2^r names the syndrome it packs (R161). -/
theorem toNat_ofNat_of_lt (hr : r ≤ 32) (hx : x < 2 ^ r) : (BitVec.ofNat 32 x).toNat = x :=
  Nat.mod_eq_of_lt (hx.trans_le (Nat.pow_le_pow_right (by decide) hr))

/-- A word of length n has syndrome x iff the machine computes the packed x. -/
theorem isSyndrome_ofNat_iff (hr : r ≤ 32) (hx : x < 2 ^ r) {p : Word} (hp : IsVector n p) :
    IsSyndrome n r h.read p (BitVec.ofNat 32 x) ↔ (syndrome h p r).toNat = x := by
  have hsyn := syndrome_isSyndrome h hp r
  constructor
  · intro hpx
    rw [hsyn.unique hpx, toNat_ofNat_of_lt hr hx]
  · rintro rfl
    rwa [BitVec.ofNat_toNat, BitVec.setWidth_eq]

/-- A syndrome has one leader at most. -/
theorem IsLeader.unique {h : Nat → Word} {x p q : Word} (hp : IsLeader n r h x p) (hq : IsLeader n r h x q) : p = q := by
  obtain ⟨hpv, hpx, hpmin⟩ := hp
  obtain ⟨hqv, hqx, hqmin⟩ := hq
  rcases hpmin q hqv hqx with hlt | ⟨heq, rfl | hpq⟩
  · rcases hqmin p hpv hpx with hgt | ⟨heq, -⟩ <;> omega
  · rfl
  · rcases hqmin p hpv hpx with hgt | ⟨-, rfl | hqp⟩
    · omega
    · rfl
    · exact absurd hqp hpq.asymm

/-- An assigned slot holds the leader of its syndrome, with its weight (R160, R163). -/
theorem isLeader_of_buildTable_some (hn : n ≤ 32) (hr : r ≤ 32) {l : Leader}
    (hl : (buildTable n r h).table.read x = some l) :
    IsLeader n r h.read (BitVec.ofNat 32 x) l.pat ∧ l.wt.toNat = ones l.pat := by
  have hx := buildTable_index_lt hn hl
  obtain ⟨hp, hpx, hwt, hmin⟩ := buildTable_some hn hl
  exact ⟨⟨hp, (isSyndrome_ofNat_iff hr hx hp).2 hpx,
    fun q hq hqx => hmin q hq ((isSyndrome_ofNat_iff hr hx hq).1 hqx)⟩, hwt⟩

/-- The slot of a syndrome holds its leader and nothing else (R160, R163). -/
theorem buildTable_read_eq_some_iff (hn : n ≤ 32) (hr : r ≤ 32) (hx : x < 2 ^ r) (l : Leader) :
    (buildTable n r h).table.read x = some l ↔
      IsLeader n r h.read (BitVec.ofNat 32 x) l.pat ∧ l.wt.toNat = ones l.pat := by
  refine ⟨isLeader_of_buildTable_some hn hr, fun ⟨hl, hwt⟩ => ?_⟩
  have ⟨hp, hpx, _⟩ := hl
  obtain ⟨e, he⟩ := buildTable_assigned (r := r) h hn hp
  rw [(isSyndrome_ofNat_iff hr hx hp).1 hpx] at he
  obtain ⟨hlead, hewt⟩ := isLeader_of_buildTable_some hn hr he
  obtain ⟨wt, pat⟩ := l
  obtain rfl := hl.unique hlead
  obtain rfl : wt = e.wt := BitVec.eq_of_toNat_eq (hwt.trans hewt.symm)
  exact he

/-- A slot below 2^r is unassigned iff its index is no pattern's syndrome (R163, R168 item 2). -/
theorem buildTable_read_eq_none_iff (hn : n ≤ 32) (hr : r ≤ 32) (hx : x < 2 ^ r) :
    (buildTable n r h).table.read x = none ↔
      ∀ p, IsVector n p → ¬IsSyndrome n r h.read p (BitVec.ofNat 32 x) := by
  rw [← Option.not_isSome_iff_eq_none, buildTable_isSome_iff hn]
  push Not
  exact forall₂_congr fun p hp => not_congr (isSyndrome_ofNat_iff hr hx hp).symm

theorem buildTable_read_eq_none_of_ge (hn : n ≤ 32) (hx : 2 ^ r ≤ x) : (buildTable n r h).table.read x = none :=
  Option.eq_none_iff_forall_ne_some.2 fun _ hl => absurd (buildTable_index_lt hn hl) (not_lt.2 hx)

/-- The packed syndrome of slot index x, as a vector. -/
def slotVec (r x : Nat) : Fin r → ZMod 2 := toVec r (BitVec.ofNat 32 x)

theorem slotVec_injOn (hr : r ≤ 32) : Set.InjOn (slotVec r) (Set.Iio (2 ^ r)) := fun x hx y hy hxy => by
  have hvec {z : Nat} (hz : z < 2 ^ r) : IsVector r (BitVec.ofNat 32 z) :=
    isVector_of_toNat_lt (by rwa [toNat_ofNat_of_lt hr hz])
  rw [← toNat_ofNat_of_lt hr hx, ← toNat_ofNat_of_lt hr hy, (toVec_inj (hvec hx) (hvec hy)).1 hxy]

theorem buildTable_assigned_subset (hn : n ≤ 32) : (buildTable n r h).table.assigned ⊆ Set.Iio (2 ^ r) := fun _ hx => by
  obtain ⟨_, hl⟩ := Option.isSome_iff_exists.1 hx
  exact buildTable_index_lt hn hl

theorem buildTable_length_eq_ncard (hn : n ≤ 32) :
    (buildTable n r h).table.length = (buildTable n r h).table.assigned.ncard := by
  rw [buildTable_length_eq_card hn, ← Set.ncard_coe_finset, Finset.coe_filter]
  congr 1
  ext x
  exact and_iff_right_of_imp fun hx => Finset.mem_range.2 (buildTable_assigned_subset hn hx)

/-- The assigned slots are the vectors of the column space of H (R168 item 2). -/
theorem slotVec_image_assigned (hn : n ≤ 32) (hr : r ≤ 32) :
    slotVec r '' (buildTable n r h).table.assigned = LinearMap.range (toMatrix r n h.read).mulVecLin := by
  have hsyn {p : Word} (hp : IsVector n p) :
      slotVec r (syndrome h p r).toNat = (toMatrix r n h.read).mulVecLin (toVec n p) := by
    rw [mulVecLin_apply, toMatrix_mulVec_toVec h hr hp, slotVec, BitVec.ofNat_toNat, BitVec.setWidth_eq]
  ext y
  simp only [Set.mem_image, SlotMem.mem_assigned_iff, buildTable_isSome_iff hn, SetLike.mem_coe, LinearMap.mem_range]
  constructor
  · rintro ⟨_, ⟨p, hp, rfl⟩, rfl⟩
    exact ⟨toVec n p, (hsyn hp).symm⟩
  · rintro ⟨v, rfl⟩
    obtain ⟨p, hp, rfl⟩ := exists_toVec_eq hn v
    exact ⟨_, ⟨p, hp, rfl⟩, hsyn hp⟩

/-- 2^rank(H) slots are assigned (R168 item 2). -/
theorem buildTable_length_eq_two_pow_rank (hn : n ≤ 32) (hr : r ≤ 32) :
    (buildTable n r h).table.length = 2 ^ (toMatrix r n h.read).rank := by
  have hinj : Set.InjOn (slotVec r) (buildTable n r h).table.assigned :=
    (slotVec_injOn hr).mono (buildTable_assigned_subset hn)
  calc (buildTable n r h).table.length
      = (slotVec r '' (buildTable n r h).table.assigned).ncard := by
        rw [hinj.ncard_image, buildTable_length_eq_ncard hn]
    _ = Nat.card (LinearMap.range (toMatrix r n h.read).mulVecLin) := by
        rw [slotVec_image_assigned hn hr]
        exact (Nat.card_coe_set_eq _).symm
    _ = 2 ^ (toMatrix r n h.read).rank := by
        rw [Module.natCard_eq_pow_finrank (K := ZMod 2), Nat.card_zmod, Matrix.rank]

end builtTable

end Sys2Proof.Machine

/-! The statements about the coset-leader table and its enumeration: R160, R162 to R165, R168. -/

namespace Sys2Proof.Proofs

open Sys2Proof Sys2Proof.Machine

/-- Settles O37: the two failures in their order, then the slots, their number and STATUS of the built table. -/
theorem tbuildStoresTheCosetLeaders : Obligations.TbuildStoresTheCosetLeaders := by
  refine ⟨rfl, by decide, fun s => ⟨fun hd => ?_, fun hd hv => ?_, fun hs hd hv => ?_⟩⟩
  · exact fails_of_not_dimv trivial hd
  · exact fails_of_noMatrix hd not_false nofun hv
  · have hN := hs.N_le
    have hR : s.R ≤ 32 := hs.R_le.trans (by decide)
    refine ⟨_, succeeds_of_exec (exec_tbuild hd hv), rfl, fun x hx l => buildTable_read_eq_some_iff hN hR hx l,
      fun x hx => buildTable_read_eq_none_iff hN hR hx, fun x hx => buildTable_read_eq_none_of_ge hN hx,
      hs.count_toNat.trans (buildTable_length_eq_card hN), ?_⟩
    obtain ⟨-, -, -, -, htt, -⟩ := isStatus_status (State.setTable s _ _)
    exact htt.trans (and_iff_right rfl)

/-- Settles O38: the three failures in their order, then what the slot holds. -/
theorem tlkLooksUpTheLeader : Obligations.TlkLooksUpTheLeader := by
  refine ⟨fun _ _ => rfl, by decide, fun vd vs s => ⟨fun hd => ?_, fun hd h => ?_, fun hd h hT => ?_,
    fun e hd h hT => ?_⟩⟩
  · exact fails_of_not_dimv trivial hd
  · exact fails_of_badLength (fun _ => hd) not_false not_false h
  · exact fails_of_exec (exec_tlk_missing hd h hT)
  · exact succeeds_of_exec (exec_tlk hd h hT)

/-- Settles O42: the laws of the recursion over the position range, from position 0. -/
theorem combinationsAreLexicographic : Obligations.CombinationsAreLexicographic := by
  intro n w hw
  refine ⟨fun c => ?_, combinationsFrom_lt n 0 w, length_combinationsFrom n 0 w, ?_, ?_, fun t c h => ?_,
    fun hn c hc i => ?_, fun hn => patterns_ordered hn w⟩
  · simp [combinations, mem_combinationsFrom]
  · simp [combinations, head?_combinationsFrom 0 hw, firstCombination]
  · simp [combinations, getLast?_combinationsFrom 0 hw]
  · rw [combinations, combinationsFrom_getElem?_succ h, Nat.zero_add]
  · obtain ⟨-, -, hlt⟩ := mem_combinationsFrom.1 hc
    rw [patternBits_bit]
    exact decide_eq_decide.2 (and_iff_left_of_imp fun hi => by have := hlt i hi; omega)

/-- Settles O43: the assigned slots are as many as the vectors of the column space of H. -/
theorem tcountIsTwoToTheRank : Obligations.TcountIsTwoToTheRank := fun s t hs hd hv he => by
  obtain rfl := next_inj ((exec_tbuild hd hv).symm.trans he)
  exact hs.count_toNat.trans (buildTable_length_eq_two_pow_rank hs.N_le (hs.R_le.trans (by decide)))

end Sys2Proof.Proofs

/-! SUPPORT. The leader of a word's syndrome, and what a single flip does to it: the laws by which the one ascending pass of R182
ends with the zero leader while the table is built (spec/43_coset_leader_table.md R160, R168; spec/44_decoders.md R182, R184). -/

namespace Sys2Proof.Machine

variable {s : State} {v p q : Word} {i : Nat}

/-! ### The leader of a word (R160) -/

/-- p is the leader of the syndrome of v. -/
def State.Leads (s : State) (v p : Word) : Prop := IsLeader s.N (s.N - s.K) s.H (syndrome s.hmem v s.R) p

theorem State.Leads.isVector (h : s.Leads v p) : IsVector s.N p := h.1

theorem State.Leads.syndrome_eq (h : s.Leads v p) : syndrome s.hmem p s.R = syndrome s.hmem v s.R :=
  (s.isSyndrome_iff h.1).1 h.2.1

theorem State.Leads.lighter_or_first (h : s.Leads v p) (hq : IsVector s.N q)
    (e : syndrome s.hmem q s.R = syndrome s.hmem v s.R) :
    ones p < ones q ∨ (ones p = ones q ∧ (q = p ∨ Before p q)) :=
  h.2.2 q hq ((s.isSyndrome_iff hq).2 e)

theorem State.Leads.ones_le (h : s.Leads v p) (hq : IsVector s.N q)
    (e : syndrome s.hmem q s.R = syndrome s.hmem v s.R) : ones p ≤ ones q :=
  (h.lighter_or_first hq e).elim le_of_lt fun hw => hw.1.le

/-- No pattern of the leader's weight and syndrome comes before it. -/
theorem State.Leads.eq_or_before (h : s.Leads v p) (hq : IsVector s.N q)
    (e : syndrome s.hmem q s.R = syndrome s.hmem v s.R) (hw : ones q = ones p) : q = p ∨ Before p q :=
  (h.lighter_or_first hq e).elim (fun hlt => absurd hw hlt.ne') fun hw => hw.2

/-- Zero syndrome has the zero leader: no other pattern has weight 0. -/
theorem State.Leads.eq_zero (h : s.Leads v p) (h0 : syndrome s.hmem v s.R = 0) : p = 0 := by
  have hle : ones p ≤ ones 0#32 := h.ones_le (IsVector.zero s.N) ((syndrome_zero s.hmem s.R).trans h0.symm)
  exact (ones_eq_zero_iff p).1 (Nat.le_zero.1 (ones_zero ▸ hle))

/-- A leader with its weight is what `leaderOf` packs. -/
theorem leaderOf_eq {e : Leader} (h : e.wt.toNat = ones e.pat) : leaderOf e.pat = e := by
  have hwt : (leaderOf e.pat).wt = e.wt := BitVec.eq_of_toNat_eq ((leaderOf_wt e.pat).trans h.symm)
  exact congrArg (Leader.mk · e.pat) hwt

/-- While the table is built, the slot of a word holds its leader (R168 items 4 and 5). -/
theorem State.Inv.slotOf_eq_leader (h : s.Inv) (tb : s.tb = true) (hv : IsVector s.N v) :
    ∃ p, s.Leads v p ∧ s.slotOf v = some (leaderOf p) := by
  obtain ⟨e, he, hvec, hsyn, hwt, hmin⟩ := h.slot tb hv
  refine ⟨e.pat, ⟨hvec, (s.isSyndrome_iff hvec).2 hsyn, fun q hq hx => hmin q hq ((s.isSyndrome_iff hq).1 hx)⟩, ?_⟩
  rw [he, leaderOf_eq hwt]

/-! ### One trial flip (R182) -/

theorem xor_oneAt_xor_oneAt (x : Word) (i : Nat) : x ^^^ oneAt i ^^^ oneAt i = x := by
  rw [BitVec.xor_assoc, BitVec.xor_self, BitVec.xor_zero]

theorem xor_oneAt_xor_xor_oneAt (x y : Word) (i : Nat) : x ^^^ oneAt i ^^^ (y ^^^ oneAt i) = x ^^^ y := by
  rw [BitVec.xor_comm y, ← BitVec.xor_assoc, xor_oneAt_xor_oneAt]

/-- The same flip on both sides keeps the order, where it does not touch the position that decides. -/
theorem Before.xor_oneAt (h : Before p q) (hi : bit p i = bit q i) : Before (p ^^^ oneAt i) (q ^^^ oneAt i) := by
  obtain ⟨j, hp, hq, hbelow⟩ := h
  have hij : i ≠ j := by
    rintro rfl
    exact absurd (hp.symm.trans (hi.trans hq)) (by decide)
  refine ⟨j, ?_, ?_, fun k hk => ?_⟩
  · simpa [bit, hij] using hp
  · simpa [bit, hij] using hq
  · simpa [bit] using hbelow k hk

/-- A flip adds the same to both syndromes, so it takes the patterns of one syndrome to those of the other. -/
theorem syndrome_flip_iff {h : RowMem} {r : Nat} :
    syndrome h (q ^^^ oneAt i) r = syndrome h v r ↔ syndrome h q r = syndrome h (v ^^^ oneAt i) r := by
  rw [syndrome_xor, syndrome_xor, ← BitVec.xor_left_inj (syndrome h (oneAt i) r), BitVec.xor_assoc, BitVec.xor_self,
    BitVec.xor_zero]

section trial

variable (h32 : s.N ≤ 32) (hi : i < s.N) (hp : s.Leads v p) (hq : s.Leads (v ^^^ oneAt i) q)
include h32 hi hp hq

/-- A lighter leader q that the trial finds has a zero at position i: with a one there it is a pattern of the old syndrome, as
light as its leader, and so that leader or one behind it. -/
theorem State.Leads.of_lighter_flip (hlt : ones q < ones p) :
    bit (q ^^^ oneAt i) i = true ∧ ones q + 1 = ones p ∧ (q ^^^ oneAt i = p ∨ Before p (q ^^^ oneAt i)) := by
  have hvec : IsVector s.N (q ^^^ oneAt i) := hq.isVector.xor (IsVector.oneAt hi)
  have hsyn : syndrome s.hmem (q ^^^ oneAt i) s.R = syndrome s.hmem v s.R := syndrome_flip_iff.2 hq.syndrome_eq
  have hle := hp.ones_le hvec hsyn
  have hones := ones_xor_oneAt (x := q) (i := i) (by omega)
  cases hb : bit q i with
  | true =>
    rw [hb, if_pos rfl] at hones
    omega
  | false =>
    rw [hb, if_neg (by decide)] at hones
    have hw : ones (q ^^^ oneAt i) = ones p := by omega
    refine ⟨?_, by omega, hp.eq_or_before hvec hsyn hw⟩
    rw [bit_xor_oneAt q i (by omega), if_pos rfl, hb]
    rfl

/-- Where the leader has a zero, and none of its ones below, the trial flip finds no lighter leader. -/
theorem State.Leads.ones_le_flip (hlow : ∀ j, j < i → bit p j = false) (hb : bit p i = false) : ones p ≤ ones q := by
  by_contra hlt
  obtain ⟨hone, -, he⟩ := hp.of_lighter_flip h32 hi hq (not_le.1 hlt)
  rcases he with rfl | ⟨j, hpj, -, hbelow⟩
  · exact absurd (hone.symm.trans hb) (by decide)
  · have hij : i < j := by
      rcases lt_trichotomy i j with h | rfl | h
      · exact h
      · exact absurd (hpj.symm.trans hb) (by decide)
      · exact absurd (hpj.symm.trans (hlow j h)) (by decide)
    exact absurd (hone.symm.trans ((hbelow i hij).symm.trans hb)) (by decide)

/-- Where the leader has a one, the trial flip finds the leader without that one. -/
theorem State.Leads.eq_flip (hb : bit p i = true) : q = p ^^^ oneAt i ∧ ones q < ones p := by
  have hvec : IsVector s.N (p ^^^ oneAt i) := hp.isVector.xor (IsVector.oneAt hi)
  have hsyn : syndrome s.hmem (p ^^^ oneAt i) s.R = syndrome s.hmem (v ^^^ oneAt i) s.R :=
    syndrome_flip_iff.2 (by rw [xor_oneAt_xor_oneAt]; exact hp.syndrome_eq)
  have hones : ones (p ^^^ oneAt i) = ones p - 1 := (ones_xor_oneAt (by omega)).trans (if_pos hb)
  have hpos : ones p ≠ 0 := fun h0 => by
    rw [(ones_eq_zero_iff p).1 h0] at hb
    simp [bit] at hb
  have hlt : ones q < ones p := by
    have := hq.ones_le hvec hsyn
    omega
  obtain ⟨hone, hw, he | he⟩ := hp.of_lighter_flip h32 hi hq hlt
  · exact ⟨by rw [← he, xor_oneAt_xor_oneAt], hlt⟩
  · have hbefore : Before (p ^^^ oneAt i) q := by
      simpa only [xor_oneAt_xor_oneAt] using he.xor_oneAt (hb.trans hone.symm)
    rcases hq.eq_or_before hvec hsyn (by omega) with he | he
    · exact ⟨he.symm, hlt⟩
    · exact absurd he hbefore.asymm

end trial

/-! ### The pass (R182) -/

theorem greedyPass_zero (left i : Nat) (cur : Word) : greedyPass s left i cur 0#6 = some (cur, 0#6) := by
  cases left with
  | zero => rfl
  | succ left => exact if_pos rfl

/-- One trial of the pass, with what its slot holds. -/
theorem greedyPass_succ {left : Nat} {cur : Word} {w : BitVec 6} {e : Leader} (hw : w ≠ 0)
    (he : s.slotOf (cur ^^^ oneAt i) = some e) :
    greedyPass s (left + 1) i cur w =
      if e.wt < w then greedyPass s left (i + 1) (cur ^^^ oneAt i) e.wt else greedyPass s left (i + 1) cur w := by
  simp only [greedyPass, if_neg hw, he]

theorem leaderOf_zero_wt : (leaderOf 0#32).wt = 0#6 := by simp [leaderOf]

theorem leaderOf_wt_lt : (leaderOf q).wt < (leaderOf p).wt ↔ ones q < ones p := by
  rw [BitVec.lt_def, leaderOf_wt, leaderOf_wt]

/-- With the leader's ones all at i and above, the pass from i on takes them off one after the other. -/
theorem State.Inv.greedyPass_eq (h : s.Inv) (tb : s.tb = true) {left : Nat} {cur : Word} (hleft : i + left = s.N)
    (hc : IsVector s.N cur) (hp : s.Leads cur p) (hlow : ∀ j, j < i → bit p j = false) :
    greedyPass s left i cur (leaderOf p).wt = some (cur ^^^ p, 0) := by
  induction left generalizing i cur p with
  | zero =>
    obtain rfl : p = 0 := word_ext fun j _ => by
      simpa using (lt_or_ge j i).elim (hlow j) fun hj => hp.isVector j (by omega)
    simp [leaderOf_zero_wt, greedyPass_zero]
  | succ left ih =>
    by_cases hp0 : p = 0
    · subst hp0
      simp [leaderOf_zero_wt, greedyPass_zero]
    have hw : (leaderOf p).wt ≠ 0 := fun h0 =>
      hp0 ((ones_eq_zero_iff p).1 (by rw [← leaderOf_wt, h0]; rfl))
    have hi : i < s.N := by omega
    have hflip : IsVector s.N (cur ^^^ oneAt i) := hc.xor (IsVector.oneAt hi)
    obtain ⟨q, hq, hslot⟩ := h.slotOf_eq_leader tb hflip
    rw [greedyPass_succ hw hslot]
    cases hb : bit p i with
    | false =>
      have hle := hp.ones_le_flip h.N_le hi hq hlow hb
      rw [if_neg (mt leaderOf_wt_lt.1 (not_lt.2 hle))]
      exact ih (by omega) hc hp fun j hj => (Nat.lt_succ_iff_lt_or_eq.1 hj).elim (hlow j) fun hji => hji ▸ hb
    | true =>
      obtain ⟨rfl, hlt⟩ := hp.eq_flip h.N_le hi hq hb
      have hlow' (j : Nat) (hj : j < i + 1) : bit (p ^^^ oneAt i) j = false := by
        have := h.N_le
        rw [bit_xor_oneAt p i (by omega)]
        split_ifs with hji
        · rw [hji, hb]
          rfl
        · exact hlow j (by omega)
      rw [if_pos (leaderOf_wt_lt.2 hlt), ih (by omega) hflip hq hlow', xor_oneAt_xor_xor_oneAt]

theorem State.Inv.greedyDecode_eq (h : s.Inv) (tb : s.tb = true) (hv : IsVector s.N v) (hp : s.Leads v p)
    (hslot : s.slotOf v = some (leaderOf p)) : greedyDecode s v = some (v ^^^ p, 0) := by
  simp only [greedyDecode, hslot]
  exact h.greedyPass_eq tb (Nat.zero_add _) hv hp nofun

end Sys2Proof.Machine

/-! SUPPORT. The decoders where their conditions hold: while the table is built both return the word plus its leader, and a word
of zero syndrome comes back as it is (spec/44_decoders.md R181, R182, R184). -/

namespace Sys2Proof.Machine

variable {s : State} {vd vs : VIdx} {v p : Word} {pos : Nat}

/-- The state a decoder leaves with word x and weight w, and its answer. -/
def State.decoded (s : State) (vd : VIdx) (x : Word) (w : BitVec 6) : State := ((s.setV vd s.n x).setW w).answered 0

theorem State.decoded_V (s : State) (vd : VIdx) (x : Word) (w : BitVec 6) :
    (s.decoded vd x w).V vd = { len := s.n, bits := x } := by simp [State.decoded]

@[simp] theorem State.decoded_w (s : State) (vd : VIdx) (x : Word) (w : BitVec 6) : (s.decoded vd x w).w = w := rfl

theorem State.decoded_succeeded (s : State) (vd : VIdx) (x : Word) (w : BitVec 6) : (s.decoded vd x w).succeeded :=
  answered_succeeded 0

/-! ### While the table is built (R184 items 1 and 6) -/

section built

variable (h : s.Inv) (tb : s.tb = true) (hlen : (s.V vs).len.toNat = s.N) (hp : s.Leads (s.V vs).bits p)
  (hslot : s.slotOf (s.V vs).bits = some (leaderOf p))
include h tb hlen hp hslot

/-- DEC adds the leader, also to a word of zero syndrome, whose leader is zero. -/
theorem exec_dec_leader : exec (.dec vd vs) s = .next (s.decoded vd ((s.V vs).bits ^^^ p) (leaderOf p).wt) := by
  have hv := h.hv_of_tb tb
  have hd := h.dimv_of_hv hv
  by_cases h0 : syndrome s.hmem (s.V vs).bits s.R = 0
  · obtain rfl := hp.eq_zero h0
    simpa [State.decoded, leaderOf_zero_wt] using exec_dec_zero hd hv hlen h0
  · exact exec_dec_nonzero (e := leaderOf p) hd hv hlen h0 hslot

theorem exec_deci_leader : exec (.deci vd vs) s = .next (s.decoded vd ((s.V vs).bits ^^^ p) 0) := by
  have hv := h.hv_of_tb tb
  exact exec_deci (h.dimv_of_hv hv) hv hlen (h.greedyDecode_eq tb (h.word_vec hlen) hp hslot)

end built

/-- R184 items 1 and 6: both decoders succeed and return the word plus its leader; DEC leaves the leader's weight in W. -/
theorem State.Inv.decoders (h : s.Inv) (tb : s.tb = true) (hlen : (s.V vs).len.toNat = s.N) :
    ∃ p, s.Leads (s.V vs).bits p ∧
      exec (.dec vd vs) s = .next (s.decoded vd ((s.V vs).bits ^^^ p) (leaderOf p).wt) ∧
      exec (.deci vd vs) s = .next (s.decoded vd ((s.V vs).bits ^^^ p) 0) := by
  obtain ⟨p, hp, hslot⟩ := h.slotOf_eq_leader tb (h.word_vec hlen)
  exact ⟨p, hp, exec_dec_leader h tb hlen hp hslot, exec_deci_leader h tb hlen hp hslot⟩

/-! ### Zero syndrome (R184 item 3) -/

theorem exec_deci_zero (h : s.Inv) (tb : s.tb = true) (hlen : (s.V vs).len.toNat = s.N)
    (h0 : syndrome s.hmem (s.V vs).bits s.R = 0) : exec (.deci vd vs) s = .next (s.decoded vd (s.V vs).bits 0) := by
  obtain ⟨p, hp, -, hdeci⟩ := h.decoders (vd := vd) tb hlen
  obtain rfl := hp.eq_zero h0
  exact hdeci.trans (by simp)

/-! ### A single flip (R184 item 4) -/

theorem ones_oneAt {i : Nat} (hi : i < 32) : ones (oneAt i) = 1 := by
  have e := ones_xor_oneAt (x := 0) hi
  simpa [bit] using e

theorem leaderOf_oneAt_wt {i : Nat} (hi : i < 32) : (leaderOf (oneAt i)).wt = 1 := by
  simp [leaderOf, ones_oneAt hi]

/-- A pattern of weight 1 is one-hot. -/
theorem exists_eq_oneAt {n : Nat} (hp : IsVector n p) (h1 : ones p = 1) : ∃ i, i < n ∧ p = oneAt i := by
  obtain ⟨i, hi⟩ : ∃ i, bit p i = true := by
    by_contra hnone
    have h0 : p = 0 := word_ext fun i _ => by simpa using fun hi => hnone ⟨i, hi⟩
    simp [h0] at h1
  refine ⟨i, lt_of_not_ge fun hn => ?_, eq_oneAt_of_ones_eq_one h1 hi⟩
  exact absurd (hi.symm.trans (hp i hn)) (by decide)

theorem State.Inv.column_bit_of_lt (h : s.Inv) {i : Nat} (hi : i < s.N - s.K) (j : Nat) :
    bit (column s.hmem j s.R) i = bit (s.H i) j := by
  rw [h.column_bit, decide_eq_true hi, Bool.true_and]

/-- Two columns that differ in some row of H are different words. -/
theorem State.Inv.column_ne (h : s.Inv) {j k : Nat} (hne : ∃ i, i < s.N - s.K ∧ bit (s.H i) j ≠ bit (s.H i) k) :
    column s.hmem j s.R ≠ column s.hmem k s.R := fun e => by
  obtain ⟨i, hi, hne⟩ := hne
  rw [← h.column_bit_of_lt hi, ← h.column_bit_of_lt hi, e] at hne
  exact hne rfl

theorem State.Inv.column_ne_zero (h : s.Inv) {j : Nat} (hone : ∃ i, i < s.N - s.K ∧ bit (s.H i) j = true) :
    column s.hmem j s.R ≠ 0 := fun e => by
  obtain ⟨i, hi, hone⟩ := hone
  rw [← h.column_bit_of_lt hi, e] at hone
  simp [bit] at hone

/-- With nonzero and distinct columns, the leader of column pos is the one-hot pattern at pos. -/
theorem State.Leads.eq_oneAt (hp : s.Leads v p) (h32 : s.N ≤ 32) (hpos : pos < s.N)
    (hv : syndrome s.hmem v s.R = column s.hmem pos s.R) (hnz : column s.hmem pos s.R ≠ 0)
    (hinj : ∀ j, j < s.N → column s.hmem j s.R = column s.hmem pos s.R → j = pos) : p = oneAt pos := by
  have hle : ones p ≤ ones (oneAt pos) :=
    hp.ones_le (IsVector.oneAt hpos) ((syndrome_oneAt s.hmem (by omega) s.R).trans hv.symm)
  have h0 : ones p ≠ 0 := fun h0 => by
    have e := hp.syndrome_eq
    rw [(ones_eq_zero_iff p).1 h0, hv] at e
    exact hnz (e.symm.trans (syndrome_zero s.hmem s.R))
  rw [ones_oneAt (by omega)] at hle
  obtain ⟨j, hj, rfl⟩ := exists_eq_oneAt hp.isVector (by omega)
  rw [hinj j hj (by rw [← syndrome_oneAt s.hmem (by omega), hp.syndrome_eq, hv])]

/-! ### The whole chain (R184 item 5) -/

/-- BUILDH and TBUILD succeed on a standard-form G; they leave the vector registers, K and G, an orthogonal H and the built
table. -/
theorem State.Inv.buildh_tbuild (h : s.Inv) (hd : s.DIMV) (hg : IsStandard s.K s.G) :
    ∃ t u, exec .buildh s = .next t ∧ t.succeeded ∧ exec .tbuild t = .next u ∧ u.succeeded ∧ u.Inv ∧ u.tb = true ∧
      IsOrthogonal u.N u.K (u.N - u.K) u.G u.H ∧ u.K = s.K ∧ u.G = s.G ∧ ∀ i, u.V i = s.V i := by
  have hbuildh := exec_buildh hd ((standardForm_iff s.gmem h.K_le).2 hg)
  obtain ⟨hd1, hv1, -⟩ := emptied_of_writesH (.inl rfl) hbuildh (answered_succeeded 0)
  obtain ⟨ho, -, -⟩ := h.buildh_pair hbuildh (answered_succeeded 0)
  have htbuild := exec_tbuild hd1 hv1
  refine ⟨_, _, hbuildh, answered_succeeded 0, htbuild, answered_succeeded 0, exec_inv (exec_inv h hbuildh) htbuild, rfl, ?_,
    ?_, ?_, fun _ => ?_⟩
  · exact ho
  · simp
  · exact funext fun _ => by simp
  · simp

/-- A word of zero syndrome goes through either decoder as it is, and MSG masks it. -/
theorem State.Inv.decode_msg (h : s.Inv) (tb : s.tb = true) {vt : VIdx} (hlen : (s.V vt).len.toNat = s.N)
    (h0 : syndrome s.hmem (s.V vt).bits s.R = 0) (vd : VIdx) :
    ∃ u r, exec (.dec vt vt) s = .next u ∧ exec (.deci vt vt) s = .next u ∧ u.succeeded ∧
      exec (.msg vd vt) u = .next r ∧ r.succeeded ∧ r.V vd = { len := s.k, bits := (s.V vt).bits &&& mask s.K } := by
  have hv := h.hv_of_tb tb
  have hd := h.dimv_of_hv hv
  have hV := s.decoded_V vt (s.V vt).bits 0
  refine ⟨s.decoded vt (s.V vt).bits 0, _, exec_dec_zero hd hv hlen h0, exec_deci_zero h tb hlen h0,
    s.decoded_succeeded _ _ _, exec_msg hd (congrArg (·.len.toNat) hV), answered_succeeded 0, ?_⟩
  rw [State.answered_V, State.setV_V_same, hV]
  rfl

/-- With an orthogonal pair and the table built, the codeword that ENC writes has zero syndrome, and its first K positions are
the message. -/
theorem State.Inv.enc_decode_msg (h : s.Inv) (tb : s.tb = true) (ho : IsOrthogonal s.N s.K (s.N - s.K) s.G s.H)
    (hg : IsStandard s.K s.G) (hlen : (s.V vs).len.toNat = s.K) (vt vd : VIdx) :
    ∃ t u r, exec (.enc vt vs) s = .next t ∧ t.succeeded ∧ exec (.dec vt vt) t = .next u ∧
      exec (.deci vt vt) t = .next u ∧ u.succeeded ∧ exec (.msg vd vt) u = .next r ∧ r.succeeded ∧ r.V vd = s.V vs := by
  have henc := exec_enc (vd := vt) (h.dimv_of_hv (h.hv_of_tb tb)) hlen
  have h0 := h.syndrome_encodeMessage ho (s.V vs).bits
  have hmask : encodeMessage s.gmem (s.bitsOf vs) s.K &&& mask s.K = s.bitsOf vs :=
    encodeMessage_and_mask h.K_le hg (hlen ▸ h.v_vec vs)
  obtain ⟨u, r, hdec, hdeci, hu, hmsg, hr, hV⟩ :=
    (exec_inv h henc).decode_msg (vt := vt) tb (by simp; rfl) (by simpa using h0) vd
  refine ⟨_, u, r, henc, answered_succeeded 0, hdec, hdeci, hu, hmsg, hr, hV.trans ?_⟩
  simp [State.V_of_isMessage hlen, hmask]

end Sys2Proof.Machine

/-! The statements about the decoders: R180 to R184. -/

namespace Sys2Proof.Proofs

open Sys2Proof Sys2Proof.Machine

/-- Settles O39: the three failures in their order, then the syndrome and what its slot holds. -/
theorem decAddsTheLeader : Obligations.DecAddsTheLeader := by
  refine ⟨fun _ _ => rfl, by decide, fun vd vs s => ⟨fun hd => ?_, fun hd hv => ?_, fun hd hv h => ?_,
    fun hs hd hv h x hx => ?_⟩⟩
  · exact fails_of_not_dimv trivial hd
  · exact fails_of_noMatrix hd not_false nofun hv
  · exact fails_of_badLength (fun _ => hd) not_false (by simp [Instr.noMatrix, hv]) h
  · obtain rfl := (s.isSyndrome_iff (hs.word_vec h)).1 hx
    exact ⟨fun h0 => succeeds_of_exec (exec_dec_zero hd hv h h0),
      fun hne hT => fails_of_exec (exec_dec_missing hd hv h hne hT),
      fun e hne hT => succeeds_of_exec (exec_dec_nonzero hd hv h hne hT)⟩

/-- Settles O40: the three failures in their order, then the pass, which ends iff the rule has a run, and then as the run does. -/
theorem deciMakesOneGreedyPass : Obligations.DeciMakesOneGreedyPass := by
  refine ⟨fun _ _ => rfl, by decide, fun vd vs s => ⟨fun hd => ?_, fun hd hv => ?_, fun hd hv h => ?_,
    fun hs hd hv h => ⟨fun cur w hrun => ?_, fun hnone => ?_⟩⟩⟩
  · exact fails_of_not_dimv trivial hd
  · exact fails_of_noMatrix hd not_false nofun hv
  · exact fails_of_badLength (fun _ => hd) not_false (by simp [Instr.noMatrix, hv]) h
  · exact succeeds_of_exec (exec_deci hd hv h (trace_run (hs.word_vec h) hrun))
  · refine fails_of_exec (exec_deci_missing hd hv h (Option.eq_none_iff_forall_ne_some.2 fun out hout => ?_))
    exact hnone (trace_of (hs.word_vec h) hout)

/-- Settles O41: the mask keeps the first K positions. -/
theorem msgTruncatesToTheMessage : Obligations.MsgTruncatesToTheMessage := by
  refine ⟨fun _ _ => rfl, by decide, fun vd vs s => ⟨fun hd => ?_, fun hd h => ?_, fun hd h => ?_⟩⟩
  · exact fails_of_not_dimv trivial hd
  · exact fails_of_badLength (fun _ => hd) not_false not_false h
  · refine ⟨_, fun i hi => ?_, succeeds_of_exec (exec_msg hd h)⟩
    rw [bit, BitVec.getLsbD_and, getLsbD_mask, Bool.and_comm]
    simp [hi]

/-- Settles O50: the slot of a word is assigned, and so is that of every trial flip. -/
theorem decodersNeverMissASlot : Obligations.DecodersNeverMissASlot := fun s vd vs hs tb hlen => by
  obtain ⟨p, -, hdec, hdeci⟩ := hs.decoders (vd := vd) tb hlen
  exact ⟨⟨_, hdec, State.decoded_succeeded _ _ _ _⟩, ⟨_, hdeci, State.decoded_succeeded _ _ _ _⟩⟩

/-- Settles O51: the words of zero syndrome are the received word plus the patterns of its syndrome, and the leader is the
lightest of those. -/
theorem decReturnsTheNearestCodeword : Obligations.DecReturnsTheNearestCodeword := fun s vd vs hs tb hlen => by
  have hword := hs.word_vec hlen
  obtain ⟨p, hp, hdec, -⟩ := hs.decoders (vd := vd) tb hlen
  refine ⟨_, hdec, State.decoded_succeeded _ _ _ _, ?_⟩
  rw [State.decoded_V, State.decoded_w, leaderOf_wt]
  have hvec : IsVector s.N ((s.V vs).bits ^^^ p) := hword.xor hp.isVector
  refine ⟨rfl, hvec, (s.isSyndrome_iff hvec).2 ?_, ?_, fun c hc h0 => hp.ones_le (hc.xor hword) ?_⟩
  · rw [syndrome_xor, hp.syndrome_eq]
    exact BitVec.xor_self
  · rw [BitVec.xor_comm (s.V vs).bits, BitVec.xor_assoc, BitVec.xor_self, BitVec.xor_zero]
  · rw [syndrome_xor, (s.isSyndrome_iff hc).1 h0]
    simp

/-- Settles O52: both return the word plus its leader. -/
theorem greedyDecoderAgreesWithTableDecoder : Obligations.GreedyDecoderAgreesWithTableDecoder := fun s vd vs hs tb hlen => by
  obtain ⟨p, -, hdec, hdeci⟩ := hs.decoders (vd := vd) tb hlen
  exact ⟨_, _, hdec, hdeci, State.decoded_succeeded _ _ _ _, State.decoded_succeeded _ _ _ _, rfl, rfl⟩

/-- Settles O53: DEC tests for the zero syndrome before it looks at the table, and DECI finds the zero leader there. -/
theorem codewordsDecodeToThemselves : Obligations.CodewordsDecodeToThemselves := fun s vd vs hs hd hv hlen hx => by
  have h0 := (s.isSyndrome_iff (hs.word_vec hlen)).1 hx
  have hV : (s.decoded vd (s.V vs).bits 0).V vd = s.V vs := (State.decoded_V _ _ _ _).trans (State.V_of_isWord hlen).symm
  exact ⟨⟨_, exec_dec_zero hd hv hlen h0, answered_succeeded 0, hV, rfl⟩,
    fun tb => ⟨_, exec_deci_zero hs tb hlen h0, answered_succeeded 0, hV, rfl⟩⟩

/-- Settles O54: the syndrome of the word is column pos of H, and its leader the one-hot pattern at pos. -/
theorem singleErrorsAreCorrected : Obligations.SingleErrorsAreCorrected :=
  fun s vd vs c pos hs tb hnz hdist hc hx hpos hlen hbits => by
  have h32 := hs.N_le
  have hword : (s.V vs).bits = c ^^^ oneAt pos := word_ext fun i hi => by
    rw [BitVec.getLsbD_xor, getLsbD_oneAt, ← bit, hbits i hi]
    simp [hi, eq_comm]
  have hsyn : syndrome s.hmem (s.V vs).bits s.R = column s.hmem pos s.R := by
    rw [hword, syndrome_flip _ _ (by omega), (s.isSyndrome_iff hc).1 hx]
    exact BitVec.zero_xor
  have hinj (j : Nat) (hj : j < s.N) (e : column s.hmem j s.R = column s.hmem pos s.R) : j = pos := by
    rcases lt_trichotomy j pos with hlt | heq | hgt
    · exact absurd e (hs.column_ne (hdist j pos hlt hpos))
    · exact heq
    · exact absurd e.symm (hs.column_ne (hdist pos j hgt hj))
  obtain ⟨p, hp, hdec, -⟩ := hs.decoders (vd := vd) tb hlen
  obtain rfl := hp.eq_oneAt h32 hpos hsyn (hs.column_ne_zero (hnz pos hpos)) hinj
  refine ⟨_, hdec, State.decoded_succeeded _ _ _ _, ?_, ?_⟩
  · rw [State.decoded_V, hword, xor_oneAt_xor_oneAt]
  · exact leaderOf_oneAt_wt (by omega)

/-- Settles O55: BUILDH leaves an orthogonal pair and TBUILD keeps it, so the rest of the chain gives back the message. -/
theorem encodeDecodeRoundTrip : Obligations.EncodeDecodeRoundTrip := fun s vt vs vd hs hd hg hlen => by
  obtain ⟨s1, s2, hbuildh, h1, htbuild, h2, hinv, tb, ho, hK, hG, hV⟩ := hs.buildh_tbuild hd hg
  obtain ⟨t, u, r, henc, ht, hdec, hdeci, hu, hmsg, hr, hVr⟩ :=
    hinv.enc_decode_msg tb ho (hK.symm ▸ hG.symm ▸ hg) ((hV vs).symm ▸ hK.symm ▸ hlen) vt vd
  rw [hV] at hVr
  exact ⟨s1, s2, t, hbuildh, h1, htbuild, h2, henc, ht, ⟨u, r, hdec, hu, hmsg, hr, hVr⟩, ⟨u, r, hdeci, hu, hmsg, hr, hVr⟩⟩

end Sys2Proof.Proofs

/-! SUPPORT. Every check a command makes, as the machine makes it, and how a command ends by them: each check that does not hold
gives a code of its own, and with all of them passed the command succeeds (spec/60_exceptions.md R200 to R211). -/

namespace Sys2Proof

open Machine

/-- The machine's own test for InvalidMatrix: that of `Instr.noMatrix`, but for BUILDH, which compares the packed rows of G with
the rows of the identity (R151). -/
def Instr.matrixMissing (i : Instr) (s : State) : Prop :=
  match i with
  | .buildh => standardForm s.gmem s.K = false
  | i => i.noMatrix s

/-- The machine's own test for DecodeError: that of `Instr.noSlot`, with the syndrome and the pass as the machine computes them. -/
def Instr.slotMissing (i : Instr) (s : State) : Prop :=
  match i with
  | .dec _ vs => syndrome s.hmem (s.V vs).bits s.R ≠ 0 ∧ s.slotOf (s.V vs).bits = none
  | .deci _ vs => greedyDecode s (s.V vs).bits = none
  | i => i.noSlot s

/-- No check of the command fails (R211). -/
structure Instr.ChecksPass (i : Instr) (s : State) : Prop where
  /-- R208. -/
  csr : ¬i.reservedCsr
  /-- R202, SETDIM. -/
  newDims : ¬i.badDims
  /-- R207. -/
  size : ¬i.tooLarge s
  /-- R202. -/
  dims : i.needsDims → s.DIMV
  /-- R209. -/
  index : ¬i.badIndex s
  /-- R205. -/
  matrix : ¬i.matrixMissing s
  /-- R204. -/
  length : ¬i.badLength s
  /-- R206. -/
  slot : ¬i.slotMissing s

namespace Machine

variable {s t u : State} {i : Instr}

/-! ### The machine's tests and those of the rules -/

/-- BUILDH tests no length, and the other commands test for H as the rule says. -/
theorem not_noMatrix_of_badLength (hl : i.badLength s) (hm : ¬i.matrixMissing s) : ¬i.noMatrix s := by
  cases i with
  | buildh => exact hl.elim
  | _ => exact hm

theorem State.Inv.matrixMissing_iff (h : s.Inv) : i.matrixMissing s ↔ i.noMatrix s := by
  cases i with
  | buildh => exact Bool.eq_false_iff.trans (not_congr (standardForm_iff s.gmem h.K_le))
  | _ => exact Iff.rfl

/-- The slots DEC and DECI read are those of the syndrome of a word, which the length test makes sure of. -/
theorem State.Inv.slotMissing_iff (h : s.Inv) (hl : ¬i.badLength s) : i.slotMissing s ↔ i.noSlot s := by
  cases i with
  | dec vd vs =>
    have hword := h.word_vec (not_not.1 hl)
    constructor
    · rintro ⟨hne, hT⟩
      exact ⟨_, s.isSyndrome_syndrome hword, hne, hT⟩
    · rintro ⟨x, hx, hne, hT⟩
      obtain rfl := (s.isSyndrome_iff hword).1 hx
      exact ⟨hne, hT⟩
  | deci vd vs =>
    have hword := h.word_vec (not_not.1 hl)
    constructor
    · rintro hnone ⟨cur, w, hrun⟩
      exact absurd (hnone.symm.trans (trace_run hword hrun)) nofun
    · intro hnorun
      exact Option.eq_none_iff_forall_ne_some.2 fun out hout => hnorun (trace_of hword hout)
  | _ => exact Iff.rfl

/-! ### The two failures that the machine tests in its own form -/

/-- InvalidMatrix comes after the dimensions and the index (R205, R211). -/
theorem fails_of_matrixMissing (hd : i.needsDims → s.DIMV) (hi : ¬i.badIndex s) (h : i.matrixMissing s) : Fails i s 5 := by
  cases i with
  | buildh => exact fails_buildh_of_not_standardForm (hd trivial) h
  | hrd _ _ | synd _ _ | mchk | tbuild | dec _ _ | deci _ _ => exact fails_of_noMatrix (hd trivial) hi nofun h
  | _ => exact h.elim

/-- DecodeError comes last (R206, R211). -/
theorem fails_of_slotMissing (hd : i.needsDims → s.DIMV) (hm : ¬i.matrixMissing s) (hl : ¬i.badLength s)
    (h : i.slotMissing s) : Fails i s 6 := by
  cases i with
  | tlk vd vs => exact fails_of_exec (exec_tlk_missing (hd trivial) (not_not.1 hl) h)
  | dec vd vs =>
    exact fails_of_exec (exec_dec_missing (hd trivial) (Bool.eq_true_of_not_eq_false hm) (not_not.1 hl) h.1 h.2)
  | deci vd vs =>
    exact fails_of_exec (exec_deci_missing (hd trivial) (Bool.eq_true_of_not_eq_false hm) (not_not.1 hl) h)
  | _ => exact h.elim

/-! ### With all checks passed -/

/-- A command succeeds once all its checks pass (R100, R211): the forward law of each. -/
theorem succeeds_of_checksPass (h : i.ChecksPass s) : ∃ t, exec i s = .next t ∧ t.succeeded := by
  obtain ⟨hcsr, hnew, hsize, hd, hi, hm, hl, hslot⟩ := h
  cases i with
  | setdim n k =>
    obtain ⟨hk, hkn⟩ := not_not.1 hnew
    obtain ⟨hn, hr⟩ := not_or.1 hsize
    exact ⟨_, exec_setdim hk hkn (not_lt.1 hn) (not_lt.1 hr), answered_succeeded 0⟩
  | csrr c =>
    obtain ⟨d, hc⟩ := Option.isSome_iff_exists.1 (s.csr_isSome (not_lt.1 hcsr))
    exact ⟨_, exec_csrr hc, d, rfl⟩
  | vld vd len => exact ⟨_, exec_vld (not_lt.1 hsize), answered_succeeded 0⟩
  | vst _ | vlen _ | vwt _ => exact ⟨_, rfl, answered_succeeded _⟩
  | vxor vd vs1 vs2 => exact ⟨_, exec_vxor (congrArg BitVec.toNat (not_not.1 hl)), answered_succeeded 0⟩
  | vflip vd vs pos => exact ⟨_, exec_vflip (not_le.1 hi), answered_succeeded 0⟩
  | vdot vs1 vs2 => exact ⟨_, exec_vdot (not_not.1 hl), answered_succeeded 0⟩
  | gwr row vs => exact ⟨_, exec_gwr (hd trivial) (not_le.1 hi) (not_not.1 hl), answered_succeeded 0⟩
  | grd vd row => exact ⟨_, exec_grd (hd trivial) (not_le.1 hi), answered_succeeded 0⟩
  | hwr row vs => exact ⟨_, exec_hwr (hd trivial) (not_le.1 hi) (not_not.1 hl), answered_succeeded 0⟩
  | hrd vd row =>
    exact ⟨_, exec_hrd (hd trivial) (not_le.1 hi) (Bool.eq_true_of_not_eq_false hm), answered_succeeded 0⟩
  | enc vd vs => exact ⟨_, exec_enc (hd trivial) (not_not.1 hl), answered_succeeded 0⟩
  | synd vd vs =>
    exact ⟨_, exec_synd (hd trivial) (Bool.eq_true_of_not_eq_false hm) (not_not.1 hl), answered_succeeded 0⟩
  | buildh => exact ⟨_, exec_buildh (hd trivial) (Bool.eq_true_of_not_eq_false hm), answered_succeeded 0⟩
  | mchk => exact ⟨_, exec_mchk (hd trivial) (Bool.eq_true_of_not_eq_false hm), answered_succeeded 0⟩
  | tbuild => exact ⟨_, exec_tbuild (hd trivial) (Bool.eq_true_of_not_eq_false hm), answered_succeeded 0⟩
  | tlk vd vs =>
    obtain ⟨e, he⟩ := Option.ne_none_iff_exists'.1 hslot
    exact ⟨_, exec_tlk (hd trivial) (not_not.1 hl) he, answered_succeeded 0⟩
  | dec vd vs =>
    have hv := Bool.eq_true_of_not_eq_false hm
    by_cases h0 : syndrome s.hmem (s.V vs).bits s.R = 0
    · exact ⟨_, exec_dec_zero (hd trivial) hv (not_not.1 hl) h0, answered_succeeded 0⟩
    · obtain ⟨e, he⟩ := Option.ne_none_iff_exists'.1 fun hT => hslot ⟨h0, hT⟩
      exact ⟨_, exec_dec_nonzero (hd trivial) hv (not_not.1 hl) h0 he, answered_succeeded 0⟩
  | deci vd vs =>
    obtain ⟨r, hr⟩ := Option.ne_none_iff_exists'.1 hslot
    exact ⟨_, exec_deci (hd trivial) (Bool.eq_true_of_not_eq_false hm) (not_not.1 hl) hr, answered_succeeded 0⟩
  | msg vd vs => exact ⟨_, exec_msg (hd trivial) (not_not.1 hl), answered_succeeded 0⟩

/-! ### The code a command reports -/

theorem Failure.code_ne_zero (f : Failure) : f.code ≠ 0 := by cases f <;> decide

/-- A command always answers, so it has a response. -/
theorem exec_responds (i : Instr) (s : State) : ∃ t r, exec i s = .next t ∧ t.response = some r := by
  rcases exec_cases i s with ⟨f, h⟩ | ⟨c, d, -, -, h⟩ | ⟨u, d, -, h⟩ <;> exact ⟨_, _, h, rfl⟩

theorem Fails.errcode_eq {c : BitVec 4} {r : Response} (hf : Fails i s c) (h : exec i s = .next t)
    (hr : t.response = some r) : r.errcode = c := by
  obtain rfl := next_inj (hf.symm.trans h)
  obtain rfl := Option.some.inj hr
  rfl

theorem errcode_eq_zero_of_checksPass {r : Response} (hp : i.ChecksPass s) (h : exec i s = .next t)
    (hr : t.response = some r) : r.errcode = 0 := by
  obtain ⟨t', h', d, hd⟩ := succeeds_of_checksPass hp
  obtain rfl := next_inj (h'.symm.trans h)
  obtain rfl := Option.some.inj (hd.symm.trans hr)
  rfl

/-- The codes of R201 in the order of R211, without InvalidAlphabet and InvalidProbability, which no command raises (R203). -/
def reportedCodes : List (BitVec 4) := [8, 1, 7, 9, 5, 4, 6]

/-- A command that failed with another code would have passed every check, and so not have failed. -/
theorem Fails.code_mem {f : Failure} (h : Fails i s f.code) : f.code ∈ reportedCodes := by
  by_contra hc
  have other (c : BitVec 4) (hmem : c ∈ reportedCodes) : ¬Fails i s c := fun hf => by
    obtain rfl : f.code = c := hf.errcode_eq h rfl
    exact hc hmem
  have hnew : ¬i.badDims := fun hb => other 1 (by decide) (fails_of_badDims hb)
  have hd (hn : i.needsDims) : s.DIMV := not_not.1 fun hd => other 1 (by decide) (fails_of_not_dimv hn hd)
  have hi : ¬i.badIndex s := fun hb => other 9 (by decide) (fails_of_badIndex hd hb)
  have hm : ¬i.matrixMissing s := fun hb => other 5 (by decide) (fails_of_matrixMissing hd hi hb)
  have hl : ¬i.badLength s := fun hb =>
    other 4 (by decide) (fails_of_badLength hd hi (not_noMatrix_of_badLength hb hm) hb)
  have hpass : i.ChecksPass s :=
    { csr := fun hb => other 8 (by decide) (fails_of_reservedCsr hb)
      newDims := hnew
      size := fun hb => other 7 (by decide) (fails_of_tooLarge hnew hb)
      dims := hd
      index := hi
      matrix := hm
      length := hl
      slot := fun hb => other 6 (by decide) (fails_of_slotMissing hd hm hl hb) }
  exact f.code_ne_zero (errcode_eq_zero_of_checksPass hpass h rfl)

/-! ### What ending a command writes (R210) -/

/-- ERRCMD is written by a failure only: no effect touches it. -/
theorem Effect.keeps_errcmd (h : Effect s u i) : u.errcmd = s.errcmd := by
  cases i with
  | csrr c => exact h.elim
  | vst _ | vlen _ | vwt _ => obtain rfl := h; simp
  | setdim _ _ | vld _ _ | vxor _ _ _ | vflip _ _ _ | vdot _ _ => obtain ⟨-, rfl⟩ := h; simp
  | grd _ _ | enc _ _ | buildh | mchk | tbuild | msg _ _ => obtain ⟨-, -, rfl⟩ := h; simp
  | gwr _ _ | hwr _ _ | hrd _ _ | synd _ _ => obtain ⟨-, -, -, rfl⟩ := h; simp
  | tlk vd vs => obtain ⟨-, -, e, -, rfl⟩ := h; simp
  | dec vd vs => obtain ⟨-, -, -, ⟨-, rfl⟩ | ⟨-, e, -, rfl⟩⟩ := h <;> simp
  | deci vd vs => obtain ⟨-, -, -, r, -, rfl⟩ := h; simp

/-! ### ERR and the response never hold code 2 or 3 (R203) -/

/-- A code other than those of InvalidAlphabet and InvalidProbability. -/
abbrev LiveCode (c : BitVec 4) : Prop := c ≠ 2 ∧ c ≠ 3

/-- ERR and the response hold live codes. -/
structure State.LiveCodes (s : State) : Prop where
  err : LiveCode s.err
  response : ∀ r, s.response = some r → LiveCode r.errcode

theorem liveCode_zero : LiveCode 0 := by decide

theorem liveCode_of_mem_reportedCodes {c : BitVec 4} (h : c ∈ reportedCodes) : LiveCode c := by
  constructor <;> rintro rfl <;> exact absurd h (by decide)

theorem State.liveCodes_failed (s : State) {f : Failure} (hf : f.code ∈ reportedCodes) : (s.failed f).LiveCodes :=
  ⟨liveCode_of_mem_reportedCodes hf, fun _ hr => Option.some.inj hr ▸ liveCode_of_mem_reportedCodes hf⟩

theorem State.liveCodes_answered (s : State) (d : Word) : (s.answered d).LiveCodes :=
  ⟨liveCode_zero, fun _ hr => Option.some.inj hr ▸ liveCode_zero⟩

theorem State.LiveCodes.answeredKeepingErr (h : s.LiveCodes) (d : Word) : (s.answeredKeepingErr d).LiveCodes :=
  ⟨h.err, fun _ hr => Option.some.inj hr ▸ liveCode_zero⟩

theorem State.LiveCodes.accept (h : s.LiveCodes) (cmd din : Word) (rest : List HostEvent) :
    (s.accept cmd din rest).LiveCodes := ⟨h.err, h.response⟩

theorem State.liveCodes_resetEvent (s : State) (rest : List HostEvent) : (s.resetEvent rest).LiveCodes :=
  ⟨liveCode_zero, nofun⟩

theorem State.LiveCodes.exec (h : s.LiveCodes) (he : exec i s = .next t) : t.LiveCodes := by
  rcases exec_cases i s with ⟨f, h'⟩ | ⟨c, d, -, -, h'⟩ | ⟨u, d, -, h'⟩ <;> obtain rfl := next_inj (h'.symm.trans he)
  · exact s.liveCodes_failed (fails_of_exec h').code_mem
  · exact h.answeredKeepingErr d
  · exact u.liveCodes_answered d

theorem State.LiveCodes.perform (h : s.LiveCodes) (he : perform s = .next t) : t.LiveCodes := by
  rcases perform_cases s with ⟨i, -, h'⟩ | ⟨r, -, h'⟩
  · exact h.exec (h'.symm.trans he)
  · obtain rfl := next_inj (h'.symm.trans he)
    exact s.liveCodes_failed (by decide)

theorem State.LiveCodes.step (h : s.LiveCodes) (he : step s = .next t) : t.LiveCodes := by
  match hs : s.host with
  | [] =>
    obtain rfl := next_inj ((step_of_nothing_pending hs).symm.trans he)
    exact h
  | .command cmd din :: rest => exact (h.accept cmd din rest).perform ((step_of_command hs).symm.trans he)
  | .reset :: rest =>
    obtain rfl := next_inj ((step_of_reset hs).symm.trans he)
    exact s.liveCodes_resetEvent rest

end Machine

end Sys2Proof

/-! The statements about failures: R201 to R211. -/

namespace Sys2Proof.Proofs

open Sys2Proof Sys2Proof.Machine

/-- Settles O9: by the way a command ends; no failure has code 0, and only CSRR answers without writing ERR. -/
theorem failureChangesOnlyErrAndErrcmd : Obligations.FailureChangesOnlyErrAndErrcmd := fun i s t h => by
  rcases exec_cases i s with ⟨f, h'⟩ | ⟨c, d, rfl, -, h'⟩ | ⟨u, d, hu, h'⟩ <;> obtain rfl := next_inj (h'.symm.trans h)
  · exact ⟨_, rfl, fun _ => ⟨rfl, f.code_le, rfl⟩, fun h0 => absurd h0 f.code_ne_zero⟩
  · exact ⟨_, rfl, fun hne => absurd rfl hne, fun _ => ⟨rfl, fun hi => absurd rfl (hi c), fun _ => rfl⟩⟩
  · refine ⟨_, rfl, fun hne => absurd rfl hne, fun _ => ⟨hu.keeps_errcmd, fun _ => rfl, ?_⟩⟩
    rintro ⟨c, rfl⟩
    exact hu.elim

/-- Settles O10: no check raises InvalidAlphabet or InvalidProbability, so no way a step ends writes code 2 or 3. -/
theorem codesTwoAndThreeNeverAppear : Obligations.CodesTwoAndThreeNeverAppear := fun s t h2 h3 hr h => by
  obtain ⟨⟨ht2, ht3⟩, hresp⟩ := State.LiveCodes.step ⟨⟨h2, h3⟩, hr⟩ h
  exact ⟨ht2, ht3, hresp⟩

/-- Settles O11: one law per failure, each of which needs only that the conditions before it do not hold. -/
theorem firstFailureInOrderIsReported : Obligations.FirstFailureInOrderIsReported := by
  refine ⟨fun s cmd din rest hs hno => ?_, fun i s hs => ?_⟩
  · cases hdec : decode cmd with
    | ok i => exact absurd hdec (hno i)
    | error r =>
      exact ⟨_, _, (step_of_command hs).trans (perform_of_decode_error (s := s.accept cmd din rest) hdec), rfl, rfl⟩
  · obtain ⟨t, r, h, hr⟩ := exec_responds i s
    refine ⟨t, r, h, hr, fun hc => ?_, fun _ hb => ?_, fun _ hn hb => ?_, fun _ _ _ hn hb => ?_, fun _ _ _ hd hb => ?_,
      fun _ _ _ hd hi hb => ?_, fun _ _ _ hd hi hm hb => ?_, fun _ _ _ hd _ hm hl hb => ?_,
      fun hc hn hz hd hi hm hl hb => ?_⟩
    · exact (fails_of_reservedCsr hc).errcode_eq h hr
    · exact (fails_of_badDims hb).errcode_eq h hr
    · exact (fails_of_tooLarge hn hb).errcode_eq h hr
    · exact (fails_of_not_dimv hn hb).errcode_eq h hr
    · exact (fails_of_badIndex hd hb).errcode_eq h hr
    · exact (fails_of_matrixMissing hd hi (hs.matrixMissing_iff.2 hb)).errcode_eq h hr
    · exact (fails_of_badLength hd hi hm hb).errcode_eq h hr
    · have hm' := mt hs.matrixMissing_iff.1 hm
      exact (fails_of_slotMissing hd hm' hl ((hs.slotMissing_iff hl).2 hb)).errcode_eq h hr
    · have hpass : i.ChecksPass s :=
        ⟨hc, hn, hz, hd, hi, mt hs.matrixMissing_iff.1 hm, hl, mt (hs.slotMissing_iff hl).1 hb⟩
      exact errcode_eq_zero_of_checksPass hpass h hr

end Sys2Proof.Proofs

/-! SUPPORT. That a command, and so a step, always answers a next state (spec/70_reset_and_hazards.md R236, R237), and what the
state after the reset event reads (R231). -/

namespace Sys2Proof.Machine

variable {s : State}

/-! ### Every outcome is a next state -/

theorem exec_eq_next (i : Instr) (s : State) : ∃ t, exec i s = .next t := by
  obtain ⟨t, -, h, -⟩ := exec_responds i s
  exact ⟨t, h⟩

/-- R86: a word that is no command is a failure, which is a next state as well. -/
theorem perform_eq_next (s : State) : ∃ t, perform s = .next t := by
  rcases perform_cases s with ⟨i, -, h⟩ | ⟨r, -, h⟩
  · obtain ⟨t, ht⟩ := exec_eq_next i s
    exact ⟨t, h.trans ht⟩
  · exact ⟨_, h⟩

theorem step_eq_next (s : State) : ∃ t, step s = .next t := by
  match hs : s.host with
  | [] => exact ⟨_, step_of_nothing_pending hs⟩
  | .command cmd din :: rest =>
    obtain ⟨t, ht⟩ := perform_eq_next (s.accept cmd din rest)
    exact ⟨t, (step_of_command hs).trans ht⟩
  | .reset :: rest => exact ⟨_, step_of_reset hs⟩

/-! ### The state after the reset event -/

/-- The start state is what a reset event with nothing behind it makes of it: one set of facts serves both states of R231. -/
theorem State.reset_eq_resetEvent : State.reset = State.reset.resetEvent [] := rfl

@[simp] theorem State.resetEvent_V (s : State) (rest : List HostEvent) (i : VIdx) :
    (s.resetEvent rest).V i = { len := 0, bits := 0 } := State.resetOf_V s.cfg i

@[simp] theorem State.resetEvent_csr_cap (s : State) (rest : List HostEvent) :
    (s.resetEvent rest).csr 0x01 = some (capValue s.cfg) := rfl

/-- STATUS is computed from fields that do not depend on the instance, so it is that of the start state (R33). -/
theorem State.resetEvent_status (s : State) (rest : List HostEvent) : (s.resetEvent rest).status = 0 :=
  calc (s.resetEvent rest).status
    _ = State.reset.status := rfl
    _ = 0 := by decide

/-- Every control register but ID and CAP reads 0: the dimensions, STATUS, ERR, W, TCOUNT and ERRCMD. -/
theorem State.resetEvent_csr_eq_zero (s : State) (rest : List HostEvent) {c : Nat} (h2 : 2 ≤ c) (h9 : c ≤ 9) :
    (s.resetEvent rest).csr c = some 0 := by
  obtain rfl | hc : c = 5 ∨ c ∈ [2, 3, 4, 6, 7, 8, 9] := by
    interval_cases c <;> decide
  · exact congrArg some (s.resetEvent_status rest)
  · fin_cases hc <;> rfl

end Sys2Proof.Machine

/-! The statements about totality and reset: R231, R236, R237. -/

namespace Sys2Proof.Proofs

open Sys2Proof Sys2Proof.Machine

/-- Settles O7: by the host's oldest event for a step, by the way a command ends for `exec`. -/
theorem everyStepAnswersANextState : Obligations.EveryStepAnswersANextState := ⟨step_eq_next, exec_eq_next⟩

/-- Settles O8: both states are the outcome of a reset event, whose fields are those of the reset state. -/
theorem resetEventGivesTheResetState : Obligations.ResetEventGivesTheResetState := fun s rest hs hv => by
  refine ⟨s.resetEvent rest, step_of_reset hs, fun u hu => ?_, ⟨_, s.resetEvent_csr_cap rest, capValue_toNat hv⟩, by decide⟩
  obtain ⟨s', rest', rfl⟩ : ∃ s' rest', u = State.resetEvent s' rest' := by
    rcases hu with rfl | rfl
    · exact ⟨s, rest, rfl⟩
    · exact ⟨_, _, State.reset_eq_resetEvent⟩
  exact ⟨s'.resetEvent_V rest', rfl, rfl, rfl, rfl, rfl, rfl, rfl, rfl, rfl, rfl,
    State.resetOf_G s'.cfg, State.resetOf_H s'.cfg, State.resetOf_T s'.cfg, rfl, fun _ => s'.resetEvent_csr_eq_zero rest'⟩

end Sys2Proof.Proofs
